-- ==== Sys2Proof/Word.lean ====
section
/-! DEFINITION. The carriers of BSC's data (spec/00_scope.md R10, R11; spec/10_state.md R24 to R26):
bit sequences, 8-bit codes, the 64-bit command word and the binary64 word, and the four kinds of
value. -/

namespace Sys2Proof

/-- A bit sequence (R11): index 0 is the head, the first and most significant bit (R40). -/
abbrev Bits := List Bool

/-- One 8-bit code: a byte of a Byt value or a character of a Str value (R25). -/
abbrev Byte := BitVec 8

/-- A string value: its 8-bit character codes, leftmost first (R25, R110). -/
abbrev Str := List Byte

/-- The command word `REQ.CMD` (R24, R60). -/
abbrev CmdWord := BitVec 64

/-- A float value: an IEEE-754 binary64 bit pattern (R25, R150). -/
abbrev Flt64 := BitVec 64

/-- The four value kinds of R25. -/
inductive Kind where
  | str
  | int
  | flt
  | byt
deriving DecidableEq, Repr, Inhabited

/-- A value of one of the four kinds with its carrier (R25): what `RSP.RVAL` holds (R27). -/
inductive Value where
  | str (s : Str)
  | int (z : Int)
  | flt (d : Flt64)
  | byt (b : List Byte)
deriving DecidableEq, Repr, Inhabited

/-- The kind of a value. -/
def Value.kind : Value → Kind
  | .str _ => .str
  | .int _ => .int
  | .flt _ => .flt
  | .byt _ => .byt

end Sys2Proof
end

