-- ==== Sys2Proof/Config.lean ====
section
/-! DEFINITION. What an implementation of BSC fixes (spec/00_scope.md R8) and what the spec leaves
unspecified (spec/10_state.md R28; spec/93_implementation_defined.md U1 to U3, U8, U9). Every one of
these is a constant WITHOUT A BODY: nothing can be proved of its value. `MAXBITS` and `VALW` are taken
unbounded, as R8, R26 and R314 tell a model to take them (log entry 8). -/

namespace Sys2Proof

/-- A platform byte order: the values of the parameter `HOST_ENDIAN` (R8, R21). -/
inductive ByteOrder where
  | big
  | little
deriving DecidableEq, Repr, Inhabited

/-- The rounding policies of the 16-bit truncated float encoder (R8, R193). -/
inductive BfRound where
  | truncate
  | rne
deriving DecidableEq, Repr, Inhabited

/-- What a code of an 8-bit format stands for when it is no ordinary number (R205). -/
inductive Special where
  | nan
  | posInf
  | negInf
deriving DecidableEq, Repr, Inhabited

/-- A minifloat format record (R205): `special` is the partial map from codes to special values. -/
structure MiniFormat where
  /-- exponent bits -/
  expBits : Nat
  /-- mantissa bits -/
  manBits : Nat
  bias    : Int
  special : List (Byte × Special)
  /-- the code the encoder emits for a NaN -/
  nanEnc  : Byte
deriving DecidableEq, Repr, Inhabited

namespace Config

/-- `HOST_ENDIAN` (R8, R21): OPEN without a default (decision D10; log entry 7). -/
opaque hostEndian : ByteOrder

/-- `BF_ROUND` (R8, R193): OPEN without a default (decision D20; log entry 10). -/
opaque bfRound : BfRound

/-- The raw parameter behind `FMT_A` (R8, R205); the laws of R205 and of log entry 11 are imposed where it is
used (`Machine.fmtA`; decision D22; log entry 11). -/
opaque fmtAParam : MiniFormat

/-- The raw parameter behind `FMT_B` (R8, R205; `Machine.fmtB`; decision D22; log entry 11). -/
opaque fmtBParam : MiniFormat

/-- The raw parameter behind `NaNNarrow(E, M, d)` (R8, R156); its law is imposed where it is used
(`Machine.nanNarrow`; decision D19; log entry 12). -/
opaque nanNarrowParam : Nat → Nat → Nat → Nat

/-- The raw parameter behind `NaNWiden(E, M, p)` (R8, R156; `Machine.nanWiden`; decision D19; log
entry 12). -/
opaque nanWidenParam : Nat → Nat → Nat → Nat

/-- The `k`-th free value of `RSP.RES` (R28; U3; log entry 6). -/
opaque freeRes : Nat → Bits

/-- The `k`-th free value of `RSP.RVAL` (R28; U3; log entry 6). -/
opaque freeRval : Nat → Value

/-- The `k`-th free value of `RSP.CONSUMED` (R28; U3; log entry 6). -/
opaque freeConsumed : Nat → Nat

end Config

end Sys2Proof
end

