-- ==== Sys2Proof/Machine/Bits.lean ====
section
/-! DEFINITION. Bit sequences and their readings (spec/00_scope.md R11 to R14; spec/20_memory.md R40,
R41, R46, R47): the view's primitives, magnitude and its inverse, bytes, byte reversal. -/

namespace Sys2Proof.Machine

/-- `V.slice(a, b)` (R11, R46): the bits a, a+1, ..., b-1. Every rule issues it with
`0 <= a <= b <= |V|` (R46; log entry 13). -/
def slice (v : Bits) (a b : Nat) : Bits := (v.drop a).take (b - a)

/-- `zeros(k)` (R11). -/
def zeros (k : Nat) : Bits := List.replicate k false

/-- `Mag(V)` (R12): the base-2 magnitude, most significant bit first. -/
def mag (v : Bits) : Nat := v.foldl (fun a b => 2 * a + b.toNat) 0

/-- `ToBits(n, x)` (R12): the n low bits of x, most significant first; its magnitude is x when
`x < 2^n`. -/
def toBits : Nat → Nat → Bits
  | 0, _ => []
  | n + 1, x => x.testBit n :: toBits n x

/-- The w-bit groups of a sequence whose length is a multiple of w, in order: group j is
`V.slice(w*j, w*j + w)` (R41 for w = 8; R114, R116). -/
def groups (w : Nat) (v : Bits) : List Bits :=
  (List.range (v.length / w)).map fun j => slice v (w * j) (w * j + w)

/-- `ByteRev(V)` (R13): the bytes in reverse order, the bits inside each kept. -/
def byteRev (v : Bits) : Bits := (groups 8 v).reverse.flatten

/-- The bytes of a sequence of whole bytes (R41, R180). -/
def bytesOf (v : Bits) : List Byte := (groups 8 v).map fun g => BitVec.ofNat 8 (mag g)

/-- `floor(log2(x))` for a natural number x >= 1 (R16): one less than its number of bits. -/
def floorLog2Nat (x : Nat) : Nat := Nat.log2 x

end Sys2Proof.Machine
end

