-- ==== Sys2Proof/Machine/Rational.lean ====
section
/-! DEFINITION. The exact rational numbers of the float rules (spec/00_scope.md R16): a non-negative
rational as a quotient of two natural numbers, never normalised, so that the kernel can compute with
it. Signs are kept apart (spec/43_ieee_float.md R152). Laws/Rational.lean ties it to Mathlib's `ℚ`. -/

namespace Sys2Proof.Machine

/-- The rational `num / den`; every rule builds it with `den > 0`. -/
structure Ratio where
  num : Nat
  den : Nat
deriving DecidableEq, Repr

/-- `m * 2^k` for an integer k (R16). -/
def scaled (m : Nat) (k : Int) : Ratio :=
  if 0 ≤ k then ⟨m * 2 ^ k.toNat, 1⟩ else ⟨m, 2 ^ (-k).toNat⟩

/-- `a / 2^k` for an integer k. -/
def divPow2 (a : Ratio) (k : Int) : Ratio :=
  if 0 ≤ k then ⟨a.num, a.den * 2 ^ k.toNat⟩ else ⟨a.num * 2 ^ (-k).toNat, a.den⟩

/-- `a <= b`. -/
def ratioLe (a b : Ratio) : Bool := decide (a.num * b.den ≤ b.num * a.den)

/-- `a < b`. -/
def ratioLt (a b : Ratio) : Bool := decide (a.num * b.den < b.num * a.den)

/-- `a - b` for `b <= a`. -/
def ratioSub (a b : Ratio) : Ratio := ⟨a.num * b.den - b.num * a.den, a.den * b.den⟩

/-- `floor(log2(a))` for `a > 0` (R16): the integer k with `2^k <= a < 2^(k+1)`. -/
def floorLog2 (a : Ratio) : Int :=
  let k : Int := (Nat.log2 a.num : Int) - Nat.log2 a.den
  if ratioLe (scaled 1 k) a then k else k - 1

/-- `a` rounded to an integer, to nearest, ties to the even integer (R153). -/
def roundEven (a : Ratio) : Nat :=
  let k := a.num / a.den
  let r := a.num % a.den
  if 2 * r < a.den then k
  else if a.den < 2 * r then k + 1
  else if k % 2 = 0 then k else k + 1

end Sys2Proof.Machine
end

