-- ==== Sys2Proof/Machine/Floats.lean ====
section
/-! DEFINITION. IEEE formats and their conversions (spec/43_ieee_float.md R150 to R156). A word of a format
(E, M) is the number of its `w = 1 + E + M` bits; its fields are read by division. -/

namespace Sys2Proof.Machine

/-- The bias `2^(E-1) - 1` of an IEEE format (R151). -/
def ieeeBias (E : Nat) : Int := 2 ^ (E - 1) - 1

/-- The least normal exponent `emin = 1 - bias` (R151). -/
def ieeeEmin (E : Nat) : Int := 1 - ieeeBias E

/-- The sign bit `p[w-1]` (R152). -/
def wordSign (E M p : Nat) : Nat := p / 2 ^ (E + M) % 2

/-- The exponent field `p[w-2:M]` (R152). -/
def wordExp (E M p : Nat) : Nat := p / 2 ^ M % 2 ^ E

/-- The mantissa field `p[M-1:0]` (R152). -/
def wordMan (M p : Nat) : Nat := p % 2 ^ M

/-- The word of three fields: `(s << (w-1)) | (e << M) | m` for fields in range (R153). -/
def wordOf (E M s e m : Nat) : Nat := s * 2 ^ (E + M) + e * 2 ^ M + m

/-- The classes of R152. -/
inductive FloatClass where
  | zero
  | subnormal
  | normal
  | infinite
  | nan
deriving DecidableEq, Repr

/-- `Class(p)` (R152). -/
def classOf (E M p : Nat) : FloatClass :=
  if wordExp E M p = 0 then (if wordMan M p = 0 then .zero else .subnormal)
  else if wordExp E M p = 2 ^ E - 1 then (if wordMan M p = 0 then .infinite else .nan)
  else .normal

/-- `Abs(p)` of a finite word (R152). -/
def absOf (E M p : Nat) : Ratio :=
  if wordExp E M p = 0 then scaled (wordMan M p) (ieeeEmin E - M)
  else scaled (2 ^ M + wordMan M p) (wordExp E M p - ieeeBias E - M)

/-- `RoundFin(E, M, s, a)` (R153); `none` is the verdict `overflow`. -/
def roundFin (E M s : Nat) (a : Ratio) : Option Nat :=
  if a.num = 0 then some (wordOf E M s 0 0)
  else
    let ex := max (floorLog2 a) (ieeeEmin E)
    let k := roundEven (divPow2 a (ex - M))
    let ex' := if k = 2 ^ (M + 1) then ex + 1 else ex
    let k' := if k = 2 ^ (M + 1) then 2 ^ M else k
    if k' < 2 ^ M then some (wordOf E M s 0 k')
    else
      let e := ex' + ieeeBias E
      if 2 ^ E - 1 ≤ e then none else some (wordOf E M s e.toNat (k' - 2 ^ M))

/-- The law of `NaNNarrow` (R156): the result is a NaN word of the target format. For binary32 its upper
half is a NaN of the 16-bit truncated layout as well, as R193 requires (DEDUCED, log entry 12). -/
def nanNarrowLaw (E M p : Nat) : Bool :=
  decide (p < 2 ^ (1 + E + M)) && classOf E M p == .nan &&
    (!(E == 8 && M == 23) || classOf 8 7 (p / 2 ^ 16) == .nan)

/-- The law of `NaNWiden` (R156): the result is a NaN of binary64. -/
def nanWidenLaw (p : Nat) : Bool := decide (p < 2 ^ 64) && classOf 11 52 p == .nan

/-- The default `NaNNarrow` (R156): the sign, the leading mantissa bits, the quiet bit. -/
def defaultNanNarrow (E M d : Nat) : Nat :=
  wordOf E M (wordSign 11 52 d) (2 ^ E - 1)
    ((wordMan 52 d / 2 ^ (52 - M)) ||| 2 ^ (M - 1))

/-- The default `NaNWiden` (R156). -/
def defaultNanWiden (E M p : Nat) : Nat :=
  wordOf 11 52 (wordSign E M p) 0x7FF ((wordMan M p * 2 ^ (52 - M)) ||| 2 ^ 51)

/-- `NaNNarrow` (R8, R156): any function that keeps the law. Where the bodyless parameter breaks it, the
default stands in, so every lawful function and no other is an outcome (log entry 12). -/
def nanNarrow (E M d : Nat) : Nat :=
  if nanNarrowLaw E M (Config.nanNarrowParam E M d) then Config.nanNarrowParam E M d
  else defaultNanNarrow E M d

/-- `NaNWiden` (R8, R156): any function that keeps the law, as for `nanNarrow` (log entry 12). -/
def nanWiden (E M p : Nat) : Nat :=
  if nanWidenLaw (Config.nanWidenParam E M p) then Config.nanWidenParam E M p
  else defaultNanWiden E M p

/-- The infinity word of a sign (R154, R155). -/
def infinityWord (E M s : Nat) : Nat := wordOf E M s (2 ^ E - 1) 0

/-- `Narrow(E, M, d)` (R154); `none` is the verdict `overflow`. -/
def narrow (E M d : Nat) : Option Nat :=
  match classOf 11 52 d with
  | .nan => some (nanNarrow E M d)
  | .infinite => some (infinityWord E M (wordSign 11 52 d))
  | _ => roundFin E M (wordSign 11 52 d) (absOf 11 52 d)

/-- `RoundFin(11, 52, s, a)` where the rule says that it is exact and never overflows (R155, R208); the
infinity stands for the verdict that cannot occur (log entry 18). -/
def exactDouble (s : Nat) (a : Ratio) : Nat := (roundFin 11 52 s a).getD (infinityWord 11 52 s)

/-- `Widen(E, M, p)` (R155). -/
def widen (E M p : Nat) : Nat :=
  match classOf E M p with
  | .nan => nanWiden E M p
  | .infinite => infinityWord 11 52 (wordSign E M p)
  | _ => exactDouble (wordSign E M p) (absOf E M p)

/-- The bit pattern of a float value from its number (R150). -/
def fltOf (p : Nat) : Value := .flt (BitVec.ofNat 64 p)

end Sys2Proof.Machine
end

