-- ==== Sys2Proof/Syntax.lean ====
section
/-! DEFINITION. The commands of BSC as syntax: operations (spec/30_encoding.md R63), families (R61),
endianness qualifiers (R62), and `Instr`, one constructor for each of the 57 rows of
spec/opcode_table.json (R67). -/

namespace Sys2Proof

/-- The operation codes of R63. -/
inductive Op where
  | dec
  | enc
  | decs
  | pad
deriving DecidableEq, Repr, Inhabited

/-- The 14 families of R3, in the order of R61; each constructor is the family's long token. -/
inductive Family where
  | bin
  | hex
  | oct
  | uint
  | int
  | float
  | bfloat
  | e4m3float
  | e5m2float
  | bytes
  | ue
  | se
  | uie
  | sie
deriving DecidableEq, Repr, Inhabited

/-- The endianness qualifiers of R62: no suffix (bit-wise big-endian), `be`, `le`, `ne`. -/
inductive Endian where
  | bitwise
  | be
  | le
  | ne
deriving DecidableEq, Repr, Inhabited

/-- One constructor for each row of the opcode table (R66, R67), named `op` then token with its
endianness suffix. The operand is the explicit bit length of R60: `none` for `LP = 0`, `some LEN` for
`LP = 1`. -/
inductive Instr where
  /-- `DEC.bin` (R112) -/
  | decBin (len : Option Nat)
  /-- `ENC.bin` (R113) -/
  | encBin (len : Option Nat)
  /-- `DEC.hex` (R114) -/
  | decHex (len : Option Nat)
  /-- `ENC.hex` (R115) -/
  | encHex (len : Option Nat)
  /-- `DEC.oct` (R116) -/
  | decOct (len : Option Nat)
  /-- `ENC.oct` (R117) -/
  | encOct (len : Option Nat)
  /-- `DEC.uint` (R132) -/
  | decUint (len : Option Nat)
  /-- `DEC.uintbe` (R132) -/
  | decUintbe (len : Option Nat)
  /-- `DEC.uintle` (R132) -/
  | decUintle (len : Option Nat)
  /-- `DEC.uintne` (R132) -/
  | decUintne (len : Option Nat)
  /-- `ENC.uint` (R133) -/
  | encUint (len : Option Nat)
  /-- `ENC.uintbe` (R133) -/
  | encUintbe (len : Option Nat)
  /-- `ENC.uintle` (R133) -/
  | encUintle (len : Option Nat)
  /-- `ENC.uintne` (R133) -/
  | encUintne (len : Option Nat)
  /-- `DEC.int` (R134) -/
  | decInt (len : Option Nat)
  /-- `DEC.intbe` (R134) -/
  | decIntbe (len : Option Nat)
  /-- `DEC.intle` (R134) -/
  | decIntle (len : Option Nat)
  /-- `DEC.intne` (R134) -/
  | decIntne (len : Option Nat)
  /-- `ENC.int` (R135) -/
  | encInt (len : Option Nat)
  /-- `ENC.intbe` (R135) -/
  | encIntbe (len : Option Nat)
  /-- `ENC.intle` (R135) -/
  | encIntle (len : Option Nat)
  /-- `ENC.intne` (R135) -/
  | encIntne (len : Option Nat)
  /-- `DEC.float` (R157) -/
  | decFloat (len : Option Nat)
  /-- `DEC.floatbe` (R157) -/
  | decFloatbe (len : Option Nat)
  /-- `DEC.floatle` (R157) -/
  | decFloatle (len : Option Nat)
  /-- `DEC.floatne` (R157) -/
  | decFloatne (len : Option Nat)
  /-- `ENC.float` (R158) -/
  | encFloat (len : Option Nat)
  /-- `ENC.floatbe` (R158) -/
  | encFloatbe (len : Option Nat)
  /-- `ENC.floatle` (R158) -/
  | encFloatle (len : Option Nat)
  /-- `ENC.floatne` (R158) -/
  | encFloatne (len : Option Nat)
  /-- `DEC.bfloat` (R192) -/
  | decBfloat (len : Option Nat)
  /-- `DEC.bfloatbe` (R192) -/
  | decBfloatbe (len : Option Nat)
  /-- `DEC.bfloatle` (R192) -/
  | decBfloatle (len : Option Nat)
  /-- `DEC.bfloatne` (R192) -/
  | decBfloatne (len : Option Nat)
  /-- `ENC.bfloat` (R193) -/
  | encBfloat (len : Option Nat)
  /-- `ENC.bfloatbe` (R193) -/
  | encBfloatbe (len : Option Nat)
  /-- `ENC.bfloatle` (R193) -/
  | encBfloatle (len : Option Nat)
  /-- `ENC.bfloatne` (R193) -/
  | encBfloatne (len : Option Nat)
  /-- `DEC.e4m3float` (R210) -/
  | decE4m3float (len : Option Nat)
  /-- `ENC.e4m3float` (R211) -/
  | encE4m3float (len : Option Nat)
  /-- `DEC.e5m2float` (R212) -/
  | decE5m2float (len : Option Nat)
  /-- `ENC.e5m2float` (R213) -/
  | encE5m2float (len : Option Nat)
  /-- `DEC.bytes` (R180) -/
  | decBytes (len : Option Nat)
  /-- `ENC.bytes` (R181) -/
  | encBytes (len : Option Nat)
  /-- `PAD.bytes` (R182) -/
  | padBytes (len : Option Nat)
  /-- `DEC.ue` (R238) -/
  | decUe (len : Option Nat)
  /-- `ENC.ue` (R237) -/
  | encUe (len : Option Nat)
  /-- `DECS.ue` (R239) -/
  | decsUe (len : Option Nat)
  /-- `DEC.se` (R241) -/
  | decSe (len : Option Nat)
  /-- `ENC.se` (R240) -/
  | encSe (len : Option Nat)
  /-- `DECS.se` (R242) -/
  | decsSe (len : Option Nat)
  /-- `DEC.uie` (R244) -/
  | decUie (len : Option Nat)
  /-- `ENC.uie` (R243) -/
  | encUie (len : Option Nat)
  /-- `DECS.uie` (R245) -/
  | decsUie (len : Option Nat)
  /-- `DEC.sie` (R247) -/
  | decSie (len : Option Nat)
  /-- `ENC.sie` (R246) -/
  | encSie (len : Option Nat)
  /-- `DECS.sie` (R248) -/
  | decsSie (len : Option Nat)
deriving DecidableEq, Repr

end Sys2Proof
end

