-- ==== Sys2Proof/WellFormed.lean ====
section
/-! DEFINITION. Well-formed instructions: the explicit length, when present, fits the 32-bit `LEN` field
(spec/30_encoding.md R60, R64). The family's own length rule is no part of it: an explicit length that
breaks it is a legal word that answers InvalidLength (spec/40_dtype_resolution.md R93). -/

namespace Sys2Proof

/-- An explicit length fits the `LEN` field: 0 to 2^32 - 1 (R60, R64). -/
def lenFits : Option Nat → Bool
  | none => true
  | some n => decide (n < 2 ^ 32)

/-- The explicit length of an instruction. -/
def Instr.len : Instr → Option Nat
  | .decBin len => len
  | .encBin len => len
  | .decHex len => len
  | .encHex len => len
  | .decOct len => len
  | .encOct len => len
  | .decUint len => len
  | .decUintbe len => len
  | .decUintle len => len
  | .decUintne len => len
  | .encUint len => len
  | .encUintbe len => len
  | .encUintle len => len
  | .encUintne len => len
  | .decInt len => len
  | .decIntbe len => len
  | .decIntle len => len
  | .decIntne len => len
  | .encInt len => len
  | .encIntbe len => len
  | .encIntle len => len
  | .encIntne len => len
  | .decFloat len => len
  | .decFloatbe len => len
  | .decFloatle len => len
  | .decFloatne len => len
  | .encFloat len => len
  | .encFloatbe len => len
  | .encFloatle len => len
  | .encFloatne len => len
  | .decBfloat len => len
  | .decBfloatbe len => len
  | .decBfloatle len => len
  | .decBfloatne len => len
  | .encBfloat len => len
  | .encBfloatbe len => len
  | .encBfloatle len => len
  | .encBfloatne len => len
  | .decE4m3float len => len
  | .encE4m3float len => len
  | .decE5m2float len => len
  | .encE5m2float len => len
  | .decBytes len => len
  | .encBytes len => len
  | .padBytes len => len
  | .decUe len => len
  | .encUe len => len
  | .decsUe len => len
  | .decSe len => len
  | .encSe len => len
  | .decsSe len => len
  | .decUie len => len
  | .encUie len => len
  | .decsUie len => len
  | .decSie len => len
  | .encSie len => len
  | .decsSie len => len

/-- An instruction that a command word can carry. -/
def Instr.wellFormed (i : Instr) : Bool := lenFits i.len

end Sys2Proof
end

