-- ==== Sys2Proof/Decode.lean ====
section
/-! DEFINITION. The command word (spec/30_encoding.md R60 to R65): the decoder, total on all 2^64
words, with the five legality checks of R70 in their order, each rejecting by its own name; then the
encoder, written from the same layout. -/

namespace Sys2Proof

/-- Why a command word is not an instruction: the five steps of R70, in order. -/
inductive Reject where
  /-- step 1: `CMD[31:9] != 0`; answers IllegalCommand -/
  | reservedBits
  /-- step 2: `FAM >= 14`; answers UnknownFamily -/
  | unknownFamily
  /-- step 3: `END != 0` on a family that takes none; answers IllegalCommand -/
  | endianOnFamily
  /-- step 4: an operation the family lacks; answers IllegalCommand -/
  | opOnFamily
  /-- step 5: `LP = 0` with `LEN != 0`; answers IllegalCommand -/
  | lenWithoutLp
deriving DecidableEq, Repr

/-- The family of a `FAM` code; none for the reserved codes 14 and 15 (R61). -/
def famOfCode : Nat → Option Family
  | 0 => some .bin
  | 1 => some .hex
  | 2 => some .oct
  | 3 => some .uint
  | 4 => some .int
  | 5 => some .float
  | 6 => some .bfloat
  | 7 => some .e4m3float
  | 8 => some .e5m2float
  | 9 => some .bytes
  | 10 => some .ue
  | 11 => some .se
  | 12 => some .uie
  | 13 => some .sie
  | _ => none

/-- The `FAM` code of a family (R61). -/
def famCode : Family → Nat
  | .bin => 0
  | .hex => 1
  | .oct => 2
  | .uint => 3
  | .int => 4
  | .float => 5
  | .bfloat => 6
  | .e4m3float => 7
  | .e5m2float => 8
  | .bytes => 9
  | .ue => 10
  | .se => 11
  | .uie => 12
  | .sie => 13

/-- The qualifier of an `END` code (R62). -/
def endOfCode : Nat → Endian
  | 0 => .bitwise
  | 1 => .be
  | 2 => .le
  | _ => .ne

/-- The `END` code of a qualifier (R62). -/
def endCode : Endian → Nat
  | .bitwise => 0
  | .be => 1
  | .le => 2
  | .ne => 3

/-- The operation of an `OP` code (R63). -/
def opOfCode : Nat → Op
  | 0 => .dec
  | 1 => .enc
  | 2 => .decs
  | _ => .pad

/-- The `OP` code of an operation (R63). -/
def opCode : Op → Nat
  | .dec => 0
  | .enc => 1
  | .decs => 2
  | .pad => 3

/-- The families that take a byte-wise qualifier (R42, R62). -/
def takesEndian : Family → Bool
  | .uint | .int | .float | .bfloat => true
  | _ => false

/-- Which operations a family has (R63): DEC and ENC all, DECS the four exp-Golomb families, PAD the
bytes family. -/
def hasOp : Op → Family → Bool
  | .dec, _ => true
  | .enc, _ => true
  | .decs, .ue | .decs, .se | .decs, .uie | .decs, .sie => true
  | .decs, _ => false
  | .pad, .bytes => true
  | .pad, _ => false

/-- The instruction of a legal (operation, family, qualifier) triple with its explicit length (R66). -/
def instrOf (op : Op) (fam : Family) (e : Endian) (len : Option Nat) : Option Instr :=
  match op, fam, e with
  | .dec, .bin, .bitwise => some (.decBin len)
  | .enc, .bin, .bitwise => some (.encBin len)
  | .dec, .hex, .bitwise => some (.decHex len)
  | .enc, .hex, .bitwise => some (.encHex len)
  | .dec, .oct, .bitwise => some (.decOct len)
  | .enc, .oct, .bitwise => some (.encOct len)
  | .dec, .uint, .bitwise => some (.decUint len)
  | .dec, .uint, .be => some (.decUintbe len)
  | .dec, .uint, .le => some (.decUintle len)
  | .dec, .uint, .ne => some (.decUintne len)
  | .enc, .uint, .bitwise => some (.encUint len)
  | .enc, .uint, .be => some (.encUintbe len)
  | .enc, .uint, .le => some (.encUintle len)
  | .enc, .uint, .ne => some (.encUintne len)
  | .dec, .int, .bitwise => some (.decInt len)
  | .dec, .int, .be => some (.decIntbe len)
  | .dec, .int, .le => some (.decIntle len)
  | .dec, .int, .ne => some (.decIntne len)
  | .enc, .int, .bitwise => some (.encInt len)
  | .enc, .int, .be => some (.encIntbe len)
  | .enc, .int, .le => some (.encIntle len)
  | .enc, .int, .ne => some (.encIntne len)
  | .dec, .float, .bitwise => some (.decFloat len)
  | .dec, .float, .be => some (.decFloatbe len)
  | .dec, .float, .le => some (.decFloatle len)
  | .dec, .float, .ne => some (.decFloatne len)
  | .enc, .float, .bitwise => some (.encFloat len)
  | .enc, .float, .be => some (.encFloatbe len)
  | .enc, .float, .le => some (.encFloatle len)
  | .enc, .float, .ne => some (.encFloatne len)
  | .dec, .bfloat, .bitwise => some (.decBfloat len)
  | .dec, .bfloat, .be => some (.decBfloatbe len)
  | .dec, .bfloat, .le => some (.decBfloatle len)
  | .dec, .bfloat, .ne => some (.decBfloatne len)
  | .enc, .bfloat, .bitwise => some (.encBfloat len)
  | .enc, .bfloat, .be => some (.encBfloatbe len)
  | .enc, .bfloat, .le => some (.encBfloatle len)
  | .enc, .bfloat, .ne => some (.encBfloatne len)
  | .dec, .e4m3float, .bitwise => some (.decE4m3float len)
  | .enc, .e4m3float, .bitwise => some (.encE4m3float len)
  | .dec, .e5m2float, .bitwise => some (.decE5m2float len)
  | .enc, .e5m2float, .bitwise => some (.encE5m2float len)
  | .dec, .bytes, .bitwise => some (.decBytes len)
  | .enc, .bytes, .bitwise => some (.encBytes len)
  | .pad, .bytes, .bitwise => some (.padBytes len)
  | .dec, .ue, .bitwise => some (.decUe len)
  | .enc, .ue, .bitwise => some (.encUe len)
  | .decs, .ue, .bitwise => some (.decsUe len)
  | .dec, .se, .bitwise => some (.decSe len)
  | .enc, .se, .bitwise => some (.encSe len)
  | .decs, .se, .bitwise => some (.decsSe len)
  | .dec, .uie, .bitwise => some (.decUie len)
  | .enc, .uie, .bitwise => some (.encUie len)
  | .decs, .uie, .bitwise => some (.decsUie len)
  | .dec, .sie, .bitwise => some (.decSie len)
  | .enc, .sie, .bitwise => some (.encSie len)
  | .decs, .sie, .bitwise => some (.decsSie len)
  | _, _, _ => none

/-- The fields of an instruction: operation, family, qualifier, explicit length (R66). -/
def instrFields : Instr → Op × Family × Endian × Option Nat
  | .decBin len => (.dec, .bin, .bitwise, len)
  | .encBin len => (.enc, .bin, .bitwise, len)
  | .decHex len => (.dec, .hex, .bitwise, len)
  | .encHex len => (.enc, .hex, .bitwise, len)
  | .decOct len => (.dec, .oct, .bitwise, len)
  | .encOct len => (.enc, .oct, .bitwise, len)
  | .decUint len => (.dec, .uint, .bitwise, len)
  | .decUintbe len => (.dec, .uint, .be, len)
  | .decUintle len => (.dec, .uint, .le, len)
  | .decUintne len => (.dec, .uint, .ne, len)
  | .encUint len => (.enc, .uint, .bitwise, len)
  | .encUintbe len => (.enc, .uint, .be, len)
  | .encUintle len => (.enc, .uint, .le, len)
  | .encUintne len => (.enc, .uint, .ne, len)
  | .decInt len => (.dec, .int, .bitwise, len)
  | .decIntbe len => (.dec, .int, .be, len)
  | .decIntle len => (.dec, .int, .le, len)
  | .decIntne len => (.dec, .int, .ne, len)
  | .encInt len => (.enc, .int, .bitwise, len)
  | .encIntbe len => (.enc, .int, .be, len)
  | .encIntle len => (.enc, .int, .le, len)
  | .encIntne len => (.enc, .int, .ne, len)
  | .decFloat len => (.dec, .float, .bitwise, len)
  | .decFloatbe len => (.dec, .float, .be, len)
  | .decFloatle len => (.dec, .float, .le, len)
  | .decFloatne len => (.dec, .float, .ne, len)
  | .encFloat len => (.enc, .float, .bitwise, len)
  | .encFloatbe len => (.enc, .float, .be, len)
  | .encFloatle len => (.enc, .float, .le, len)
  | .encFloatne len => (.enc, .float, .ne, len)
  | .decBfloat len => (.dec, .bfloat, .bitwise, len)
  | .decBfloatbe len => (.dec, .bfloat, .be, len)
  | .decBfloatle len => (.dec, .bfloat, .le, len)
  | .decBfloatne len => (.dec, .bfloat, .ne, len)
  | .encBfloat len => (.enc, .bfloat, .bitwise, len)
  | .encBfloatbe len => (.enc, .bfloat, .be, len)
  | .encBfloatle len => (.enc, .bfloat, .le, len)
  | .encBfloatne len => (.enc, .bfloat, .ne, len)
  | .decE4m3float len => (.dec, .e4m3float, .bitwise, len)
  | .encE4m3float len => (.enc, .e4m3float, .bitwise, len)
  | .decE5m2float len => (.dec, .e5m2float, .bitwise, len)
  | .encE5m2float len => (.enc, .e5m2float, .bitwise, len)
  | .decBytes len => (.dec, .bytes, .bitwise, len)
  | .encBytes len => (.enc, .bytes, .bitwise, len)
  | .padBytes len => (.pad, .bytes, .bitwise, len)
  | .decUe len => (.dec, .ue, .bitwise, len)
  | .encUe len => (.enc, .ue, .bitwise, len)
  | .decsUe len => (.decs, .ue, .bitwise, len)
  | .decSe len => (.dec, .se, .bitwise, len)
  | .encSe len => (.enc, .se, .bitwise, len)
  | .decsSe len => (.decs, .se, .bitwise, len)
  | .decUie len => (.dec, .uie, .bitwise, len)
  | .encUie len => (.enc, .uie, .bitwise, len)
  | .decsUie len => (.decs, .uie, .bitwise, len)
  | .decSie len => (.dec, .sie, .bitwise, len)
  | .encSie len => (.enc, .sie, .bitwise, len)
  | .decsSie len => (.decs, .sie, .bitwise, len)

/-- The field `[hi:lo]` of a command word as a number (R10). -/
def cmdField (w : CmdWord) (hi lo : Nat) : Nat :=
  w.toNat / 2 ^ lo % 2 ^ (hi + 1 - lo)

/-- `FAM` (R60). -/
def cmdFam (w : CmdWord) : Nat := cmdField w 3 0
/-- `END` (R60). -/
def cmdEnd (w : CmdWord) : Nat := cmdField w 5 4
/-- `OP` (R60). -/
def cmdOp (w : CmdWord) : Nat := cmdField w 7 6
/-- `LP` (R60). -/
def cmdLp (w : CmdWord) : Nat := cmdField w 8 8
/-- The reserved bits `[31:9]` (R60). -/
def cmdReserved (w : CmdWord) : Nat := cmdField w 31 9
/-- `LEN` (R60). -/
def cmdLen (w : CmdWord) : Nat := cmdField w 63 32

/-- The explicit length a word carries: `LEN` when `LP = 1`, none otherwise (R60). -/
def explicitLen (w : CmdWord) : Option Nat :=
  if cmdLp w = 1 then some (cmdLen w) else none

/-- The decoder of R70: the five checks in order; a word that passes selects its instruction. -/
def decode (w : CmdWord) : Except Reject Instr :=
  if cmdReserved w ≠ 0 then .error .reservedBits
  else match famOfCode (cmdFam w) with
    | none => .error .unknownFamily
    | some fam =>
      if endOfCode (cmdEnd w) ≠ .bitwise ∧ takesEndian fam = false then .error .endianOnFamily
      else if hasOp (opOfCode (cmdOp w)) fam = false then .error .opOnFamily
      else if cmdLp w = 0 ∧ cmdLen w ≠ 0 then .error .lenWithoutLp
      else match instrOf (opOfCode (cmdOp w)) fam (endOfCode (cmdEnd w)) (explicitLen w) with
        | some i => .ok i
        | none => .error .opOnFamily   -- not reached: the checks above leave only rows of the table

/-- The number a word of the given fields spells (R60): `FAM | END << 4 | OP << 6 | LP << 8 | LEN << 32`. -/
def packFields (op : Op) (fam : Family) (e : Endian) (len : Option Nat) : Nat :=
  famCode fam + endCode e * 2 ^ 4 + opCode op * 2 ^ 6
    + (match len with
       | none => 0
       | some n => 2 ^ 8 + n * 2 ^ 32)

/-- The command word of an instruction (R60, R66). -/
def encode (i : Instr) : CmdWord :=
  let f := instrFields i
  BitVec.ofNat 64 (packFields f.1 f.2.1 f.2.2.1 f.2.2.2)

/-- The instruction the decoder reads from the bits `w` of a table row of `nbits` bits, every bit of
the 64-bit command word above `nbits` being 0 (the port carries one whole word, so there is no byte
order to lay it out in). -/
def decodeTableWord (nbits w : Nat) : Option Instr :=
  let bits := w % 2 ^ nbits
  if bits < 2 ^ 64 then
    match decode (BitVec.ofNat 64 bits) with
    | .ok i => some i
    | .error _ => none
  else none

end Sys2Proof
end

