-- ==== Sys2Proof/Machine/Flags.lean ====
section
/-! DEFINITION. `RSP.STATUS`, the only condition code of BSC (spec/10_state.md R29), and the error kinds
behind its values (spec/60_exceptions.md R270). -/

namespace Sys2Proof.Machine

/-- The error kinds of R270. `tokenSyntax` is the assembler's only. -/
inductive ErrorKind where
  | tokenSyntax
  | unknownFamily
  | invalidLength
  | interpret
  | value
  | illegalCommand
deriving DecidableEq, Repr

/-- The status of a command that succeeded (R270). -/
def statusOk : BitVec 8 := 0

/-- `code(K)` (R270). -/
def errorCode : ErrorKind → BitVec 8
  | .tokenSyntax => 1
  | .unknownFamily => 2
  | .invalidLength => 3
  | .interpret => 4
  | .value => 5
  | .illegalCommand => 6

/-- Which kind an illegal command word answers (R70). -/
def rejectKind : Reject → ErrorKind
  | .reservedBits => .illegalCommand
  | .unknownFamily => .unknownFamily
  | .endianOnFamily => .illegalCommand
  | .opOnFamily => .illegalCommand
  | .lenWithoutLp => .illegalCommand

end Sys2Proof.Machine
end

