-- ==== Sys2Proof/Machine/Registry.lean ====
section
/-! DEFINITION. The registry (spec/10_state.md R30; spec/40_dtype_resolution.md R90 to R94): the constant
table of the families, and stage 1, the check of the explicit length. -/

namespace Sys2Proof.Machine

/-- Whether an operation of a family takes an explicit length (R92): optional, required, forbidden, or
no such operation. -/
inductive LenUse where
  | opt
  | req
  | forb
  | absent
deriving DecidableEq, Repr

/-- One row of the registry but for its predicate `P(L)`: the kind and the use of a length by each
operation (R30, R92). -/
structure RegistryRow where
  kind : Kind
  dec  : LenUse
  enc  : LenUse
  decs : LenUse
  pad  : LenUse
deriving DecidableEq, Repr

/-- The registry table (R61, R92). -/
def registryRow : Family → RegistryRow
  | .bin      => ⟨.str, .opt, .opt, .absent, .absent⟩
  | .hex      => ⟨.str, .opt, .opt, .absent, .absent⟩
  | .oct      => ⟨.str, .opt, .opt, .absent, .absent⟩
  | .uint     => ⟨.int, .opt, .req, .absent, .absent⟩
  | .int      => ⟨.int, .opt, .req, .absent, .absent⟩
  | .float    => ⟨.flt, .opt, .req, .absent, .absent⟩
  | .bfloat   => ⟨.flt, .opt, .opt, .absent, .absent⟩
  | .e4m3float => ⟨.flt, .opt, .opt, .absent, .absent⟩
  | .e5m2float => ⟨.flt, .opt, .opt, .absent, .absent⟩
  | .bytes    => ⟨.byt, .opt, .opt, .absent, .forb⟩
  | .ue       => ⟨.int, .forb, .forb, .forb, .absent⟩
  | .se       => ⟨.int, .forb, .forb, .forb, .absent⟩
  | .uie      => ⟨.int, .forb, .forb, .forb, .absent⟩
  | .sie      => ⟨.int, .forb, .forb, .forb, .absent⟩

/-- `P(L)`, the `length_constraint` of a family (R92). -/
def lenConstraint : Family → Nat → Bool
  | .bin, _ => true
  | .hex, n => n % 4 == 0
  | .oct, n => n % 3 == 0
  | .uint, n => decide (0 < n)
  | .int, n => decide (0 < n)
  | .float, n => n == 16 || n == 32 || n == 64
  | .bfloat, n => n == 16
  | .e4m3float, n => n == 8
  | .e5m2float, n => n == 8
  | .bytes, n => n % 8 == 0
  | .ue, _ => false
  | .se, _ => false
  | .uie, _ => false
  | .sie, _ => false

/-- The row's entry for an operation (R92). -/
def lenUse (op : Op) (fam : Family) : LenUse :=
  match op with
  | .dec => (registryRow fam).dec
  | .enc => (registryRow fam).enc
  | .decs => (registryRow fam).decs
  | .pad => (registryRow fam).pad

/-- `resolve_len` (R93): stage 1, its three tests in the order written. -/
def resolveLen (op : Op) (fam : Family) (len : Option Nat) : Except ErrorKind Unit :=
  match len with
  | some n =>
    if lenUse op fam = .forb then .error .invalidLength
    else if lenConstraint fam n = false then .error .invalidLength
    else .ok ()
  | none => if lenUse op fam = .req then .error .invalidLength else .ok ()

end Sys2Proof.Machine
end

