-- ==== Sys2Proof/Machine/State.lean ====
section
/-! DEFINITION. The state of BSC (spec/10_state.md R20 to R35): the configuration, the request record,
the response record and the busy bit, as plain data; the two fields of the model's own
(`freeIdx`, `rspKind`); the reasons a step or a host act can stop; the state after reset. -/

namespace Sys2Proof.Machine

/-- `CFG` (R21, R32): one latched bit. The registry table is constant and stands in
Machine/Registry.lean (R30). -/
structure Cfg where
  hostEndian : ByteOrder
deriving DecidableEq, Repr

/-- `REQ.VAL` (R24, R25): the value operand. No tag is carried: the family of the command fixes the
kind, and the command reads the carrier of that kind (log entry 9). -/
structure Operand where
  str : Str
  int : Int
  flt : Flt64
  byt : List Byte
deriving DecidableEq, Repr

/-- The request record (R24). `VLEN` is the length of `view`. -/
structure Request where
  cmd  : CmdWord
  view : Bits
  val  : Operand
deriving DecidableEq, Repr

/-- The response record (R27). `RLEN` is the length of `res`. -/
structure Response where
  status   : BitVec 8
  res      : Bits
  rval     : Value
  consumed : Nat
deriving DecidableEq, Repr

/-- Which fields the last response defines (R28, R35); the model's own field (log entry 14). -/
inductive RspKind where
  /-- no command has completed since reset: nothing is defined (R35) -/
  | none
  /-- an error: STATUS only (R28, R280) -/
  | error
  /-- DEC and PAD: STATUS and RVAL -/
  | value
  /-- ENC: STATUS and RES -/
  | bits
  /-- DECS: STATUS, RVAL and CONSUMED -/
  | stream
deriving DecidableEq, Repr

/-- The state of BSC. -/
structure State where
  cfg     : Cfg
  req     : Request
  rsp     : Response
  /-- between start and done (R305) -/
  busy    : Bool
  /-- which free value an unspecified response field takes next; the model's own (log entry 6) -/
  freeIdx : Nat
  /-- which response fields are defined; the model's own (log entry 14) -/
  rspKind : RspKind
deriving DecidableEq, Repr

/-- Faults of a host program. No step of BSC raises one: they are answers of the host's reads in
Machine/HostPort.lean. -/
inductive Fault where
  /-- raised by a read of `RSP` between start and done (R308); safe: the model gives no value -/
  | readBeforeDone
  /-- raised by a read of `RSP` before the first command after reset has completed (R35, R308); safe -/
  | readBeforeFirst
  /-- raised by a read of a response field that the operation or the status does not define (R28,
  U3); safe -/
  | readUnspecified
deriving DecidableEq, Repr

/-- Refusals. Only the host's acts in Machine/HostPort.lean answer the last two; `exec` answers none
while every instruction has its meaning. -/
inductive Refusal where
  /-- raised by `exec` for an instruction without a meaning; safe -/
  | notModelled (mnemonic : String)
  /-- raised by a start while a command is in progress (R307, U5); safe -/
  | startWhileBusy
  /-- raised by a change of `REQ` between start and done (R306, U5); safe -/
  | requestChangedWhileBusy
deriving DecidableEq, Repr

/-- The machine right after reset (R35, R300): `CFG.HOST_ENDIAN` is the parameter, no command is in
progress. The spec leaves `REQ` and `RSP` unspecified; the values here are the model's (DESIGN CHOICE,
log entries 2 to 6 and 14). -/
def State.reset : State where
  cfg := { hostEndian := Config.hostEndian }
  req := { cmd := 0, view := [], val := { str := [], int := 0, flt := 0, byt := [] } }
  rsp := { status := 0, res := [], rval := .int 0, consumed := 0 }
  busy := false
  freeIdx := 0
  rspKind := .none

end Sys2Proof.Machine
end

