-- ==== Sys2Proof/Machine/Operands.lean ====
section
/-! DEFINITION. The operand forms: the length agreement of a decoded view and of an encoded value
(spec/40_dtype_resolution.md R96, R97), the effective byte order and `Order` (R99), and the
whole-byte check of a byte-wise qualifier (R95). -/

namespace Sys2Proof.Machine

/-- R96, DEC: the view agrees with the explicit length, if any, and with the fixed length of the exotic
floats. -/
def viewAgrees (fam : Family) (len : Option Nat) (v : Bits) : Except ErrorKind Unit :=
  if len ≠ none ∧ len ≠ some v.length then .error .interpret
  else match fam with
    | .bfloat => if v.length ≠ 16 then .error .interpret else .ok ()
    | .e4m3float | .e5m2float => if v.length ≠ 8 then .error .interpret else .ok ()
    | _ => .ok ()

/-- R96, ENC of a string or byte value: the length the value gives agrees with the explicit length, if
any (decision D14). -/
def valueAgrees (len : Option Nat) (n : Nat) : Except ErrorKind Unit :=
  if len ≠ none ∧ len ≠ some n then .error .value else .ok ()

/-- `eff_end(END)` (R99); `h` is `CFG.HOST_ENDIAN`. -/
def effEnd (e : Endian) (h : ByteOrder) : ByteOrder :=
  match e with
  | .bitwise => .big
  | .be => .big
  | .le => .little
  | .ne => h

/-- `Order(V, END)` (R99). -/
def order (e : Endian) (h : ByteOrder) (v : Bits) : Bits :=
  match effEnd e h with
  | .little => byteRev v
  | .big => v

/-- The whole-byte check of a byte-wise qualifier (R95, R99): `END != 0` asks for `n mod 8 = 0`. -/
def wholeBytes (e : Endian) (n : Nat) : Except ErrorKind Unit :=
  if e ≠ .bitwise ∧ n % 8 ≠ 0 then .error .value else .ok ()

end Sys2Proof.Machine
end

