-- ==== Sys2Proof/Machine/Ops.lean ====
section
/-! DEFINITION. The shared operations of every command: writing the response (spec/10_state.md R27, R28,
R37), the error response (spec/60_exceptions.md R280), and the four command shapes DEC, ENC, DECS and PAD
with the order of checks of spec/40_dtype_resolution.md R100. -/

namespace Sys2Proof.Machine

/-- What a command that succeeds answers (R28). -/
inductive Answer where
  /-- DEC, PAD -/
  | value (v : Value)
  /-- ENC -/
  | bits (b : Bits)
  /-- DECS -/
  | stream (v : Value) (consumed : Nat)
deriving DecidableEq, Repr

/-- The error response (R280), which stands for taking an exception: STATUS takes the kind's code; RES,
RVAL and CONSUMED are unspecified, so each takes a free value; CFG and REQ stay; done. There is no
return from it (R281): the next command runs as if this one had never been presented. -/
def State.raise (s : State) (k : ErrorKind) : State :=
  { s with
    rsp := { status := errorCode k, res := Config.freeRes s.freeIdx,
             rval := Config.freeRval s.freeIdx, consumed := Config.freeConsumed s.freeIdx }
    busy := false
    freeIdx := s.freeIdx + 1
    rspKind := .error }

/-- The response of DEC and PAD (R28): RVAL is defined; RES and CONSUMED are unspecified. -/
def State.answerValue (s : State) (v : Value) : State :=
  { s with
    rsp := { status := statusOk, res := Config.freeRes s.freeIdx, rval := v,
             consumed := Config.freeConsumed s.freeIdx }
    busy := false
    freeIdx := s.freeIdx + 1
    rspKind := .value }

/-- The response of ENC (R28, R47): RES, the whole sink, is defined; RVAL and CONSUMED are
unspecified. -/
def State.answerBits (s : State) (b : Bits) : State :=
  { s with
    rsp := { status := statusOk, res := b, rval := Config.freeRval s.freeIdx,
             consumed := Config.freeConsumed s.freeIdx }
    busy := false
    freeIdx := s.freeIdx + 1
    rspKind := .bits }

/-- The response of DECS (R28): RVAL and CONSUMED are defined; RES is unspecified. -/
def State.answerStream (s : State) (v : Value) (n : Nat) : State :=
  { s with
    rsp := { status := statusOk, res := Config.freeRes s.freeIdx, rval := v, consumed := n }
    busy := false
    freeIdx := s.freeIdx + 1
    rspKind := .stream }

/-- The response to the outcome of a command: an error kind or an answer; done (R37, R305). -/
def State.respond (s : State) : Except ErrorKind Answer → State
  | .error k => s.raise k
  | .ok (.value v) => s.answerValue v
  | .ok (.bits b) => s.answerBits b
  | .ok (.stream v n) => s.answerStream v n

/-- What a step answers. -/
abbrev StepOutcome := Host.Outcome State Fault Refusal

/-- DEC (R63, R100): stage 1, the length agreement of R96, then the family's codec on the view. -/
def runDec (fam : Family) (len : Option Nat) (s : State)
    (codec : Bits → Except ErrorKind Value) : StepOutcome :=
  .next (s.respond (do
    resolveLen .dec fam len
    viewAgrees fam len s.req.view
    let v ← codec s.req.view
    .ok (.value v)))

/-- ENC (R63, R100): stage 1, then the family's codec on the value operand. -/
def runEnc (fam : Family) (len : Option Nat) (s : State)
    (codec : Operand → Except ErrorKind Bits) : StepOutcome :=
  .next (s.respond (do
    resolveLen .enc fam len
    let b ← codec s.req.val
    .ok (.bits b)))

/-- DECS (R63, R100): stage 1, then the stream accessor on the view; it answers the value and the bits
consumed. -/
def runDecs (fam : Family) (len : Option Nat) (s : State)
    (codec : Bits → Except ErrorKind (Value × Nat)) : StepOutcome :=
  .next (s.respond (do
    resolveLen .decs fam len
    let r ← codec s.req.view
    .ok (.stream r.1 r.2)))

/-- PAD (R63, R100): stage 1, then the padding conversion of the view, which makes no requirement. -/
def runPad (fam : Family) (len : Option Nat) (s : State) (codec : Bits → Value) : StepOutcome :=
  .next (s.respond (do
    resolveLen .pad fam len
    .ok (.value (codec s.req.view))))

end Sys2Proof.Machine
end

