-- ==== Sys2Proof/Machine/Bfloat.lean ====
section
/-! DEFINITION. The 16-bit truncated float (spec/45_exotic_float.md R190 to R193). -/

namespace Sys2Proof.Machine

/-- The greatest finite magnitude of the 16-bit truncated float, `0x7F7F` (R191, R193). -/
def bfloatMax : Nat := 0x7F7F

/-- DEC.bfloat (R192): the 16 bits are the upper half of a binary32 word. -/
def bfloatValue (h : Nat) : Nat := widen 8 23 (h * 2 ^ 16)

/-- The `rne` branch of R193 on a binary32 word: round the low half away, ties to even; a word that
rounds up into the infinity saturates. -/
def bfloatRne (s p : Nat) : Nat :=
  let h := p / 2 ^ 16
  let low := p % 2 ^ 16
  let h' := if 0x8000 < low ∨ (low = 0x8000 ∧ h % 2 = 1) then h + 1 else h
  if 0x7F80 ≤ h' % 2 ^ 15 then s * 2 ^ 15 + bfloatMax else h'

/-- The 16-bit word of a binary64 word under a rounding policy (R193). It never fails: a finite value
beyond the range saturates. -/
def bfloatWord (r : BfRound) (d : Nat) : Nat :=
  match narrow 8 23 d with
  | none => wordSign 11 52 d * 2 ^ 15 + bfloatMax
  | some p =>
    if classOf 11 52 d = .nan ∨ classOf 11 52 d = .infinite then p / 2 ^ 16
    else match r with
      | .truncate => p / 2 ^ 16
      | .rne => bfloatRne (wordSign 11 52 d) p

/-- DEC.bfloat (R192). -/
def decodeBfloat (e : Endian) (h : ByteOrder) (v : Bits) : Except ErrorKind Value :=
  .ok (fltOf (bfloatValue (mag (order e h v))))

/-- ENC.bfloat (R193); the policy is the parameter `BF_ROUND` (log entry 10). -/
def encodeBfloat (e : Endian) (h : ByteOrder) (d : Flt64) : Except ErrorKind Bits :=
  .ok (order e h (toBits 16 (bfloatWord Config.bfRound d.toNat)))

/-- `DEC.bfloat` (R192). -/
def execDecBfloat (len : Option Nat) (s : State) : StepOutcome :=
  runDec .bfloat len s (decodeBfloat .bitwise s.cfg.hostEndian)

/-- `DEC.bfloatbe` (R192). -/
def execDecBfloatbe (len : Option Nat) (s : State) : StepOutcome :=
  runDec .bfloat len s (decodeBfloat .be s.cfg.hostEndian)

/-- `DEC.bfloatle` (R192). -/
def execDecBfloatle (len : Option Nat) (s : State) : StepOutcome :=
  runDec .bfloat len s (decodeBfloat .le s.cfg.hostEndian)

/-- `DEC.bfloatne` (R192). -/
def execDecBfloatne (len : Option Nat) (s : State) : StepOutcome :=
  runDec .bfloat len s (decodeBfloat .ne s.cfg.hostEndian)

/-- `ENC.bfloat` (R193). -/
def execEncBfloat (len : Option Nat) (s : State) : StepOutcome :=
  runEnc .bfloat len s fun val => encodeBfloat .bitwise s.cfg.hostEndian val.flt

/-- `ENC.bfloatbe` (R193). -/
def execEncBfloatbe (len : Option Nat) (s : State) : StepOutcome :=
  runEnc .bfloat len s fun val => encodeBfloat .be s.cfg.hostEndian val.flt

/-- `ENC.bfloatle` (R193). -/
def execEncBfloatle (len : Option Nat) (s : State) : StepOutcome :=
  runEnc .bfloat len s fun val => encodeBfloat .le s.cfg.hostEndian val.flt

/-- `ENC.bfloatne` (R193). -/
def execEncBfloatne (len : Option Nat) (s : State) : StepOutcome :=
  runEnc .bfloat len s fun val => encodeBfloat .ne s.cfg.hostEndian val.flt

end Sys2Proof.Machine
end

