-- ==== Sys2Proof/Machine/ExpGolomb.lean ====
section
/-! DEFINITION. The exponential-Golomb codes (spec/46_exp_golomb.md R230 to R248): the plain and the
interleaved writer and parser, the sign folding, the exact and the stream accessor. -/

namespace Sys2Proof.Machine

/-- `UeEncode(u)` (R231). -/
def ueEncode (u : Nat) : Bits :=
  zeros (floorLog2Nat (u + 1)) ++ toBits (floorLog2Nat (u + 1) + 1) (u + 1)

/-- The number of zero bits before the first 1; none when there is no 1 (the loop of R232; C5: the 1 is
not counted). -/
def leadingZeros : Bits → Option Nat
  | [] => none
  | true :: _ => some 0
  | false :: v => (leadingZeros v).map (· + 1)

/-- `UeParse(V)` (R232): the value and the length of the code at the front; none is `fail`. -/
def ueParse (v : Bits) : Option (Nat × Nat) :=
  match leadingZeros v with
  | none => none
  | some k =>
    if v.length < 2 * k + 1 then none
    else some (2 ^ k + mag (slice v (k + 1) (2 * k + 1)) - 1, 2 * k + 1)

/-- `Fold(n)` (R233). -/
def foldSign (n : Int) : Nat := if n ≤ 0 then 2 * n.natAbs else (2 * n - 1).toNat

/-- `Unfold(u)` (R233). -/
def unfoldSign (u : Nat) : Int := if u % 2 = 0 then -((u / 2 : Nat) : Int) else ((u + 1) / 2 : Nat)

/-- The (zero, payload bit) pairs of the k low bits of x, most significant first (the loop of R234). -/
def uiePairs : Nat → Nat → Bits
  | 0, _ => []
  | k + 1, x => false :: x.testBit k :: uiePairs k x

/-- `UieEncode(u)` (R234). -/
def uieEncode (u : Nat) : Bits := uiePairs (floorLog2Nat (u + 1)) (u + 1) ++ [true]

/-- The loop of `UieParse` (R235) at position `pos` with the bits read so far in `x`. -/
def uieLoop (x pos : Nat) : Bits → Option (Nat × Nat)
  | [] => none
  | true :: _ => some (x - 1, pos + 1)
  | [false] => none
  | false :: b :: v => uieLoop (2 * x + b.toNat) (pos + 2) v

/-- `UieParse(V)` (R235). -/
def uieParse (v : Bits) : Option (Nat × Nat) := uieLoop 1 0 v

/-- `Exact(P, g, V)`, the accessor of DEC (R236), on the outcome of the parser: the code must be the
whole view. -/
def exactAccess (parse : Bits → Option (Nat × Nat)) (g : Nat → Int) (v : Bits) :
    Except ErrorKind Value :=
  match parse v with
  | none => .error .interpret
  | some (u, len) => if len ≠ v.length then .error .interpret else .ok (.int (g u))

/-- `Stream(P, g, V)`, the accessor of DECS (R236). -/
def streamAccess (parse : Bits → Option (Nat × Nat)) (g : Nat → Int) (v : Bits) :
    Except ErrorKind (Value × Nat) :=
  match parse v with
  | none => .error .interpret
  | some (u, len) => .ok (.int (g u), len)

/-- ENC of an unsigned code (R237, R243): a negative number answers ValueError (D27). -/
def encodeUnsignedCode (write : Nat → Bits) (n : Int) : Except ErrorKind Bits :=
  if n < 0 then .error .value else .ok (write n.toNat)

/-- ENC of a signed code (R240, R246): every integer has a code. -/
def encodeSignedCode (write : Nat → Bits) (n : Int) : Except ErrorKind Bits := .ok (write (foldSign n))

/-- `DEC.ue` (R238). -/
def execDecUe (len : Option Nat) (s : State) : StepOutcome :=
  runDec .ue len s (exactAccess ueParse fun u => u)

/-- `ENC.ue` (R237). -/
def execEncUe (len : Option Nat) (s : State) : StepOutcome :=
  runEnc .ue len s fun val => encodeUnsignedCode ueEncode val.int

/-- `DECS.ue` (R239). -/
def execDecsUe (len : Option Nat) (s : State) : StepOutcome :=
  runDecs .ue len s (streamAccess ueParse fun u => u)

/-- `DEC.se` (R241). -/
def execDecSe (len : Option Nat) (s : State) : StepOutcome :=
  runDec .se len s (exactAccess ueParse unfoldSign)

/-- `ENC.se` (R240). -/
def execEncSe (len : Option Nat) (s : State) : StepOutcome :=
  runEnc .se len s fun val => encodeSignedCode ueEncode val.int

/-- `DECS.se` (R242). -/
def execDecsSe (len : Option Nat) (s : State) : StepOutcome :=
  runDecs .se len s (streamAccess ueParse unfoldSign)

/-- `DEC.uie` (R244). -/
def execDecUie (len : Option Nat) (s : State) : StepOutcome :=
  runDec .uie len s (exactAccess uieParse fun u => u)

/-- `ENC.uie` (R243). -/
def execEncUie (len : Option Nat) (s : State) : StepOutcome :=
  runEnc .uie len s fun val => encodeUnsignedCode uieEncode val.int

/-- `DECS.uie` (R245). -/
def execDecsUie (len : Option Nat) (s : State) : StepOutcome :=
  runDecs .uie len s (streamAccess uieParse fun u => u)

/-- `DEC.sie` (R247). -/
def execDecSie (len : Option Nat) (s : State) : StepOutcome :=
  runDec .sie len s (exactAccess uieParse unfoldSign)

/-- `ENC.sie` (R246). -/
def execEncSie (len : Option Nat) (s : State) : StepOutcome :=
  runEnc .sie len s fun val => encodeSignedCode uieEncode val.int

/-- `DECS.sie` (R248). -/
def execDecsSie (len : Option Nat) (s : State) : StepOutcome :=
  runDecs .sie len s (streamAccess uieParse unfoldSign)

end Sys2Proof.Machine
end

