-- ==== Sys2Proof/Machine/Integers.lean ====
section
/-! DEFINITION. The fixed-width integer codec (spec/42_integers.md R130 to R135, R137): unsigned and
signed, bit-wise and byte-wise. Values are mathematical integers (spec/10_state.md R26). -/

namespace Sys2Proof.Machine

/-- The ordered field of an integer decode (R131, R132, R134): the empty view is refused first (D16),
then a byte-wise qualifier on a length that is no whole number of bytes. -/
def integerField (e : Endian) (h : ByteOrder) (v : Bits) : Except ErrorKind Bits :=
  if v.length = 0 then .error .interpret
  else do
    wholeBytes e v.length
    .ok (order e h v)

/-- The two's-complement reading of a field (R134): the sign bit is bit 0 of the ordered field. -/
def signedMag (w : Bits) : Int :=
  if w.head? = some true then (mag w : Int) - 2 ^ w.length else mag w

/-- DEC.uint (R132). -/
def decodeUint (e : Endian) (h : ByteOrder) (v : Bits) : Except ErrorKind Value := do
  let w ← integerField e h v
  .ok (.int (mag w))

/-- DEC.int (R134). -/
def decodeInt (e : Endian) (h : ByteOrder) (v : Bits) : Except ErrorKind Value := do
  let w ← integerField e h v
  .ok (.int (signedMag w))

/-- The width of an integer or IEEE float encode (R96): the explicit length, present by stage 1. -/
def encodeWidth (len : Option Nat) : Nat := len.getD 0

/-- ENC.uint (R133): whole bytes, then the range `0 .. 2^n - 1`. -/
def encodeUint (e : Endian) (h : ByteOrder) (len : Option Nat) (x : Int) : Except ErrorKind Bits := do
  wholeBytes e (encodeWidth len)
  if x < 0 ∨ x > 2 ^ encodeWidth len - 1 then .error .value
  else .ok (order e h (toBits (encodeWidth len) x.toNat))

/-- ENC.int (R135): whole bytes, then the range `-2^(n-1) .. 2^(n-1) - 1`. -/
def encodeInt (e : Endian) (h : ByteOrder) (len : Option Nat) (x : Int) : Except ErrorKind Bits := do
  wholeBytes e (encodeWidth len)
  if x < -2 ^ (encodeWidth len - 1) ∨ x > 2 ^ (encodeWidth len - 1) - 1 then .error .value
  else if 0 ≤ x then .ok (order e h (toBits (encodeWidth len) x.toNat))
  else .ok (order e h (toBits (encodeWidth len) (x + 2 ^ encodeWidth len).toNat))

/-- `DEC.uint` (R132). -/
def execDecUint (len : Option Nat) (s : State) : StepOutcome :=
  runDec .uint len s (decodeUint .bitwise s.cfg.hostEndian)

/-- `DEC.uintbe` (R132). -/
def execDecUintbe (len : Option Nat) (s : State) : StepOutcome :=
  runDec .uint len s (decodeUint .be s.cfg.hostEndian)

/-- `DEC.uintle` (R132). -/
def execDecUintle (len : Option Nat) (s : State) : StepOutcome :=
  runDec .uint len s (decodeUint .le s.cfg.hostEndian)

/-- `DEC.uintne` (R132). -/
def execDecUintne (len : Option Nat) (s : State) : StepOutcome :=
  runDec .uint len s (decodeUint .ne s.cfg.hostEndian)

/-- `ENC.uint` (R133). -/
def execEncUint (len : Option Nat) (s : State) : StepOutcome :=
  runEnc .uint len s fun val => encodeUint .bitwise s.cfg.hostEndian len val.int

/-- `ENC.uintbe` (R133). -/
def execEncUintbe (len : Option Nat) (s : State) : StepOutcome :=
  runEnc .uint len s fun val => encodeUint .be s.cfg.hostEndian len val.int

/-- `ENC.uintle` (R133). -/
def execEncUintle (len : Option Nat) (s : State) : StepOutcome :=
  runEnc .uint len s fun val => encodeUint .le s.cfg.hostEndian len val.int

/-- `ENC.uintne` (R133). -/
def execEncUintne (len : Option Nat) (s : State) : StepOutcome :=
  runEnc .uint len s fun val => encodeUint .ne s.cfg.hostEndian len val.int

/-- `DEC.int` (R134). -/
def execDecInt (len : Option Nat) (s : State) : StepOutcome :=
  runDec .int len s (decodeInt .bitwise s.cfg.hostEndian)

/-- `DEC.intbe` (R134). -/
def execDecIntbe (len : Option Nat) (s : State) : StepOutcome :=
  runDec .int len s (decodeInt .be s.cfg.hostEndian)

/-- `DEC.intle` (R134). -/
def execDecIntle (len : Option Nat) (s : State) : StepOutcome :=
  runDec .int len s (decodeInt .le s.cfg.hostEndian)

/-- `DEC.intne` (R134). -/
def execDecIntne (len : Option Nat) (s : State) : StepOutcome :=
  runDec .int len s (decodeInt .ne s.cfg.hostEndian)

/-- `ENC.int` (R135). -/
def execEncInt (len : Option Nat) (s : State) : StepOutcome :=
  runEnc .int len s fun val => encodeInt .bitwise s.cfg.hostEndian len val.int

/-- `ENC.intbe` (R135). -/
def execEncIntbe (len : Option Nat) (s : State) : StepOutcome :=
  runEnc .int len s fun val => encodeInt .be s.cfg.hostEndian len val.int

/-- `ENC.intle` (R135). -/
def execEncIntle (len : Option Nat) (s : State) : StepOutcome :=
  runEnc .int len s fun val => encodeInt .le s.cfg.hostEndian len val.int

/-- `ENC.intne` (R135). -/
def execEncIntne (len : Option Nat) (s : State) : StepOutcome :=
  runEnc .int len s fun val => encodeInt .ne s.cfg.hostEndian len val.int

end Sys2Proof.Machine
end

