-- ==== Sys2Proof/Machine/IeeeFloat.lean ====
section
/-! DEFINITION. The IEEE-754 binary16/32/64 codec (spec/43_ieee_float.md R157, R158). -/

namespace Sys2Proof.Machine

/-- The binary64 word of a decoded n-bit word p, n in 16, 32, 64 (R157). -/
def floatValue (n p : Nat) : Nat :=
  if n = 64 then p
  else if n = 32 then widen 8 23 p
  else widen 5 10 p

/-- The n-bit word of a binary64 word, n in 16, 32, 64 (R158); `none` is `overflow`. -/
def floatWord (n d : Nat) : Option Nat :=
  if n = 64 then some d
  else if n = 32 then narrow 8 23 d
  else narrow 5 10 d

/-- DEC.float (R157). -/
def decodeFloat (e : Endian) (h : ByteOrder) (v : Bits) : Except ErrorKind Value :=
  if v.length = 16 ∨ v.length = 32 ∨ v.length = 64 then
    .ok (fltOf (floatValue v.length (mag (order e h v))))
  else .error .interpret

/-- ENC.float (R158): a finite value that would round to beyond the greatest finite value answers
ValueError. -/
def encodeFloat (e : Endian) (h : ByteOrder) (len : Option Nat) (d : Flt64) : Except ErrorKind Bits :=
  match floatWord (encodeWidth len) d.toNat with
  | none => .error .value
  | some p => .ok (order e h (toBits (encodeWidth len) p))

/-- `DEC.float` (R157). -/
def execDecFloat (len : Option Nat) (s : State) : StepOutcome :=
  runDec .float len s (decodeFloat .bitwise s.cfg.hostEndian)

/-- `DEC.floatbe` (R157). -/
def execDecFloatbe (len : Option Nat) (s : State) : StepOutcome :=
  runDec .float len s (decodeFloat .be s.cfg.hostEndian)

/-- `DEC.floatle` (R157). -/
def execDecFloatle (len : Option Nat) (s : State) : StepOutcome :=
  runDec .float len s (decodeFloat .le s.cfg.hostEndian)

/-- `DEC.floatne` (R157). -/
def execDecFloatne (len : Option Nat) (s : State) : StepOutcome :=
  runDec .float len s (decodeFloat .ne s.cfg.hostEndian)

/-- `ENC.float` (R158). -/
def execEncFloat (len : Option Nat) (s : State) : StepOutcome :=
  runEnc .float len s fun val => encodeFloat .bitwise s.cfg.hostEndian len val.flt

/-- `ENC.floatbe` (R158). -/
def execEncFloatbe (len : Option Nat) (s : State) : StepOutcome :=
  runEnc .float len s fun val => encodeFloat .be s.cfg.hostEndian len val.flt

/-- `ENC.floatle` (R158). -/
def execEncFloatle (len : Option Nat) (s : State) : StepOutcome :=
  runEnc .float len s fun val => encodeFloat .le s.cfg.hostEndian len val.flt

/-- `ENC.floatne` (R158). -/
def execEncFloatne (len : Option Nat) (s : State) : StepOutcome :=
  runEnc .float len s fun val => encodeFloat .ne s.cfg.hostEndian len val.flt

end Sys2Proof.Machine
end

