-- ==== Sys2Proof/Machine/Minifloat.lean ====
section
/-! DEFINITION. The two 8-bit formats (spec/45_exotic_float.md R205 to R213): the format record's laws,
the two instantiations of decision D22, the lattice of codes, decode and encode. -/

namespace Sys2Proof.Machine

/-- `special(c)` (R205). -/
def specialOf (F : MiniFormat) (c : Byte) : Option Special := F.special.lookup c

/-- The code of a sign and a magnitude code g of 7 bits: `(s << 7) | g` (R205). -/
def miniCode (s g : Nat) : Byte := BitVec.ofNat 8 (s * 2 ^ 7 + g)

/-- `MiniAbs(F, c)` for the magnitude code `g = c[6:0]` (R207). -/
def miniAbs (F : MiniFormat) (g : Nat) : Ratio :=
  if g / 2 ^ F.manBits = 0 then scaled (g % 2 ^ F.manBits) (1 - F.bias - F.manBits)
  else scaled (2 ^ F.manBits + g % 2 ^ F.manBits) ((g / 2 ^ F.manBits : Nat) - F.bias - F.manBits)

/-- The greatest magnitude code at most g whose positive code is ordinary. -/
def greatestOrdinary (F : MiniFormat) : Nat → Nat
  | 0 => 0
  | g + 1 => if specialOf F (miniCode 0 (g + 1)) = none then g + 1 else greatestOrdinary F g

/-- `MAXC(F)` (R207). -/
def maxCode (F : MiniFormat) : Nat := greatestOrdinary F 127

/-- `MAXV(F)` (R207). -/
def maxValue (F : MiniFormat) : Ratio := miniAbs F (maxCode F)

/-- The laws of R205 on a format of E exponent and M mantissa bits: code `0x00` is ordinary, `nan_enc` is
a NaN code, the ordinary codes are contiguous for both signs but that `0x80` may be special. Then two laws
that other rules rest on (DEDUCED, log entry 11): no code of either sign above `MAXC` is ordinary, so that
`MAXV` is the greatest finite magnitude (R207) and every ordinary code encodes back to itself (R214); and
every exponent of the lattice is one of binary64 (R208). -/
def miniLaw (E M : Nat) (F : MiniFormat) : Bool :=
  F.expBits == E && F.manBits == M &&
  specialOf F 0x00 == none && specialOf F F.nanEnc == some .nan &&
  (List.range (maxCode F + 1)).all (fun g =>
    specialOf F (miniCode 0 g) == none && (g == 0 || specialOf F (miniCode 1 g) == none)) &&
  (List.range 128).all (fun g => decide (g ≤ maxCode F) || specialOf F (miniCode 1 g) != none) &&
  decide (-1074 ≤ 1 - F.bias - M) && decide (2 ^ E - 1 - F.bias ≤ 1023)

/-- The further law of format A (R205): no infinity representation. -/
def noInfinity (F : MiniFormat) : Bool := F.special.all fun x => x.2 == .nan

/-- The default `FMT_A` (R206, D22). -/
def defaultA : MiniFormat :=
  { expBits := 4, manBits := 3, bias := 8, special := [(0x80, .nan)], nanEnc := 0x80 }

/-- The default `FMT_B` (R206, D22). -/
def defaultB : MiniFormat :=
  { expBits := 5, manBits := 2, bias := 16, special := [(0x80, .nan)], nanEnc := 0x80 }

/-- The alternative `FMT_A` (note to D22). -/
def alternativeA : MiniFormat :=
  { expBits := 4, manBits := 3, bias := 7, special := [(0x7F, .nan), (0xFF, .nan)], nanEnc := 0x7F }

/-- The alternative `FMT_B` (note to D22). -/
def alternativeB : MiniFormat :=
  { expBits := 5, manBits := 2, bias := 15
    special := [(0x7C, .posInf), (0xFC, .negInf), (0x7D, .nan), (0x7E, .nan), (0x7F, .nan),
      (0xFD, .nan), (0xFE, .nan), (0xFF, .nan)]
    nanEnc := 0x7E }

/-- `FMT_A` (R8, R205): any lawful format of 1/4/3. Where the bodyless parameter breaks the laws the
default stands in, so every lawful record and no other is an outcome (log entry 11). -/
def fmtA : MiniFormat :=
  if miniLaw 4 3 Config.fmtAParam && noInfinity Config.fmtAParam then Config.fmtAParam else defaultA

/-- `FMT_B` (R8, R205): any lawful format of 1/5/2, as for `fmtA` (log entry 11). -/
def fmtB : MiniFormat := if miniLaw 5 2 Config.fmtBParam then Config.fmtBParam else defaultB

/-- The one NaN a NaN code decodes to (R208, D24). -/
def canonicalNan : Nat := 0x7FF8000000000000

/-- `MiniDecode(F, c)` (R208). -/
def miniDecode (F : MiniFormat) (c : Byte) : Nat :=
  match specialOf F c with
  | some .nan => canonicalNan
  | some .posInf => infinityWord 11 52 0
  | some .negInf => infinityWord 11 52 1
  | none => exactDouble (c.toNat / 2 ^ 7) (miniAbs F (c.toNat % 2 ^ 7))

/-- The greatest magnitude code at most g whose value is at most a (R209, `lo`). -/
def codeBelow (F : MiniFormat) (a : Ratio) : Nat → Nat
  | 0 => 0
  | g + 1 => if ratioLe (miniAbs F (g + 1)) a then g + 1 else codeBelow F a g

/-- The magnitude code nearest to a, ties to the even code, for `a < MAXV(F)` (R209). -/
def nearestCode (F : MiniFormat) (a : Ratio) : Nat :=
  let lo := codeBelow F a (maxCode F)
  let hi := lo + 1
  let below := ratioSub a (miniAbs F lo)
  let above := ratioSub (miniAbs F hi) a
  if ratioLt below above then lo
  else if ratioLt above below then hi
  else if lo % 2 = 0 then lo else hi

/-- The magnitude code of a binary64 word that is no NaN (R209): a magnitude at or above `MAXV(F)` and
an infinity saturate. -/
def miniMagnitude (F : MiniFormat) (d : Nat) : Nat :=
  if classOf 11 52 d = .infinite ∨ ratioLe (maxValue F) (absOf 11 52 d) = true then maxCode F
  else nearestCode F (absOf 11 52 d)

/-- `MiniEncode(F, d)` (R209). -/
def miniEncode (F : MiniFormat) (d : Nat) : Byte :=
  if classOf 11 52 d = .nan then F.nanEnc
  else
    let g := miniMagnitude F d
    let c := miniCode (wordSign 11 52 d) g
    if specialOf F c = none then c else miniCode 0 g

/-- DEC of an 8-bit format (R210, R212). -/
def decodeMini (F : MiniFormat) (v : Bits) : Except ErrorKind Value :=
  .ok (fltOf (miniDecode F (BitVec.ofNat 8 (mag v))))

/-- ENC of an 8-bit format (R211, R213): it never fails. -/
def encodeMini (F : MiniFormat) (d : Flt64) : Except ErrorKind Bits :=
  .ok (toBits 8 (miniEncode F d.toNat).toNat)

/-- `DEC.e4m3float` (R210). -/
def execDecE4m3float (len : Option Nat) (s : State) : StepOutcome :=
  runDec .e4m3float len s (decodeMini fmtA)

/-- `ENC.e4m3float` (R211). -/
def execEncE4m3float (len : Option Nat) (s : State) : StepOutcome :=
  runEnc .e4m3float len s fun val => encodeMini fmtA val.flt

/-- `DEC.e5m2float` (R212). -/
def execDecE5m2float (len : Option Nat) (s : State) : StepOutcome :=
  runDec .e5m2float len s (decodeMini fmtB)

/-- `ENC.e5m2float` (R213). -/
def execEncE5m2float (len : Option Nat) (s : State) : StepOutcome :=
  runEnc .e5m2float len s fun val => encodeMini fmtB val.flt

end Sys2Proof.Machine
end

