-- ==== Sys2Proof/Machine/RawBytes.lean ====
section
/-! DEFINITION. Raw bytes extraction and the padded bytes conversion (spec/44_bytes.md R180 to R182). -/

namespace Sys2Proof.Machine

/-- DEC.bytes (R180): strict, never pads. -/
def decodeBytes (v : Bits) : Except ErrorKind Value :=
  if v.length % 8 ≠ 0 then .error .value else .ok (.byt (bytesOf v))

/-- ENC.bytes (R181). -/
def encodeBytes (len : Option Nat) (b : List Byte) : Except ErrorKind Bits := do
  valueAgrees len (8 * b.length)
  .ok (b.map fun x => toBits 8 x.toNat).flatten

/-- The number of zero bits PAD adds, 0 to 7 (R182). -/
def padCount (n : Nat) : Nat := (8 - n % 8) % 8

/-- PAD.bytes (R182): zeros at the end, up to the next byte boundary, then the same extraction. -/
def padBytes (v : Bits) : Value := .byt (bytesOf (v ++ zeros (padCount v.length)))

/-- `DEC.bytes` (R180). -/
def execDecBytes (len : Option Nat) (s : State) : StepOutcome :=
  runDec .bytes len s decodeBytes

/-- `ENC.bytes` (R181). -/
def execEncBytes (len : Option Nat) (s : State) : StepOutcome :=
  runEnc .bytes len s fun val => encodeBytes len val.byt

/-- `PAD.bytes` (R182). -/
def execPadBytes (len : Option Nat) (s : State) : StepOutcome :=
  runPad .bytes len s padBytes

end Sys2Proof.Machine
end

