-- ==== Sys2Proof/Machine/Strings.lean ====
section
/-! DEFINITION. The binary, hex and octal string converters (spec/41_strings.md R110 to R117). -/

namespace Sys2Proof.Machine

/-- `Digit(v)` for `0 <= v <= 15` (R111): ASCII, lower-case letters. -/
def digit (v : Nat) : Byte :=
  if v ≤ 9 then BitVec.ofNat 8 (0x30 + v) else BitVec.ofNat 8 (0x61 + (v - 10))

/-- `Val2(c)` (R111). -/
def val2 (c : Byte) : Option Nat :=
  if 0x30 ≤ c.toNat ∧ c.toNat ≤ 0x31 then some (c.toNat - 0x30) else none

/-- `Val8(c)` (R111). -/
def val8 (c : Byte) : Option Nat :=
  if 0x30 ≤ c.toNat ∧ c.toNat ≤ 0x37 then some (c.toNat - 0x30) else none

/-- `Val16(c)` (R111): both cases are accepted. -/
def val16 (c : Byte) : Option Nat :=
  if 0x30 ≤ c.toNat ∧ c.toNat ≤ 0x39 then some (c.toNat - 0x30)
  else if 0x61 ≤ c.toNat ∧ c.toNat ≤ 0x66 then some (c.toNat - 0x61 + 10)
  else if 0x41 ≤ c.toNat ∧ c.toNat ≤ 0x46 then some (c.toNat - 0x41 + 10)
  else none

/-- The digits of a sequence in groups of w bits: `S[j] = Digit(Mag(V.slice(w*j, w*j + w)))` (R114,
R116). -/
def digitString (w : Nat) (v : Bits) : Str := (groups w v).map fun g => digit (mag g)

/-- The values of all the characters; none when one is no digit (R113, R115, R117). -/
def digitValues (val : Byte → Option Nat) : Str → Option (List Nat)
  | [] => some []
  | c :: s =>
    match val c, digitValues val s with
    | some x, some xs => some (x :: xs)
    | _, _ => none

/-- A string encoder of w bits a digit (R115, R117): the bad digit first, then the length (D14). -/
def encodeDigits (w : Nat) (val : Byte → Option Nat) (len : Option Nat) (s : Str) :
    Except ErrorKind Bits :=
  match digitValues val s with
  | none => .error .value
  | some xs => do
    valueAgrees len (w * s.length)
    .ok (xs.map (toBits w)).flatten

/-- DEC.bin (R112). -/
def decodeBin (v : Bits) : Except ErrorKind Value :=
  .ok (.str (v.map fun b => digit b.toNat))

/-- ENC.bin (R113). -/
def encodeBin (len : Option Nat) (s : Str) : Except ErrorKind Bits :=
  encodeDigits 1 val2 len s

/-- DEC.hex (R114). -/
def decodeHex (v : Bits) : Except ErrorKind Value :=
  if v.length % 4 ≠ 0 then .error .interpret else .ok (.str (digitString 4 v))

/-- ENC.hex (R115). -/
def encodeHex (len : Option Nat) (s : Str) : Except ErrorKind Bits :=
  encodeDigits 4 val16 len s

/-- DEC.oct (R116). -/
def decodeOct (v : Bits) : Except ErrorKind Value :=
  if v.length % 3 ≠ 0 then .error .interpret else .ok (.str (digitString 3 v))

/-- ENC.oct (R117). -/
def encodeOct (len : Option Nat) (s : Str) : Except ErrorKind Bits :=
  encodeDigits 3 val8 len s

/-- `DEC.bin` (R112). -/
def execDecBin (len : Option Nat) (s : State) : StepOutcome :=
  runDec .bin len s decodeBin

/-- `ENC.bin` (R113). -/
def execEncBin (len : Option Nat) (s : State) : StepOutcome :=
  runEnc .bin len s fun val => encodeBin len val.str

/-- `DEC.hex` (R114). -/
def execDecHex (len : Option Nat) (s : State) : StepOutcome :=
  runDec .hex len s decodeHex

/-- `ENC.hex` (R115). -/
def execEncHex (len : Option Nat) (s : State) : StepOutcome :=
  runEnc .hex len s fun val => encodeHex len val.str

/-- `DEC.oct` (R116). -/
def execDecOct (len : Option Nat) (s : State) : StepOutcome :=
  runDec .oct len s decodeOct

/-- `ENC.oct` (R117). -/
def execEncOct (len : Option Nat) (s : State) : StepOutcome :=
  runEnc .oct len s fun val => encodeOct len val.str

end Sys2Proof.Machine
end

