-- ==== Sys2Proof/Machine/Dispatch.lean ====
section
/-! DEFINITION. The dispatch: one arm for each constructor of `Instr`, each one call of that
instruction's meaning. -/

namespace Sys2Proof.Machine

def exec (i : Instr) (s : State) : Host.Outcome State Fault Refusal :=
  match i with
  | .decBin len => Sys2Proof.Machine.execDecBin len s
  | .encBin len => Sys2Proof.Machine.execEncBin len s
  | .decHex len => Sys2Proof.Machine.execDecHex len s
  | .encHex len => Sys2Proof.Machine.execEncHex len s
  | .decOct len => Sys2Proof.Machine.execDecOct len s
  | .encOct len => Sys2Proof.Machine.execEncOct len s
  | .decUint len => Sys2Proof.Machine.execDecUint len s
  | .decUintbe len => Sys2Proof.Machine.execDecUintbe len s
  | .decUintle len => Sys2Proof.Machine.execDecUintle len s
  | .decUintne len => Sys2Proof.Machine.execDecUintne len s
  | .encUint len => Sys2Proof.Machine.execEncUint len s
  | .encUintbe len => Sys2Proof.Machine.execEncUintbe len s
  | .encUintle len => Sys2Proof.Machine.execEncUintle len s
  | .encUintne len => Sys2Proof.Machine.execEncUintne len s
  | .decInt len => Sys2Proof.Machine.execDecInt len s
  | .decIntbe len => Sys2Proof.Machine.execDecIntbe len s
  | .decIntle len => Sys2Proof.Machine.execDecIntle len s
  | .decIntne len => Sys2Proof.Machine.execDecIntne len s
  | .encInt len => Sys2Proof.Machine.execEncInt len s
  | .encIntbe len => Sys2Proof.Machine.execEncIntbe len s
  | .encIntle len => Sys2Proof.Machine.execEncIntle len s
  | .encIntne len => Sys2Proof.Machine.execEncIntne len s
  | .decFloat len => Sys2Proof.Machine.execDecFloat len s
  | .decFloatbe len => Sys2Proof.Machine.execDecFloatbe len s
  | .decFloatle len => Sys2Proof.Machine.execDecFloatle len s
  | .decFloatne len => Sys2Proof.Machine.execDecFloatne len s
  | .encFloat len => Sys2Proof.Machine.execEncFloat len s
  | .encFloatbe len => Sys2Proof.Machine.execEncFloatbe len s
  | .encFloatle len => Sys2Proof.Machine.execEncFloatle len s
  | .encFloatne len => Sys2Proof.Machine.execEncFloatne len s
  | .decBfloat len => Sys2Proof.Machine.execDecBfloat len s
  | .decBfloatbe len => Sys2Proof.Machine.execDecBfloatbe len s
  | .decBfloatle len => Sys2Proof.Machine.execDecBfloatle len s
  | .decBfloatne len => Sys2Proof.Machine.execDecBfloatne len s
  | .encBfloat len => Sys2Proof.Machine.execEncBfloat len s
  | .encBfloatbe len => Sys2Proof.Machine.execEncBfloatbe len s
  | .encBfloatle len => Sys2Proof.Machine.execEncBfloatle len s
  | .encBfloatne len => Sys2Proof.Machine.execEncBfloatne len s
  | .decE4m3float len => Sys2Proof.Machine.execDecE4m3float len s
  | .encE4m3float len => Sys2Proof.Machine.execEncE4m3float len s
  | .decE5m2float len => Sys2Proof.Machine.execDecE5m2float len s
  | .encE5m2float len => Sys2Proof.Machine.execEncE5m2float len s
  | .decBytes len => Sys2Proof.Machine.execDecBytes len s
  | .encBytes len => Sys2Proof.Machine.execEncBytes len s
  | .padBytes len => Sys2Proof.Machine.execPadBytes len s
  | .decUe len => Sys2Proof.Machine.execDecUe len s
  | .encUe len => Sys2Proof.Machine.execEncUe len s
  | .decsUe len => Sys2Proof.Machine.execDecsUe len s
  | .decSe len => Sys2Proof.Machine.execDecSe len s
  | .encSe len => Sys2Proof.Machine.execEncSe len s
  | .decsSe len => Sys2Proof.Machine.execDecsSe len s
  | .decUie len => Sys2Proof.Machine.execDecUie len s
  | .encUie len => Sys2Proof.Machine.execEncUie len s
  | .decsUie len => Sys2Proof.Machine.execDecsUie len s
  | .decSie len => Sys2Proof.Machine.execDecSie len s
  | .encSie len => Sys2Proof.Machine.execEncSie len s
  | .decsSie len => Sys2Proof.Machine.execDecsSie len s

end Sys2Proof.Machine
end

