-- ==== Sys2Proof/Machine/Step.lean ====
section
/-! DEFINITION. One step of BSC (spec/70_reset_and_hazards.md R305; spec/30_encoding.md R70): with a command
presented, decode `REQ.CMD` and execute it, or answer the status of an illegal word; with none, nothing
happens (spec/10_state.md R35). -/

namespace Sys2Proof.Machine

/-- One step: a whole command, from start to done (R37, R305). -/
def step (s : State) : Host.Outcome State Fault Refusal :=
  if s.busy then
    match decode s.req.cmd with
    | .ok i => exec i s
    | .error r => .next (s.raise (rejectKind r))
  else .next s

/-- The host presents the command word w of nbits bits (the bits above are 0) and starts it, changing
neither the view nor the value operand: the very next step runs it. On a state that is already busy it
replaces the command that has not been executed yet; that is no act of the host, whose start is refused
there (`present`; R307, U5), but the model's way to place a word in any state (DESIGN CHOICE, log
entry 1). -/
def State.withFetchWord (s : State) (nbits w : Nat) : State :=
  { s with req := { s.req with cmd := BitVec.ofNat 64 (w % 2 ^ nbits) }, busy := true }

end Sys2Proof.Machine
end

