-- ==== Sys2Proof/Machine/HostPort.lean ====
section
/-! DEFINITION. The acts of the host at BSC's port (spec/70_reset_and_hazards.md R300, R305 to R308;
spec/93_implementation_defined.md U3, U5): presenting a request, changing it, reading a response, the reset
line. They are no steps of BSC. -/

namespace Sys2Proof.Machine

/-- *start* (R305): the host presents a complete request; refused while busy (R307, U5). -/
def present (r : Request) (s : State) : Except Refusal State :=
  if s.busy then .error .startWhileBusy else .ok { s with req := r, busy := true }

/-- The host changes `REQ` without starting a command: free when no command is in progress, refused
between *start* and *done* (R306, U5). -/
def changeRequest (r : Request) (s : State) : Except Refusal State :=
  if s.busy then .error .requestChangedWhileBusy else .ok { s with req := r }

/-- The reset line (R300): one kind of reset, from any state to the reset state; a presented command is
abandoned. -/
def resetLine (_ : State) : State := State.reset

/-- A read of the response is timely after *done* of the first command (R35, R308). That STATUS is read
first (R308) is left to the host: a defined field read before STATUS answers its value, since R308 names
no consequence (DESIGN CHOICE, log entry 14). -/
def readTimely (s : State) : Except Fault Unit :=
  if s.busy then .error .readBeforeDone
  else if s.rspKind = .none then .error .readBeforeFirst
  else .ok ()

/-- The host reads `RSP.STATUS` (R308). -/
def readStatus (s : State) : Except Fault (BitVec 8) := do
  readTimely s
  .ok s.rsp.status

/-- The host reads `RSP.RES`, defined after an ENC that succeeded (R28, R308). -/
def readRes (s : State) : Except Fault Bits := do
  readTimely s
  if s.rspKind = .bits then .ok s.rsp.res else .error .readUnspecified

/-- The host reads `RSP.RVAL`, defined after a DEC, DECS or PAD that succeeded (R28, R308). -/
def readRval (s : State) : Except Fault Value := do
  readTimely s
  if s.rspKind = .value ∨ s.rspKind = .stream then .ok s.rsp.rval else .error .readUnspecified

/-- The host reads `RSP.CONSUMED`, defined after a DECS that succeeded (R28, R308). -/
def readConsumed (s : State) : Except Fault Nat := do
  readTimely s
  if s.rspKind = .stream then .ok s.rsp.consumed else .error .readUnspecified

end Sys2Proof.Machine
end

