-- ==== Sys2Proof/Machine/Token.lean ====
section
/-! DEFINITION. The token grammar (spec/30_encoding.md R75 to R79): software that runs before a command
exists. `parseToken` is R77's algorithm, `tokenCommand` packs a parse into a command word (R78). -/

namespace Sys2Proof.Machine

/-- The 8-bit codes of characters (R110: ASCII). -/
def ascii (s : List Char) : Str := s.map fun c => BitVec.ofNat 8 c.toNat

/-- The twenty family spellings (R76). -/
def spellings : List (Str × Family) :=
  [ (ascii ['b', 'i', 'n'], .bin), (ascii ['b'], .bin),
    (ascii ['h', 'e', 'x'], .hex), (ascii ['h'], .hex),
    (ascii ['o', 'c', 't'], .oct), (ascii ['o'], .oct),
    (ascii ['u', 'i', 'n', 't'], .uint), (ascii ['u'], .uint),
    (ascii ['i', 'n', 't'], .int), (ascii ['i'], .int),
    (ascii ['f', 'l', 'o', 'a', 't'], .float), (ascii ['f'], .float),
    (ascii ['b', 'y', 't', 'e', 's'], .bytes),
    (ascii ['b', 'f', 'l', 'o', 'a', 't'], .bfloat),
    (ascii ['e', '4', 'm', '3', 'f', 'l', 'o', 'a', 't'], .e4m3float),
    (ascii ['e', '5', 'm', '2', 'f', 'l', 'o', 'a', 't'], .e5m2float),
    (ascii ['u', 'e'], .ue), (ascii ['s', 'e'], .se),
    (ascii ['u', 'i', 'e'], .uie), (ascii ['s', 'i', 'e'], .sie) ]

/-- The rest of t after p, when t starts with p. -/
def dropFront (p t : Str) : Option Str :=
  if p.isPrefixOf t then some (t.drop p.length) else none

/-- The longest of the spellings that t starts with, with its family (R77). -/
def longestSpelling (t : Str) : Option (Str × Family) :=
  spellings.foldl (fun best sp =>
    if sp.1.isPrefixOf t then
      match best with
      | none => some sp
      | some b => if b.1.length < sp.1.length then some sp else best
    else best) none

/-- The endianness suffix at the front of r, if any, and the rest (R77). -/
def endSuffix (r : Str) : Option Endian × Str :=
  match dropFront (ascii ['b', 'e']) r, dropFront (ascii ['l', 'e']) r,
      dropFront (ascii ['n', 'e']) r with
  | some r', _, _ => (some .be, r')
  | none, some r', _ => (some .le, r')
  | none, none, some r' => (some .ne, r')
  | none, none, none => (none, r)

/-- Whether a character is one of `'0'..'9'` (R77). -/
def isDigitChar (c : Byte) : Bool := decide (0x30 ≤ c.toNat ∧ c.toNat ≤ 0x39)

/-- The decimal value of a string of digits (R77): leading zeros do not change it. -/
def decimalValue (r : Str) : Nat := r.foldl (fun a c => 10 * a + (c.toNat - 0x30)) 0

/-- What a token names (R77): family, suffix (none is bit-wise), explicit length. -/
structure ParsedToken where
  fam    : Family
  endian : Endian
  len    : Option Nat
deriving DecidableEq, Repr

/-- `parse(token)` (R77, R79): any failure is a TokenSyntaxError. -/
def parseToken (t : Str) : Except ErrorKind ParsedToken :=
  match longestSpelling t with
  | none => .error .tokenSyntax
  | some (name, fam) =>
    let se := endSuffix (t.drop name.length)
    if se.2.all isDigitChar = false then .error .tokenSyntax
    else if se.1 ≠ none ∧ takesEndian fam = false then .error .tokenSyntax
    else .ok { fam := fam, endian := se.1.getD .bitwise
               len := if se.2 = [] then none else some (decimalValue se.2) }

/-- From a parse to a command word (R78): a length of 2^32 or more cannot be packed and answers
InvalidLength; then `resolve` (R93). The pair (operation, family) is not the assembler's to judge
(R70, step 4). -/
def tokenCommand (op : Op) (p : ParsedToken) : Except ErrorKind CmdWord :=
  if lenFits p.len = false then .error .invalidLength
  else do
    resolveLen op p.fam p.len
    .ok (BitVec.ofNat 64 (packFields op p.fam p.endian p.len))

/-- `parse` followed by the packing of R78: BS's `resolve_token` with its operation. -/
def assembleToken (op : Op) (t : Str) : Except ErrorKind CmdWord := do
  let p ← parseToken t
  tokenCommand op p

end Sys2Proof.Machine
end

