-- ==== Sys2Proof/Machine/Assembler.lean ====
section
/-! DEFINITION. The assembler lines of spec/30_encoding.md R80 and the pseudo-instructions of R81:
software that runs before a command exists. A line is read to its syntax (`none` when it is no line of
R80; log entry 17), then turned into a request. -/

namespace Sys2Proof.Machine

/-- An operand of a line (R80): a literal of one of the carriers, or a host variable by its name. -/
inductive AsmOperand where
  | bits (b : Bits)
  | val (v : Value)
  | var (name : Str)
deriving DecidableEq, Repr

/-- A line of R80, or the pseudo-instruction `read` of R81 (c); `tobytes` is already the `pad bytes` it
stands for (R81 (b)). -/
inductive AsmLine where
  | command (op : Op) (token : Str) (x : AsmOperand)
  | read (token : Str) (cursor : Str)
deriving DecidableEq, Repr

/-- A space. -/
def isSpaceChar (c : Byte) : Bool := c == 0x20

/-- A line without the spaces at its front. -/
def skipSpaces (t : Str) : Str := t.dropWhile isSpaceChar

/-- A line without the spaces at its end. -/
def trimEnd (t : Str) : Str := (skipSpaces t.reverse).reverse

/-- What may stand after an operand: nothing, or a comment from `;` on (R80). -/
def isLineEnd (t : Str) : Bool :=
  match skipSpaces t with
  | [] => true
  | c :: _ => c == 0x3B

/-- The text up to a character, and the text after it; none when it does not occur. -/
def splitAtChar (stop : Byte) : Str → Option (Str × Str)
  | [] => none
  | c :: t => if c = stop then some ([], t) else (splitAtChar stop t).map fun r => (c :: r.1, r.2)

/-- The bits of hex digits, four a digit, first digit first (R80). R80 shows forms with digits only; that
`0x` without a digit is the empty bit sequence is the model's choice (DESIGN CHOICE, log entry 17). -/
def hexBits (t : Str) : Option Bits := (digitValues val16 t).map fun xs => (xs.map (toBits 4)).flatten

/-- A binary64 pattern of sixteen hex digits (R80, `f64:0x...`). -/
def hexDouble (t : Str) : Option AsmOperand :=
  if t.length = 16 then
    (hexBits t).map fun b => .val (.flt (BitVec.ofNat 64 (mag b)))
  else none

/-- The bytes of pairs of hex digits with single spaces between (R80, `bytes:00 00 01`). R80 shows forms
with digits only; that `bytes:` without a digit is the empty byte sequence is the model's choice (DESIGN
CHOICE, log entry 17). -/
def hexByteList : Str → Option (List Byte)
  | [] => some []
  | [a, b] =>
    match val16 a, val16 b with
    | some x, some y => some [BitVec.ofNat 8 (16 * x + y)]
    | _, _ => none
  | a :: b :: c :: t =>
    match val16 a, val16 b, isSpaceChar c, hexByteList t with
    | some x, some y, true, some (z :: zs) => some (BitVec.ofNat 8 (16 * x + y) :: z :: zs)
    | _, _, _, _ => none
  | _ => none

/-- An optional minus sign at the front of a number. -/
def takeSign (t : Str) : Bool × Str :=
  match dropFront (ascii ['-']) t with
  | some r => (true, r)
  | none => (false, t)

/-- A non-empty string of digits as a number. -/
def digitsValue (t : Str) : Option Nat :=
  if t ≠ [] ∧ t.all isDigitChar = true then some (decimalValue t) else none

/-- An integer literal (R80). -/
def integerLiteral (t : Str) : Option Int :=
  match takeSign t with
  | (true, r) => (digitsValue r).map fun n => -(n : Int)
  | (false, r) => (digitsValue r).map fun n => (n : Int)

/-- `n * 10^k` as a rational. -/
def decimalRatio (n : Nat) (k : Int) : Ratio :=
  if 0 ≤ k then ⟨n * 10 ^ k.toNat, 1⟩ else ⟨n, 10 ^ (-k).toNat⟩

/-- The significand of a decimal float literal, `digits` or `digits.digits`: its digits as one number, and
how many of them are fraction digits. -/
def decimalSignificand (t : Str) : Option (Nat × Nat) :=
  match splitAtChar 0x2E t with
  | some (whole, frac) =>
    match digitsValue whole, digitsValue frac with
    | some _, some _ => some (decimalValue (whole ++ frac), frac.length)
    | _, _ => none
  | none => (digitsValue t).map fun n => (n, 0)

/-- A decimal float literal `[-]digits[.digits][e[-]digits]` as its sign and its magnitude. R80 gives the
form `1.5`; spec/95_test_vectors.md writes `1e39` and `1e-8` as well (DEDUCED, log entry 16). -/
def decimalForm (t : Str) : Option (Bool × Ratio) :=
  let sr := takeSign t
  let parts := (splitAtChar 0x65 sr.2).getD (sr.2, ascii ['0'])
  match decimalSignificand parts.1, integerLiteral parts.2 with
  | some (n, places), some k => some (sr.1, decimalRatio n (k - places))
  | _, _ => none

/-- The binary64 word of a decimal float literal: to nearest, ties to even; none when it overflows (DESIGN
CHOICE, log entry 16). -/
def decimalWord (sign : Bool) (a : Ratio) : Option Flt64 :=
  (roundFin 11 52 sign.toNat a).map (BitVec.ofNat 64)

/-- The literals `+Inf` and `-Inf` of spec/95_test_vectors.md (DEDUCED, log entry 16). -/
def infinityLiteral (t : Str) : Option Flt64 :=
  if t = ascii ['+', 'I', 'n', 'f'] then some (BitVec.ofNat 64 (infinityWord 11 52 0))
  else if t = ascii ['-', 'I', 'n', 'f'] then some (BitVec.ofNat 64 (infinityWord 11 52 1))
  else none

/-- A letter, a digit or an underscore: what a host variable's name is made of. R80 does not say; that any
non-empty run of them that is no literal is a name, one that starts with a digit too, is the model's
choice (DESIGN CHOICE, log entry 17). -/
def isNameChar (c : Byte) : Bool :=
  isDigitChar c || decide (0x61 ≤ c.toNat ∧ c.toNat ≤ 0x7A) ||
    decide (0x41 ≤ c.toNat ∧ c.toNat ≤ 0x5A) || c == 0x5F

/-- A number as an operand, or else a host variable (R80). A decimal literal that overflows is neither. -/
def numberOperand (t : Str) : Option AsmOperand :=
  match integerLiteral t, decimalForm t, infinityLiteral t with
  | some z, _, _ => some (.val (.int z))
  | none, some (sign, a), _ => (decimalWord sign a).map fun d => .val (.flt d)
  | none, none, some d => some (.val (.flt d))
  | none, none, none => if t ≠ [] ∧ t.all isNameChar = true then some (.var t) else none

/-- An operand without quotation marks (R80), by its form. No text at all is the empty byte sequence, as
spec/95_test_vectors.md section 2.4 writes it (DEDUCED, log entry 17). -/
def plainOperand (t : Str) : Option AsmOperand :=
  match dropFront (ascii ['0', 'x']) t, dropFront (ascii ['f', '6', '4', ':', '0', 'x']) t,
      dropFront (ascii ['b', 'y', 't', 'e', 's', ':']) t with
  | some h, _, _ => (hexBits h).map .bits
  | none, some h, _ => hexDouble h
  | none, none, some h => (hexByteList h).map fun b => .val (.byt b)
  | none, none, none => if t = [] then some (.val (.byt [])) else numberOperand t

/-- The operand of a line and the end of the line (R80): a quoted bit sequence, a quoted string, or a
form without quotation marks. -/
def parseOperand (t : Str) : Option AsmOperand :=
  match dropFront [0x22] t, dropFront [0x27] t with
  | some r, _ =>
    match splitAtChar 0x22 r with
    | some (b, rest) =>
      if isLineEnd rest then
        (digitValues val2 b).map fun xs => .bits (xs.map fun x => decide (x = 1))
      else none
    | none => none
  | none, some r =>
    match splitAtChar 0x27 r with
    | some (s, rest) => if isLineEnd rest then some (.val (.str s)) else none
    | none => none
  | none, none => plainOperand (trimEnd (((splitAtChar 0x3B t).getD (t, [])).1))

/-- The token and the operand text of `<token> , <operand>` (R80). -/
def splitToken (t : Str) : Option (Str × Str) :=
  (splitAtChar 0x2C t).map fun r => (trimEnd (skipSpaces r.1), skipSpaces r.2)

/-- The mnemonics of R80 and their operations. -/
def opOfMnemonic (m : Str) : Option Op :=
  if m = ascii ['d', 'e', 'c'] then some .dec
  else if m = ascii ['e', 'n', 'c'] then some .enc
  else if m = ascii ['d', 'e', 'c', 's'] then some .decs
  else if m = ascii ['p', 'a', 'd'] then some .pad
  else none

/-- A line of R80 or a pseudo-instruction of R81. -/
def parseLine (t : Str) : Option AsmLine :=
  match splitAtChar 0x20 (skipSpaces t) with
  | none => none
  | some (m, rest) =>
    if m = ascii ['t', 'o', 'b', 'y', 't', 'e', 's'] then
      (parseOperand (skipSpaces rest)).map
        (.command .pad (ascii ['b', 'y', 't', 'e', 's']))
    else if m = ascii ['r', 'e', 'a', 'd'] then
      match splitToken rest with
      | some (tok, x) =>
        match parseOperand x with
        | some (.var c) => some (.read tok c)
        | _ => none
      | none => none
    else
      match opOfMnemonic m, splitToken rest with
      | some op, some (tok, x) => (parseOperand x).map (.command op tok)
      | _, _ => none

/-- The request with its value operand replaced in the carrier of a value's kind (R24, R25). -/
def withValue (r : Request) (v : Value) : Request :=
  match v with
  | .str s => { r with val := { r.val with str := s } }
  | .int z => { r with val := { r.val with int := z } }
  | .flt d => { r with val := { r.val with flt := d } }
  | .byt b => { r with val := { r.val with byt := b } }

/-- The operand of a line in a request (R80): the view for `dec`, `decs`, `pad`, the value for `enc`.
None when the operand is of the wrong sort, or a variable, which is the host's to replace. -/
def withOperand (r : Request) (op : Op) (x : AsmOperand) : Option Request :=
  match op, x with
  | .enc, .val v => some (withValue r v)
  | .enc, _ => none
  | _, .bits b => some { r with view := b }
  | _, _ => none

/-- Whether an operand is of the kind its family takes (R25, R80): for `enc`, a value of the row's kind. -/
def operandFits (op : Op) (fam : Family) (x : AsmOperand) : Bool :=
  match op, x with
  | .enc, .val v => v.kind == (registryRow fam).kind
  | .enc, _ => false
  | _, .bits _ => true
  | _, _ => false

/-- The request of a line, over a request whose other fields stay (R78, R80): the assembler's error
kind, or the request; none when the operand does not fit. -/
def assembleLine (r : Request) (op : Op) (token : Str) (x : AsmOperand) :
    Option (Except ErrorKind Request) :=
  match parseToken token with
  | .error k => some (.error k)
  | .ok p =>
    match tokenCommand op p with
    | .error k => some (.error k)
    | .ok w =>
      if operandFits op p.fam x then (withOperand r op x).map fun r' => .ok { r' with cmd := w }
      else none

/-- Whether a family is one of the four exp-Golomb families (R3). -/
def isExpGolomb : Family → Bool
  | .ue | .se | .uie | .sie => true
  | _ => false

/-- The request of `read <token>, <cursor>` on a host's bits V (R81 (c)): DECS on the rest from the cursor
for an exp-Golomb family, DEC on the next L bits for a token with an explicit length L; none past the end
of V (R46). R81 (c) gives no case for a token of another family without a length: that `read` then presents
no request is the model's choice (DESIGN CHOICE, log entry 22). -/
def readRequest (r : Request) (token : Str) (v : Bits) (cursor : Nat) :
    Option (Except ErrorKind Request) :=
  match parseToken token with
  | .error k => some (.error k)
  | .ok p =>
    if isExpGolomb p.fam then
      if cursor ≤ v.length then
        assembleLine r .decs token (.bits (slice v cursor v.length))
      else none
    else
      match p.len with
      | none => none
      | some n =>
        if cursor + n ≤ v.length then
          assembleLine r .dec token (.bits (slice v cursor (cursor + n)))
        else none

/-- The command `read` presents for a parsed token (R81 (c)): DECS for an exp-Golomb family, else DEC. -/
def readOp (fam : Family) : Op := if isExpGolomb fam then .decs else .dec

/-- The token with which `read` presents a command; none when it does not parse, when its length is refused
(R78, R93), or when its family is not exp-Golomb and it has no length, a case R81 (c) does not give (DESIGN
CHOICE, log entry 22). -/
def readToken (token : Str) : Option ParsedToken :=
  match parseToken token with
  | .error _ => none
  | .ok p =>
    if isExpGolomb p.fam = false ∧ p.len = none then none
    else
      match tokenCommand (readOp p.fam) p with
      | .error _ => none
      | .ok _ => some p

/-- The host's cursor after `read` (R81 (c)) in state s, in which the command it presented has completed;
read through the port in the order of R308: STATUS first. For an exp-Golomb family the cursor moves by
CONSUMED when the DECS succeeded, and stays when it failed, which consumes nothing (R236, R280). Otherwise
it moves by the L bits of the view, as R81 (c) writes it, whatever the status. With a token that
presents no command (`readToken`) the cursor stays (both DESIGN CHOICE, log entry 22). -/
def readCursor (token : Str) (cursor : Nat) (s : State) : Except Fault Nat :=
  match readToken token with
  | none => .ok cursor
  | some p => do
    let status ← readStatus s
    if isExpGolomb p.fam = false then .ok (cursor + p.len.getD 0)
    else if status = statusOk then do
      let n ← readConsumed s
      .ok (cursor + n)
    else .ok cursor

end Sys2Proof.Machine
end

