-- ==== Sys2Proof/Safety.lean ====
section
/-! DEFINITION. The words the statements use: what a response is, seen from the host; the invariant of the
state; and readings of bits, digits and float words written from the spec's formulas (sums and
rationals), not from the model's own codecs. -/

namespace Sys2Proof.Machine

/-! ## Responses -/

/-- What every command leaves alone (R21, R280): CFG and REQ; and the command is done. -/
def Quiet (s t : State) : Prop := t.cfg = s.cfg ∧ t.req = s.req ∧ t.busy = false

/-- The command completes with the error response of kind k (R280). -/
def AnswersError (s : State) (o : StepOutcome) (k : ErrorKind) : Prop :=
  ∃ t, o = .next t ∧ t.rsp.status = errorCode k ∧ t.rspKind = .error ∧ Quiet s t

/-- The command completes with STATUS 0 and the value v in RVAL (R28: DEC, PAD). -/
def AnswersValue (s : State) (o : StepOutcome) (v : Value) : Prop :=
  ∃ t, o = .next t ∧ t.rsp.status = 0 ∧ t.rspKind = .value ∧ t.rsp.rval = v ∧ Quiet s t

/-- The command completes with STATUS 0 and the bits b in RES (R28: ENC). -/
def AnswersBits (s : State) (o : StepOutcome) (b : Bits) : Prop :=
  ∃ t, o = .next t ∧ t.rsp.status = 0 ∧ t.rspKind = .bits ∧ t.rsp.res = b ∧ Quiet s t

/-- The command completes with STATUS 0, the value v in RVAL and n in CONSUMED (R28: DECS). -/
def AnswersStream (s : State) (o : StepOutcome) (v : Value) (n : Nat) : Prop :=
  ∃ t, o = .next t ∧ t.rsp.status = 0 ∧ t.rspKind = .stream ∧ t.rsp.rval = v ∧
    t.rsp.consumed = n ∧ Quiet s t

/-- Two states whose last responses the host cannot tell apart: the same STATUS, the same defined fields,
and equal contents of the defined fields (R28, R36). -/
def SameResponse (s t : State) : Prop :=
  s.rsp.status = t.rsp.status ∧ s.rspKind = t.rspKind ∧
    (s.rspKind = .value ∨ s.rspKind = .stream → s.rsp.rval = t.rsp.rval) ∧
    (s.rspKind = .bits → s.rsp.res = t.rsp.res) ∧
    (s.rspKind = .stream → s.rsp.consumed = t.rsp.consumed)

/-- The state invariant: STATUS is a legal value of R32 and none of the assembler's (R270), it is 0 after
a command that succeeded, and an error code of BSC after one that failed (R28, R29). -/
structure Inv (s : State) : Prop where
  legal   : s.rsp.status.toNat ≤ 6
  notText : s.rsp.status ≠ 1
  failed  : s.rspKind = .error → s.rsp.status ≠ 0
  succeeded : s.rspKind = .value ∨ s.rspKind = .bits ∨ s.rspKind = .stream → s.rsp.status = 0

/-- The explicit length is absent, or is n. -/
def LenFor (len : Option Nat) (n : Nat) : Prop := len = none ∨ len = some n

/-! ## The instructions by their endianness qualifier -/

/-- DEC.uint, DEC.uintbe, DEC.uintle, DEC.uintne. -/
def decUintOf : Endian → Option Nat → Instr
  | .bitwise => .decUint
  | .be => .decUintbe
  | .le => .decUintle
  | .ne => .decUintne

/-- ENC.uint, ENC.uintbe, ENC.uintle, ENC.uintne. -/
def encUintOf : Endian → Option Nat → Instr
  | .bitwise => .encUint
  | .be => .encUintbe
  | .le => .encUintle
  | .ne => .encUintne

/-- DEC.int, DEC.intbe, DEC.intle, DEC.intne. -/
def decIntOf : Endian → Option Nat → Instr
  | .bitwise => .decInt
  | .be => .decIntbe
  | .le => .decIntle
  | .ne => .decIntne

/-- ENC.int, ENC.intbe, ENC.intle, ENC.intne. -/
def encIntOf : Endian → Option Nat → Instr
  | .bitwise => .encInt
  | .be => .encIntbe
  | .le => .encIntle
  | .ne => .encIntne

/-- DEC.float, DEC.floatbe, DEC.floatle, DEC.floatne. -/
def decFloatOf : Endian → Option Nat → Instr
  | .bitwise => .decFloat
  | .be => .decFloatbe
  | .le => .decFloatle
  | .ne => .decFloatne

/-- ENC.float, ENC.floatbe, ENC.floatle, ENC.floatne. -/
def encFloatOf : Endian → Option Nat → Instr
  | .bitwise => .encFloat
  | .be => .encFloatbe
  | .le => .encFloatle
  | .ne => .encFloatne

/-- DEC.bfloat, DEC.bfloatbe, DEC.bfloatle, DEC.bfloatne. -/
def decBfloatOf : Endian → Option Nat → Instr
  | .bitwise => .decBfloat
  | .be => .decBfloatbe
  | .le => .decBfloatle
  | .ne => .decBfloatne

/-- ENC.bfloat, ENC.bfloatbe, ENC.bfloatle, ENC.bfloatne. -/
def encBfloatOf : Endian → Option Nat → Instr
  | .bitwise => .encBfloat
  | .be => .encBfloatbe
  | .le => .encBfloatle
  | .ne => .encBfloatne

/-- The words of an instruction (R60, R67): `m` are its row's `FAM`, `END` and `OP` bits; with an explicit
length, `LP` is bit 8 and `LEN` the high half. -/
def HasWords (i : Option Nat → Instr) (m : Nat) : Prop :=
  encode (i none) = BitVec.ofNat 64 m ∧
    ∀ n, n < 2 ^ 32 → encode (i (some n)) = BitVec.ofNat 64 (m + 2 ^ 8 + n * 2 ^ 32)

/-- The suffix of a qualifier in a token (R75, R78). -/
def suffixText : Endian → Str
  | .bitwise => []
  | .be => [0x62, 0x65]
  | .le => [0x6C, 0x65]
  | .ne => [0x6E, 0x65]

/-- The token of a spelling, a qualifier and decimal digits (R75). -/
def tokenText (name : Str) (e : Endian) (ds : List Nat) : Str :=
  name ++ suffixText e ++ ds.map fun d => BitVec.ofNat 8 (0x30 + d)

/-! ## Readings of bits -/

/-- The positional sum of R12: `sum over i of V.bit(i) * 2^(|V|-1-i)`. -/
def bigValue (v : Bits) : Nat :=
  ∑ i ∈ Finset.range v.length, (v.getD i false).toNat * 2 ^ (v.length - 1 - i)

/-- The w bits of group j of a sequence: `V.slice(w*j, w*j + w)` (R11). -/
def groupAt (w j : Nat) (v : Bits) : Bits := (v.drop (w * j)).take w

/-- The bytes of V read with byte 0 the least significant (R42, `le`): each byte by R12. -/
def littleValue (v : Bits) : Nat :=
  ∑ j ∈ Finset.range (v.length / 8), bigValue (groupAt 8 j v) * 256 ^ j

/-- The magnitude of a field under a qualifier (R42, R99); `h` is `CFG.HOST_ENDIAN`. -/
def fieldValue (e : Endian) (h : ByteOrder) (v : Bits) : Nat :=
  match e, h with
  | .bitwise, _ => bigValue v
  | .be, _ => bigValue v
  | .le, _ => littleValue v
  | .ne, .big => bigValue v
  | .ne, .little => littleValue v

/-- The two's-complement value of an n-bit magnitude (R14 `sext`, R134). -/
def signedOf (n x : Nat) : Int := if x < 2 ^ (n - 1) then x else (x : Int) - 2 ^ n

/-- c is a hex digit of value x, in either case (R111). -/
def HexDigit (c : Byte) (x : Nat) : Prop :=
  (x ≤ 9 ∧ c.toNat = 0x30 + x) ∨ (10 ≤ x ∧ x ≤ 15 ∧ c.toNat = 0x61 + (x - 10)) ∨
    (10 ≤ x ∧ x ≤ 15 ∧ c.toNat = 0x41 + (x - 10))

/-- c is an octal digit of value x (R111). -/
def OctDigit (c : Byte) (x : Nat) : Prop := x ≤ 7 ∧ c.toNat = 0x30 + x

/-- The sixteen characters a hex decode writes (R111): lower case. -/
def hexAlphabet : Str :=
  [0x30, 0x31, 0x32, 0x33, 0x34, 0x35, 0x36, 0x37, 0x38, 0x39, 0x61, 0x62, 0x63, 0x64, 0x65, 0x66]

/-- The codes of a plain exp-Golomb code of payload P (R231, R232): |P| zeros, a 1, P. -/
def plainCode (p : Bits) : Bits := List.replicate p.length false ++ true :: p

/-- The interleaved code of payload P (R234): a zero before each payload bit, then the stop bit. -/
def interleavedCode (p : Bits) : Bits := p.flatMap (fun b => [false, b]) ++ [true]

/-- The number a code of payload P stands for (R232, R235): `2^|P| + Mag(P) - 1`. -/
def codeNumber (p : Bits) : Nat := 2 ^ p.length + bigValue p - 1

/-- The signed number of an unsigned one by R233's map: `u = 2|n|` for `n <= 0`, `u = 2n - 1` for
`n > 0`. -/
def FoldsTo (n : Int) (u : Nat) : Prop :=
  (n ≤ 0 ∧ (u : Int) = 2 * |n|) ∨ (0 < n ∧ (u : Int) = 2 * n - 1)

/-! ## Readings of float words -/

/-- The magnitude of a finite word of an IEEE format (R152). -/
def floatAbs (E M p : Nat) : ℚ :=
  if wordExp E M p = 0 then (wordMan M p : ℚ) * (2 : ℚ) ^ (ieeeEmin E - M)
  else ((2 : ℚ) ^ M + wordMan M p) * (2 : ℚ) ^ ((wordExp E M p : ℤ) - ieeeBias E - M)

/-- p is a finite word of the format (R152). -/
def FiniteWord (E M p : Nat) : Prop := p < 2 ^ (1 + E + M) ∧ wordExp E M p < 2 ^ E - 1

/-- p is an infinity of the format (R152). -/
def InfiniteWord (E M p : Nat) : Prop :=
  p < 2 ^ (1 + E + M) ∧ wordExp E M p = 2 ^ E - 1 ∧ wordMan M p = 0

/-- p is a NaN of the format (R152). -/
def NanWord (E M p : Nat) : Prop :=
  p < 2 ^ (1 + E + M) ∧ wordExp E M p = 2 ^ E - 1 ∧ wordMan M p ≠ 0

/-- d is what widening the word p to binary64 gives (R155, R156): NaN to NaN, infinity to infinity, a
finite word to the finite word of the same sign and the same value. -/
def WidensTo (E M p d : Nat) : Prop :=
  (NanWord E M p → NanWord 11 52 d) ∧
  (InfiniteWord E M p → InfiniteWord 11 52 d ∧ wordSign 11 52 d = wordSign E M p) ∧
  (FiniteWord E M p →
    FiniteWord 11 52 d ∧ wordSign 11 52 d = wordSign E M p ∧ floatAbs 11 52 d = floatAbs E M p)

/-- p is a finite word of the format nearest to a; of two equally near, the even one (R153). -/
def NearestWord (E M : Nat) (a : ℚ) (p : Nat) : Prop :=
  FiniteWord E M p ∧
  ∀ q, FiniteWord E M q →
    |floatAbs E M p - a| ≤ |floatAbs E M q - a| ∧
    (floatAbs E M q ≠ floatAbs E M p → |floatAbs E M p - a| = |floatAbs E M q - a| → p % 2 = 0)

/-- p is what narrowing the binary64 word d gives when it does not overflow (R153, R154, R156). -/
def NarrowsTo (E M d p : Nat) : Prop :=
  (NanWord 11 52 d → NanWord E M p) ∧
  (InfiniteWord 11 52 d → InfiniteWord E M p ∧ wordSign E M p = wordSign 11 52 d) ∧
  (FiniteWord 11 52 d →
    NearestWord E M (floatAbs 11 52 d) p ∧ wordSign E M p = wordSign 11 52 d)

/-- The overflow threshold of a format (R158): `(2 - 2^-(M+1)) * 2^emax`. -/
def overflowBound (E M : Nat) : ℚ :=
  (2 - (2 : ℚ) ^ (-(M + 1 : ℤ))) * (2 : ℚ) ^ ((2 ^ E - 2 : ℤ) - ieeeBias E)

/-- The magnitude of the magnitude code g of an 8-bit format (R207). -/
def miniAbsQ (F : MiniFormat) (g : Nat) : ℚ :=
  if g / 2 ^ F.manBits = 0 then
    ((g % 2 ^ F.manBits : Nat) : ℚ) * (2 : ℚ) ^ (1 - F.bias - F.manBits)
  else ((2 : ℚ) ^ F.manBits + (g % 2 ^ F.manBits : Nat)) *
    (2 : ℚ) ^ (((g / 2 ^ F.manBits : Nat) : ℤ) - F.bias - F.manBits)

/-- d is what decoding the code c gives (R208): the canonical NaN, an infinity, or the finite word of the
code's sign and value. -/
def MiniDecodesTo (F : MiniFormat) (c : Byte) (d : Nat) : Prop :=
  (specialOf F c = some .nan → d = 0x7FF8000000000000) ∧
  (specialOf F c = some .posInf → d = 0x7FF0000000000000) ∧
  (specialOf F c = some .negInf → d = 0xFFF0000000000000) ∧
  (specialOf F c = none →
    FiniteWord 11 52 d ∧ wordSign 11 52 d = c.toNat / 128 ∧
      floatAbs 11 52 d = miniAbsQ F (c.toNat % 128))

/-- c is what encoding the binary64 word d gives (R209): `nan_enc` for a NaN; for any other word a code
of magnitude g, the greatest one for an infinity or a magnitude at or beyond `MAXV`, else the nearest one
with ties to the even code; with the sign of d, but `0x00` where the signed code is special. -/
def MiniEncodesTo (F : MiniFormat) (d : Nat) (c : Byte) : Prop :=
  (NanWord 11 52 d → c = F.nanEnc) ∧
  (¬ NanWord 11 52 d → ∃ g, g ≤ maxCode F ∧
    (InfiniteWord 11 52 d → g = maxCode F) ∧
    (FiniteWord 11 52 d → miniAbsQ F (maxCode F) ≤ floatAbs 11 52 d → g = maxCode F) ∧
    (FiniteWord 11 52 d → floatAbs 11 52 d < miniAbsQ F (maxCode F) →
      ∀ g', g' ≤ maxCode F →
        |miniAbsQ F g - floatAbs 11 52 d| ≤ |miniAbsQ F g' - floatAbs 11 52 d| ∧
        (g' ≠ g → |miniAbsQ F g - floatAbs 11 52 d| = |miniAbsQ F g' - floatAbs 11 52 d| →
          g % 2 = 0)) ∧
    (specialOf F (miniCode (wordSign 11 52 d) g) = none →
      c.toNat = wordSign 11 52 d * 128 + g) ∧
    (specialOf F (miniCode (wordSign 11 52 d) g) ≠ none → c.toNat = g))

/-! ## Tables of the spec, by instruction -/

/-- When an explicit length, or its absence, answers InvalidLength (R93, R277 column IL). -/
def LengthRefused : Op → Family → Option Nat → Prop
  | _, .bin, _ => False
  | _, .hex, some n => ¬ 4 ∣ n
  | _, .oct, some n => ¬ 3 ∣ n
  | _, .uint, some n => n = 0
  | _, .int, some n => n = 0
  | _, .float, some n => n ≠ 16 ∧ n ≠ 32 ∧ n ≠ 64
  | _, .bfloat, some n => n ≠ 16
  | _, .e4m3float, some n => n ≠ 8
  | _, .e5m2float, some n => n ≠ 8
  | .pad, .bytes, some _ => True
  | _, .bytes, some n => ¬ 8 ∣ n
  | .enc, .uint, none => True
  | .enc, .int, none => True
  | .enc, .float, none => True
  | _, .ue, some _ => True
  | _, .se, some _ => True
  | _, .uie, some _ => True
  | _, .sie, some _ => True
  | _, _, none => False

/-- The error kinds an instruction can answer (R277): InvalidLength, InterpretError, ValueError. -/
def mayAnswer : Op → Family → Endian → List ErrorKind
  | .dec, .bin, _ => [.interpret]
  | .enc, .bin, _ => [.value]
  | .dec, .hex, _ => [.invalidLength, .interpret]
  | .dec, .oct, _ => [.invalidLength, .interpret]
  | .enc, .hex, _ => [.invalidLength, .value]
  | .enc, .oct, _ => [.invalidLength, .value]
  | .dec, .uint, .bitwise => [.invalidLength, .interpret]
  | .dec, .int, .bitwise => [.invalidLength, .interpret]
  | .dec, .uint, _ => [.invalidLength, .interpret, .value]
  | .dec, .int, _ => [.invalidLength, .interpret, .value]
  | .enc, .uint, _ => [.invalidLength, .value]
  | .enc, .int, _ => [.invalidLength, .value]
  | .dec, .float, _ => [.invalidLength, .interpret]
  | .enc, .float, _ => [.invalidLength, .value]
  | .dec, .bfloat, _ => [.invalidLength, .interpret]
  | .enc, .bfloat, _ => [.invalidLength]
  | .dec, .e4m3float, _ => [.invalidLength, .interpret]
  | .dec, .e5m2float, _ => [.invalidLength, .interpret]
  | .enc, .e4m3float, _ => [.invalidLength]
  | .enc, .e5m2float, _ => [.invalidLength]
  | .dec, .bytes, _ => [.invalidLength, .interpret, .value]
  | .enc, .bytes, _ => [.invalidLength, .value]
  | .pad, .bytes, _ => [.invalidLength]
  | .dec, _, _ => [.invalidLength, .interpret]
  | .decs, _, _ => [.invalidLength, .interpret]
  | .enc, .ue, _ => [.invalidLength, .value]
  | .enc, .uie, _ => [.invalidLength, .value]
  | .enc, .se, _ => [.invalidLength]
  | .enc, .sie, _ => [.invalidLength]
  | .pad, _, _ => []

end Sys2Proof.Machine
end

