-- ==== Sys2Proof/Certificates/Slice0/Obligations.lean ====
section
/-! DEFINITION. The statements for the provers. -/

open Sys2Proof Sys2Proof.Machine

/-- For every well-formed instruction of all 57 rows, decode of encode is that instruction, with
every explicit length the LEN field admits. -/
def Obligations.DecodeOfEncodeIsTheInstruction : Prop :=
  ∀ i : Instr, i.wellFormed = true → decode (encode i) = .ok i

/-- For every 64-bit word the decoder accepts, the decoded instruction is well formed and its
encoding is that very word: no bit of a legal word is dropped. -/
def Obligations.EncodeOfDecodeIsTheWord : Prop :=
  ∀ (w : CmdWord) (i : Instr), decode w = .ok i → i.wellFormed = true ∧ encode i = w

/-- For every state with a command presented, with the fields read from REQ.CMD as bit fields:
reserved bits answer IllegalCommand; else FAM 14 or 15 answers UnknownFamily; else END on a family
outside 3 to 6 answers IllegalCommand; else an operation the family lacks answers IllegalCommand;
else LEN without LP answers IllegalCommand; a word that passes all five selects the instruction of
its operation, family, qualifier and length, and the step runs it. -/
def Obligations.DecoderAnswersTheFirstFailingCheck : Prop :=
  ∀ s : State, s.busy = true →
    let w := s.req.cmd
    let fam := (w.extractLsb' 0 4).toNat
    let e := (w.extractLsb' 4 2).toNat
    let op := (w.extractLsb' 6 2).toNat
    let lp := (w.extractLsb' 8 1).toNat
    let reserved := (w.extractLsb' 9 23).toNat
    let len := (w.extractLsb' 32 32).toNat
    let endBad := e ≠ 0 ∧ ¬ (3 ≤ fam ∧ fam ≤ 6)
    let opBad := (op = 2 ∧ ¬ (10 ≤ fam ∧ fam ≤ 13)) ∨ (op = 3 ∧ fam ≠ 9)
    let lenBad := lp = 0 ∧ len ≠ 0
    (reserved ≠ 0 → AnswersError s (step s) .illegalCommand) ∧
    (reserved = 0 → 14 ≤ fam → AnswersError s (step s) .unknownFamily) ∧
    (reserved = 0 → fam < 14 → endBad → AnswersError s (step s) .illegalCommand) ∧
    (reserved = 0 → fam < 14 → ¬ endBad → opBad → AnswersError s (step s) .illegalCommand) ∧
    (reserved = 0 → fam < 14 → ¬ endBad → ¬ opBad → lenBad →
      AnswersError s (step s) .illegalCommand) ∧
    (reserved = 0 → fam < 14 → ¬ endBad → ¬ opBad → ¬ lenBad →
      ∃ i o f q, instrFields i = (o, f, q, if lp = 1 then some len else none) ∧
        opCode o = op ∧ famCode f = fam ∧ endCode q = e ∧ step s = exec i s)

/-- For every state with a command presented and every instruction its command word decodes to, step
is exec of that instruction at that state; nothing is added around exec. -/
def Obligations.StepRunsTheDecodedInstruction : Prop :=
  ∀ (s : State) (i : Instr), s.busy = true → decode s.req.cmd = .ok i → step s = exec i s

/-- For every state with no command in progress, a step leaves the state as it is (the busy bit is
the model's reading of start and done: log entry 1). -/
def Obligations.StepIdlesUntilACommandIsPresented : Prop :=
  ∀ s : State, s.busy = false → step s = .next s

/-- The tokens uintle32, f16 and float16, se, bytes, hex and h, intbe16 under their operations
assemble to the six words of R82, and each word decodes to its instruction. -/
def Obligations.WorkedEncodings : Prop :=
  assembleToken .dec (ascii ['u', 'i', 'n', 't', 'l', 'e', '3', '2']) = .ok 0x0000002000000123 ∧
  assembleToken .enc (ascii ['f', '1', '6']) = .ok 0x0000001000000145 ∧
  assembleToken .enc (ascii ['f', 'l', 'o', 'a', 't', '1', '6']) = .ok 0x0000001000000145 ∧
  assembleToken .decs (ascii ['s', 'e']) = .ok 0x000000000000008B ∧
  assembleToken .pad (ascii ['b', 'y', 't', 'e', 's']) = .ok 0x00000000000000C9 ∧
  assembleToken .dec (ascii ['h', 'e', 'x']) = .ok 0x0000000000000001 ∧
  assembleToken .dec (ascii ['h']) = .ok 0x0000000000000001 ∧
  assembleToken .enc (ascii ['i', 'n', 't', 'b', 'e', '1', '6']) = .ok 0x0000001000000154 ∧
  decode 0x0000002000000123 = .ok (.decUintle (some 32)) ∧
  decode 0x0000001000000145 = .ok (.encFloat (some 16)) ∧
  decode 0x000000000000008B = .ok (.decsSe none) ∧
  decode 0x00000000000000C9 = .ok (.padBytes none) ∧
  decode 0x0000000000000001 = .ok (.decHex none) ∧
  decode 0x0000001000000154 = .ok (.encIntbe (some 16))

/-- For each of the twenty spellings of R76, each suffix its family takes (or none), and every
string of digits, longest match, suffix and digits are told apart: the parse is the family, the
qualifier, and no length for no digits, else the decimal value of the digits. Every other string (no
spelling at its front, trailing characters that are no digits, a suffix on a family that takes none,
the empty token) answers TokenSyntaxError. -/
def Obligations.EveryTokenOfTheGrammarParses : Prop :=
  let table : List (Str × Family) :=
      [(ascii ['b', 'i', 'n'], .bin),
       (ascii ['b'], .bin),
       (ascii ['h', 'e', 'x'], .hex),
       (ascii ['h'], .hex),
       (ascii ['o', 'c', 't'], .oct),
       (ascii ['o'], .oct),
       (ascii ['u', 'i', 'n', 't'], .uint),
       (ascii ['u'], .uint),
       (ascii ['i', 'n', 't'], .int),
       (ascii ['i'], .int),
       (ascii ['f', 'l', 'o', 'a', 't'], .float),
       (ascii ['f'], .float),
       (ascii ['b', 'y', 't', 'e', 's'], .bytes),
       (ascii ['b', 'f', 'l', 'o', 'a', 't'], .bfloat),
       (ascii ['e', '4', 'm', '3', 'f', 'l', 'o', 'a', 't'], .e4m3float),
       (ascii ['e', '5', 'm', '2', 'f', 'l', 'o', 'a', 't'], .e5m2float),
       (ascii ['u', 'e'], .ue),
       (ascii ['s', 'e'], .se),
       (ascii ['u', 'i', 'e'], .uie),
       (ascii ['s', 'i', 'e'], .sie)]
  let takesSuffix : List Family := [.uint, .int, .float, .bfloat]
  (∀ (name : Str) (fam : Family) (e : Endian) (ds : List Nat),
    (name, fam) ∈ table → (e = .bitwise ∨ fam ∈ takesSuffix) → (∀ d ∈ ds, d ≤ 9) →
    parseToken (tokenText name e ds) =
      .ok { fam := fam, endian := e,
            len := if ds = [] then none else some (Nat.ofDigits 10 ds.reverse) }) ∧
  (∀ t : Str,
    (∀ (name : Str) (fam : Family) (e : Endian) (ds : List Nat),
      (name, fam) ∈ table → (e = .bitwise ∨ fam ∈ takesSuffix) → (∀ d ∈ ds, d ≤ 9) →
      t ≠ tokenText name e ds) →
    parseToken t = .error .tokenSyntax)

/-- For every state that meets Inv, and every next state of a step from it, Inv holds: STATUS is 0
to 6, never TokenSyntaxError, not 0 after an error response, and 0 after a response that defines a
value, bits or a stream. (rspKind is the model's own field: log entry 14.) -/
def Obligations.EveryStepKeepsTheInvariant : Prop :=
  ∀ s t : State, Inv s → step s = .next t → Inv t

/-- Inv holds of State.reset. The spec leaves STATUS unspecified at reset; its value 0 there is the
model's choice (log entry 5). -/
def Obligations.ResetMeetsTheInvariant : Prop :=
  Inv State.reset

/-- For every state and every next state of a step, and for every instruction executed, CFG and the
whole request record are unchanged. -/
def Obligations.NoStepWritesConfigurationOrRequest : Prop :=
  (∀ s t : State, step s = .next t → t.cfg = s.cfg ∧ t.req = s.req) ∧
  (∀ (i : Instr) (s t : State), exec i s = .next t → t.cfg = s.cfg ∧ t.req = s.req)

/-- For every instruction and every state exec answers a next state in which the command is done;
and every step of every state answers a next state that is not busy. -/
def Obligations.EveryCommandCompletes : Prop :=
  (∀ (i : Instr) (s : State), ∃ t, exec i s = .next t ∧ t.busy = false) ∧
  (∀ s : State, ∃ t, step s = .next t ∧ t.busy = false)

/-- For any two states with the same CFG and the same REQ, both with the command presented, whatever
their earlier responses and free values, the steps answer responses that agree in STATUS, in which
fields are defined, and in every defined field. -/
def Obligations.ResponseIsAFunctionOfRequestAndConfiguration : Prop :=
  ∀ s s' t t' : State, s.cfg = s'.cfg → s.req = s'.req → s.busy = true → s'.busy = true →
    step s = .next t → step s' = .next t' → SameResponse t t'

/-- For an idle state and any two requests, the response to the second request is the same when the
first has been presented and executed before it as when it has not: commands commute and no status
is sticky. -/
def Obligations.EarlierCommandsLeaveNoTrace : Prop :=
  ∀ (s : State) (r r' : Request) (a b c d c' d' : State),
    present r s = .ok a → step a = .next b → present r' b = .ok c → step c = .next d →
    present r' s = .ok c' → step c' = .next d' → SameResponse d d'

/-- For every instruction whose qualifier is not ne, executing it in two states that differ in
CFG.HOST_ENDIAN gives the same response; and each of the eight ne instructions, at the length of 16
bits, has a request whose responses on the two hosts differ. -/
def Obligations.OnlyNeCommandsReadTheHostOrder : Prop :=
  (∀ (i : Instr) (s t t' : State) (h : ByteOrder), (instrFields i).2.2.1 ≠ .ne →
    exec i s = .next t → exec i { s with cfg := { hostEndian := h } } = .next t' →
    SameResponse t t') ∧
  (∀ i ∈ [Instr.decUintne (some 16), .encUintne (some 16), .decIntne (some 16), .encIntne (some 16),
      .decFloatne (some 16), .encFloatne (some 16), .decBfloatne (some 16), .encBfloatne (some 16)],
    ∃ s t t' : State, exec i { s with cfg := { hostEndian := .big } } = .next t ∧
      exec i { s with cfg := { hostEndian := .little } } = .next t' ∧ ¬ SameResponse t t')

/-- For every instruction and state, exec answers a next state whose STATUS is 3 exactly when the
table of R93 and R277 refuses the explicit length or its absence; the view and the value have no
part in it. -/
def Obligations.InvalidLengthExactlyWhenTheLengthRuleFails : Prop :=
  ∀ (i : Instr) (s : State), ∃ t, exec i s = .next t ∧
    (t.rsp.status = errorCode .invalidLength ↔
      LengthRefused (instrFields i).1 (instrFields i).2.1 (instrFields i).2.2.2)

/-- For every instruction, the STATUS of its response is 0 or the code of a kind in its row of R277:
no ENC and no PAD answers InterpretError, DECS and PAD never answer ValueError, the exotic float
encoders answer nothing but InvalidLength. -/
def Obligations.InstructionsAnswerOnlyTheirErrorKinds : Prop :=
  ∀ (i : Instr) (s t : State), exec i s = .next t →
    t.rsp.status = 0 ∨
      ∃ k ∈ mayAnswer (instrFields i).1 (instrFields i).2.1 (instrFields i).2.2.1,
        t.rsp.status = errorCode k

/-- For every instruction and its response: STATUS can be read; on an error RES, RVAL and CONSUMED
are unspecified and a read of one is a fault; on OK, DEC and PAD define RVAL only, ENC defines RES
only, DECS defines RVAL and CONSUMED. -/
def Obligations.ResponsesDefineTheFieldsOfTheirOperation : Prop :=
  ∀ (i : Instr) (s t : State), exec i s = .next t →
    readStatus t = .ok t.rsp.status ∧
    (t.rsp.status ≠ 0 →
      readRes t = .error .readUnspecified ∧ readRval t = .error .readUnspecified ∧
      readConsumed t = .error .readUnspecified) ∧
    (t.rsp.status = 0 → (instrFields i).1 = .dec ∨ (instrFields i).1 = .pad →
      readRval t = .ok t.rsp.rval ∧ readRes t = .error .readUnspecified ∧
      readConsumed t = .error .readUnspecified) ∧
    (t.rsp.status = 0 → (instrFields i).1 = .enc →
      readRes t = .ok t.rsp.res ∧ readRval t = .error .readUnspecified ∧
      readConsumed t = .error .readUnspecified) ∧
    (t.rsp.status = 0 → (instrFields i).1 = .decs →
      readRval t = .ok t.rsp.rval ∧ readConsumed t = .ok t.rsp.consumed ∧
      readRes t = .error .readUnspecified)

/-- While busy, presenting and changing a request are refused and every read of RSP is a fault; when
idle, presenting a request stores it and makes the unit busy, and changes nothing else; before the
first command every read is a fault. The refusals and faults are the model's (log entries 14 and
15). -/
def Obligations.HostObligationsAreEnforced : Prop :=
  (∀ (s : State) (r : Request), s.busy = true →
    present r s = .error .startWhileBusy ∧ changeRequest r s = .error .requestChangedWhileBusy ∧
    readStatus s = .error .readBeforeDone ∧ readRes s = .error .readBeforeDone ∧
    readRval s = .error .readBeforeDone ∧ readConsumed s = .error .readBeforeDone) ∧
  (∀ (s : State) (r : Request), s.busy = false →
    present r s = .ok { s with req := r, busy := true } ∧
    changeRequest r s = .ok { s with req := r }) ∧
  (∀ s : State, s.busy = false → s.rspKind = .none →
    readStatus s = .error .readBeforeFirst ∧ readRes s = .error .readBeforeFirst ∧
    readRval s = .error .readBeforeFirst ∧ readConsumed s = .error .readBeforeFirst)

/-- The reset line gives the reset state from every state; there CFG.HOST_ENDIAN is the parameter,
no command is in progress, RSP is not yet readable (the fault is the model's answer: log entry 14),
and a first command of any kind can be presented, runs, and leaves CFG.HOST_ENDIAN as it was. -/
def Obligations.ResetLatchesTheHostOrder : Prop :=
  (∀ s : State, resetLine s = State.reset) ∧
  State.reset.cfg.hostEndian = Config.hostEndian ∧ State.reset.busy = false ∧
  readStatus State.reset = .error .readBeforeFirst ∧
  (∀ r : Request, ∃ a b, present r State.reset = .ok a ∧ step a = .next b ∧ a.req = r ∧
    b.cfg.hostEndian = Config.hostEndian ∧ b.busy = false ∧ readStatus b = .ok b.rsp.status)

/-- Mag of every bit sequence is the sum of R12; ToBits(n, x) for x below 2^n has length n and
magnitude x and is the only such sequence; the bits of an N-bit word stand in it most significant
first. -/
def Obligations.MagnitudeIsThePositionalSum : Prop :=
  (∀ v : Bits, mag v = bigValue v) ∧ mag [] = 0 ∧ toBits 0 0 = [] ∧
  (∀ n x : Nat, x < 2 ^ n → (toBits n x).length = n ∧ mag (toBits n x) = x ∧
    ∀ v : Bits, v.length = n → mag v = x → v = toBits n x) ∧
  (∀ (n : Nat) (w : BitVec n) (i : Nat), i < n →
    (toBits n w.toNat)[i]? = some (w.getLsbD (n - 1 - i)))

/-- For every sequence of whole bytes, byte j of ByteRev(V) is byte m-1-j of V, the length is kept,
and ByteRev of ByteRev is V; ByteRev of the empty sequence is empty. -/
def Obligations.ByteRevExchangesWholeBytes : Prop :=
  (∀ v : Bits, v.length % 8 = 0 →
    (byteRev v).length = v.length ∧
    (∀ j, j < v.length / 8 → groupAt 8 j (byteRev v) = groupAt 8 (v.length / 8 - 1 - j) v) ∧
    byteRev (byteRev v) = v) ∧
  byteRev [] = []

/-- DEC.bin completes whenever the explicit length is absent or that of the view: RVAL is the string
of the same length whose characters are 1 and 0 as the bits are; otherwise InterpretError. -/
def Obligations.DecBinReadsEachBit : Prop :=
  HasWords .decBin 0x00 ∧
  ∀ (s : State) (len : Option Nat),
    (LenFor len s.req.view.length →
      ∃ S : Str, AnswersValue s (exec (.decBin len) s) (.str S) ∧ S.length = s.req.view.length ∧
        ∀ i, i < S.length → S[i]? = s.req.view[i]?.map fun b => if b then 0x31 else 0x30) ∧
    (¬ LenFor len s.req.view.length → AnswersError s (exec (.decBin len) s) .interpret)

/-- ENC.bin completes for a string of 0 and 1 when the explicit length is absent or the string's:
RES has that length and a 1 where the character is 1; a bad character, or else another length,
answers ValueError. -/
def Obligations.EncBinWritesEachCharacter : Prop :=
  HasWords .encBin 0x40 ∧
  ∀ (s : State) (len : Option Nat),
    ((∀ c ∈ s.req.val.str, c = 0x30 ∨ c = 0x31) → LenFor len s.req.val.str.length →
      ∃ b : Bits, AnswersBits s (exec (.encBin len) s) b ∧ b.length = s.req.val.str.length ∧
        ∀ i, i < b.length → (b[i]? = some true ↔ s.req.val.str[i]? = some 0x31)) ∧
    ((∃ c ∈ s.req.val.str, c ≠ 0x30 ∧ c ≠ 0x31) →
      AnswersError s (exec (.encBin len) s) .value) ∧
    ((∀ c ∈ s.req.val.str, c = 0x30 ∨ c = 0x31) → ¬ LenFor len s.req.val.str.length →
      AnswersError s (exec (.encBin len) s) .value)

/-- DEC.hex completes for a view of a multiple of 4 bits whose explicit length is absent or agrees:
character j is the digit of the magnitude of group j; an explicit length that is no multiple of 4
answers InvalidLength, one that differs from the view InterpretError, and a view that is no multiple
of 4 bits InterpretError. -/
def Obligations.DecHexReadsGroupsOfFour : Prop :=
  HasWords .decHex 0x01 ∧
  ∀ (s : State) (len : Option Nat),
    (s.req.view.length % 4 = 0 → LenFor len s.req.view.length →
      ∃ S : Str, AnswersValue s (exec (.decHex len) s) (.str S) ∧
        4 * S.length = s.req.view.length ∧
        ∀ j, j < S.length → S[j]? = hexAlphabet[bigValue (groupAt 4 j s.req.view)]?) ∧
    (∀ n, len = some n → n % 4 ≠ 0 → AnswersError s (exec (.decHex len) s) .invalidLength) ∧
    (∀ n, len = some n → n % 4 = 0 → n ≠ s.req.view.length →
      AnswersError s (exec (.decHex len) s) .interpret) ∧
    (len = none → s.req.view.length % 4 ≠ 0 → AnswersError s (exec (.decHex len) s) .interpret)

/-- ENC.hex completes for a string of digits when the explicit length is absent or 4 times the
count: group j of RES has the value of digit j; an explicit length that is no multiple of 4 answers
InvalidLength; a bad digit, or else another length, answers ValueError. -/
def Obligations.EncHexWritesFourBitsADigit : Prop :=
  HasWords .encHex 0x41 ∧
  ∀ (s : State) (len : Option Nat),
    ((∀ c ∈ s.req.val.str, ∃ x, HexDigit c x) → LenFor len (4 * s.req.val.str.length) →
      ∃ b : Bits, AnswersBits s (exec (.encHex len) s) b ∧ b.length = 4 * s.req.val.str.length ∧
        ∀ j c x, s.req.val.str[j]? = some c → HexDigit c x → bigValue (groupAt 4 j b) = x) ∧
    (∀ n, len = some n → n % 4 ≠ 0 → AnswersError s (exec (.encHex len) s) .invalidLength) ∧
    ((∀ n, len = some n → n % 4 = 0) → (∃ c ∈ s.req.val.str, ∀ x, ¬ HexDigit c x) →
      AnswersError s (exec (.encHex len) s) .value) ∧
    ((∀ n, len = some n → n % 4 = 0) → (∀ c ∈ s.req.val.str, ∃ x, HexDigit c x) →
      ¬ LenFor len (4 * s.req.val.str.length) → AnswersError s (exec (.encHex len) s) .value)

/-- DEC.oct completes for a view of a multiple of 3 bits whose explicit length is absent or agrees:
character j is the digit of the magnitude of group j; an explicit length that is no multiple of 3
answers InvalidLength, one that differs from the view InterpretError, and a view that is no multiple
of 3 bits InterpretError. -/
def Obligations.DecOctReadsGroupsOfThree : Prop :=
  HasWords .decOct 0x02 ∧
  ∀ (s : State) (len : Option Nat),
    (s.req.view.length % 3 = 0 → LenFor len s.req.view.length →
      ∃ S : Str, AnswersValue s (exec (.decOct len) s) (.str S) ∧
        3 * S.length = s.req.view.length ∧
        ∀ j, j < S.length → S[j]? = hexAlphabet[bigValue (groupAt 3 j s.req.view)]?) ∧
    (∀ n, len = some n → n % 3 ≠ 0 → AnswersError s (exec (.decOct len) s) .invalidLength) ∧
    (∀ n, len = some n → n % 3 = 0 → n ≠ s.req.view.length →
      AnswersError s (exec (.decOct len) s) .interpret) ∧
    (len = none → s.req.view.length % 3 ≠ 0 → AnswersError s (exec (.decOct len) s) .interpret)

/-- ENC.oct completes for a string of digits when the explicit length is absent or 3 times the
count: group j of RES has the value of digit j; an explicit length that is no multiple of 3 answers
InvalidLength; a bad digit, or else another length, answers ValueError. -/
def Obligations.EncOctWritesThreeBitsADigit : Prop :=
  HasWords .encOct 0x42 ∧
  ∀ (s : State) (len : Option Nat),
    ((∀ c ∈ s.req.val.str, ∃ x, OctDigit c x) → LenFor len (3 * s.req.val.str.length) →
      ∃ b : Bits, AnswersBits s (exec (.encOct len) s) b ∧ b.length = 3 * s.req.val.str.length ∧
        ∀ j c x, s.req.val.str[j]? = some c → OctDigit c x → bigValue (groupAt 3 j b) = x) ∧
    (∀ n, len = some n → n % 3 ≠ 0 → AnswersError s (exec (.encOct len) s) .invalidLength) ∧
    ((∀ n, len = some n → n % 3 = 0) → (∃ c ∈ s.req.val.str, ∀ x, ¬ OctDigit c x) →
      AnswersError s (exec (.encOct len) s) .value) ∧
    ((∀ n, len = some n → n % 3 = 0) → (∀ c ∈ s.req.val.str, ∃ x, OctDigit c x) →
      ¬ LenFor len (3 * s.req.val.str.length) → AnswersError s (exec (.encOct len) s) .value)

/-- Whenever ENC.bin, ENC.oct or ENC.hex succeeds, the matching DEC on its result answers the string
(for hex with every upper-case letter lowered); and ENC of what DEC answered gives the view. -/
def Obligations.StringCodecsRoundTrip : Prop :=
  ∀ s t s' : State, s'.req.view = t.rsp.res → t.rsp.status = 0 →
    (exec (.encBin none) s = .next t →
      AnswersValue s' (exec (.decBin none) s') (.str s.req.val.str)) ∧
    (exec (.encOct none) s = .next t →
      AnswersValue s' (exec (.decOct none) s') (.str s.req.val.str)) ∧
    (exec (.encHex none) s = .next t →
      AnswersValue s' (exec (.decHex none) s') (.str (s.req.val.str.map fun c =>
        if 0x41 ≤ c.toNat ∧ c.toNat ≤ 0x46 then c + 0x20 else c))) ∧
    (∀ s'' u : State, .str s''.req.val.str = u.rsp.rval → u.rsp.status = 0 →
      (exec (.decBin none) s = .next u →
        AnswersBits s'' (exec (.encBin none) s'') s.req.view) ∧
      (exec (.decOct none) s = .next u →
        AnswersBits s'' (exec (.encOct none) s'') s.req.view) ∧
      (exec (.decHex none) s = .next u →
        AnswersBits s'' (exec (.encHex none) s'') s.req.view))

/-- For each of the four qualifiers, DEC.uint completes for a non-empty view, of whole bytes under a
byte-wise qualifier, whose explicit length is absent or agrees: RVAL is the field's value, bytes
read in the qualifier's order; LEN 0 answers InvalidLength, a differing LEN or the empty view
InterpretError, a view of no whole bytes under a byte-wise qualifier ValueError. -/
def Obligations.DecUintReadsTheMagnitude : Prop :=
  ∀ e : Endian, HasWords (decUintOf e) (0x03 + 16 * endCode e) ∧
  ∀ (s : State) (len : Option Nat),
    (s.req.view ≠ [] → (e ≠ .bitwise → s.req.view.length % 8 = 0) →
      LenFor len s.req.view.length →
      AnswersValue s (exec (decUintOf e len) s) (.int (fieldValue e s.cfg.hostEndian s.req.view))) ∧
    (len = some 0 → AnswersError s (exec (decUintOf e len) s) .invalidLength) ∧
    (∀ n, len = some n → 0 < n → n ≠ s.req.view.length →
      AnswersError s (exec (decUintOf e len) s) .interpret) ∧
    (len = none → s.req.view = [] → AnswersError s (exec (decUintOf e len) s) .interpret) ∧
    (s.req.view ≠ [] → LenFor len s.req.view.length → e ≠ .bitwise →
      s.req.view.length % 8 ≠ 0 → AnswersError s (exec (decUintOf e len) s) .value)

/-- For each of the four qualifiers, ENC.uint with an explicit length n > 0, of whole bytes under a
byte-wise qualifier, completes for every value in range: RES has n bits and its field, bytes read in
the qualifier's order, has the value; no length or LEN 0 answers InvalidLength; a length of no whole
bytes or a value out of range answers ValueError. -/
def Obligations.EncUintWritesTheMagnitude : Prop :=
  ∀ e : Endian, HasWords (encUintOf e) (0x43 + 16 * endCode e) ∧
  ∀ (s : State) (len : Option Nat),
    (∀ n, len = some n → 0 < n → (e ≠ .bitwise → n % 8 = 0) →
      0 ≤ s.req.val.int → s.req.val.int < 2 ^ n →
      ∃ b : Bits, AnswersBits s (exec (encUintOf e len) s) b ∧ b.length = n ∧
        (fieldValue e s.cfg.hostEndian b : Int) = s.req.val.int) ∧
    (len = none ∨ len = some 0 → AnswersError s (exec (encUintOf e len) s) .invalidLength) ∧
    (∀ n, len = some n → 0 < n →
      (e ≠ .bitwise ∧ n % 8 ≠ 0) ∨ s.req.val.int < 0 ∨ 2 ^ n ≤ s.req.val.int →
      AnswersError s (exec (encUintOf e len) s) .value)

/-- For each of the four qualifiers, DEC.int completes for a non-empty view, of whole bytes under a
byte-wise qualifier, whose explicit length is absent or agrees: RVAL is the field's value, bytes
read in the qualifier's order; LEN 0 answers InvalidLength, a differing LEN or the empty view
InterpretError, a view of no whole bytes under a byte-wise qualifier ValueError. -/
def Obligations.DecIntReadsTwosComplement : Prop :=
  ∀ e : Endian, HasWords (decIntOf e) (0x04 + 16 * endCode e) ∧
  ∀ (s : State) (len : Option Nat),
    (s.req.view ≠ [] → (e ≠ .bitwise → s.req.view.length % 8 = 0) →
      LenFor len s.req.view.length →
      AnswersValue s (exec (decIntOf e len) s) (.int (signedOf s.req.view.length (fieldValue e s.cfg.hostEndian s.req.view)))) ∧
    (len = some 0 → AnswersError s (exec (decIntOf e len) s) .invalidLength) ∧
    (∀ n, len = some n → 0 < n → n ≠ s.req.view.length →
      AnswersError s (exec (decIntOf e len) s) .interpret) ∧
    (len = none → s.req.view = [] → AnswersError s (exec (decIntOf e len) s) .interpret) ∧
    (s.req.view ≠ [] → LenFor len s.req.view.length → e ≠ .bitwise →
      s.req.view.length % 8 ≠ 0 → AnswersError s (exec (decIntOf e len) s) .value)

/-- For each of the four qualifiers, ENC.int with an explicit length n > 0, of whole bytes under a
byte-wise qualifier, completes for every value in range: RES has n bits and its field, bytes read in
the qualifier's order, has the value; no length or LEN 0 answers InvalidLength; a length of no whole
bytes or a value out of range answers ValueError. -/
def Obligations.EncIntWritesTwosComplement : Prop :=
  ∀ e : Endian, HasWords (encIntOf e) (0x44 + 16 * endCode e) ∧
  ∀ (s : State) (len : Option Nat),
    (∀ n, len = some n → 0 < n → (e ≠ .bitwise → n % 8 = 0) →
      -2 ^ (n - 1) ≤ s.req.val.int → s.req.val.int < 2 ^ (n - 1) →
      ∃ b : Bits, AnswersBits s (exec (encIntOf e len) s) b ∧ b.length = n ∧
        signedOf n (fieldValue e s.cfg.hostEndian b) = s.req.val.int) ∧
    (len = none ∨ len = some 0 → AnswersError s (exec (encIntOf e len) s) .invalidLength) ∧
    (∀ n, len = some n → 0 < n →
      (e ≠ .bitwise ∧ n % 8 ≠ 0) ∨ s.req.val.int < -2 ^ (n - 1) ∨ 2 ^ (n - 1) ≤ s.req.val.int →
      AnswersError s (exec (encIntOf e len) s) .value)

/-- Whenever ENC.uint or ENC.int at (n, END) succeeds, DEC under the same qualifier on its result
answers the value encoded; and whenever DEC succeeds on a view, ENC at the view's length of the
value answers the view. -/
def Obligations.IntegerCodecsRoundTrip : Prop :=
  ∀ (e : Endian) (s t s' : State), s'.cfg = s.cfg → t.rsp.status = 0 →
    (∀ (n : Nat) (len : Option Nat), s'.req.view = t.rsp.res → LenFor len n →
      (exec (encUintOf e (some n)) s = .next t →
        AnswersValue s' (exec (decUintOf e len) s') (.int s.req.val.int)) ∧
      (exec (encIntOf e (some n)) s = .next t →
        AnswersValue s' (exec (decIntOf e len) s') (.int s.req.val.int))) ∧
    (∀ len : Option Nat, .int s'.req.val.int = t.rsp.rval →
      (exec (decUintOf e len) s = .next t →
        AnswersBits s' (exec (encUintOf e (some s.req.view.length)) s') s.req.view) ∧
      (exec (decIntOf e len) s = .next t →
        AnswersBits s' (exec (encIntOf e (some s.req.view.length)) s') s.req.view))

/-- For a view of whole bytes, DEC.uintbe and DEC.intbe answer what DEC.uintle and DEC.intle answer
on the byte-reversed view, and what the bit-wise decoders answer on the view; the ne decoders answer
what be answers on a big-endian host and what le answers on a little-endian one. -/
def Obligations.ByteOrdersAgreeUpToReversal : Prop :=
  ∀ (s s' : State) (v : Value), s.req.view.length % 8 = 0 →
    (s'.req.view = byteRev s.req.view →
      (AnswersValue s (exec (.decUintbe none) s) v ↔
        AnswersValue s' (exec (.decUintle none) s') v) ∧
      (AnswersValue s (exec (.decIntbe none) s) v ↔
        AnswersValue s' (exec (.decIntle none) s') v)) ∧
    (AnswersValue s (exec (.decUintbe none) s) v ↔ AnswersValue s (exec (.decUint none) s) v) ∧
    (AnswersValue s (exec (.decIntbe none) s) v ↔ AnswersValue s (exec (.decInt none) s) v) ∧
    (s.cfg.hostEndian = .big →
      (AnswersValue s (exec (.decUintne none) s) v ↔
        AnswersValue s (exec (.decUintbe none) s) v) ∧
      (AnswersValue s (exec (.decIntne none) s) v ↔
        AnswersValue s (exec (.decIntbe none) s) v)) ∧
    (s.cfg.hostEndian = .little →
      (AnswersValue s (exec (.decUintne none) s) v ↔
        AnswersValue s (exec (.decUintle none) s) v) ∧
      (AnswersValue s (exec (.decIntne none) s) v ↔
        AnswersValue s (exec (.decIntle none) s) v))

/-- For each qualifier, DEC.float completes for a view of 16, 32 or 64 bits whose explicit length is
absent or agrees: at 64 RVAL is the view's word, at 32 and 16 the word of the same sign and exactly
the same value (infinity to infinity, NaN to a NaN); a bad explicit length answers InvalidLength, a
differing one or a bad view InterpretError. -/
def Obligations.DecFloatWidensExactly : Prop :=
  ∀ e : Endian, HasWords (decFloatOf e) (0x05 + 16 * endCode e) ∧
  ∀ (s : State) (len : Option Nat),
    (s.req.view.length = 16 ∨ s.req.view.length = 32 ∨ s.req.view.length = 64 →
      LenFor len s.req.view.length →
      ∃ d : Flt64, AnswersValue s (exec (decFloatOf e len) s) (.flt d) ∧
        (s.req.view.length = 64 → d.toNat = fieldValue e s.cfg.hostEndian s.req.view) ∧
        (s.req.view.length = 32 →
          WidensTo 8 23 (fieldValue e s.cfg.hostEndian s.req.view) d.toNat) ∧
        (s.req.view.length = 16 →
          WidensTo 5 10 (fieldValue e s.cfg.hostEndian s.req.view) d.toNat)) ∧
    (∀ n, len = some n → n ≠ 16 ∧ n ≠ 32 ∧ n ≠ 64 →
      AnswersError s (exec (decFloatOf e len) s) .invalidLength) ∧
    (∀ n, len = some n → n = 16 ∨ n = 32 ∨ n = 64 → n ≠ s.req.view.length →
      AnswersError s (exec (decFloatOf e len) s) .interpret) ∧
    (len = none →
      s.req.view.length ≠ 16 ∧ s.req.view.length ≠ 32 ∧ s.req.view.length ≠ 64 →
      AnswersError s (exec (decFloatOf e len) s) .interpret)

/-- For each qualifier: at 64 the field of RES is the operand word; at 32 and 16 it is a NaN for a
NaN, the infinity of the sign for an infinity, and for a finite operand below the overflow threshold
the finite word of the sign nearest to it, of two equally near the even one; a finite operand at or
beyond the threshold answers ValueError; no length or a length other than 16, 32, 64 answers
InvalidLength. -/
def Obligations.EncFloatRoundsToNearest : Prop :=
  ∀ e : Endian, HasWords (encFloatOf e) (0x45 + 16 * endCode e) ∧
  ∀ (s : State) (len : Option Nat),
    let d := s.req.val.flt.toNat
    (len = some 64 →
      ∃ b : Bits, AnswersBits s (exec (encFloatOf e len) s) b ∧ b.length = 64 ∧
        fieldValue e s.cfg.hostEndian b = d) ∧
    (len = some 32 → ¬ (FiniteWord 11 52 d ∧ overflowBound 8 23 ≤ floatAbs 11 52 d) →
      ∃ b : Bits, AnswersBits s (exec (encFloatOf e len) s) b ∧ b.length = 32 ∧
        NarrowsTo 8 23 d (fieldValue e s.cfg.hostEndian b)) ∧
    (len = some 16 → ¬ (FiniteWord 11 52 d ∧ overflowBound 5 10 ≤ floatAbs 11 52 d) →
      ∃ b : Bits, AnswersBits s (exec (encFloatOf e len) s) b ∧ b.length = 16 ∧
        NarrowsTo 5 10 d (fieldValue e s.cfg.hostEndian b)) ∧
    (len = some 32 → FiniteWord 11 52 d → overflowBound 8 23 ≤ floatAbs 11 52 d →
      AnswersError s (exec (encFloatOf e len) s) .value) ∧
    (len = some 16 → FiniteWord 11 52 d → overflowBound 5 10 ≤ floatAbs 11 52 d →
      AnswersError s (exec (encFloatOf e len) s) .value) ∧
    (len ≠ some 16 ∧ len ≠ some 32 ∧ len ≠ some 64 →
      AnswersError s (exec (encFloatOf e len) s) .invalidLength)

/-- Under every qualifier, for a view of 16, 32 or 64 bits (not a NaN at 16 and 32), ENC.float at
that length of the value DEC.float answers is the view. -/
def Obligations.FloatCodecsRoundTrip : Prop :=
  ∀ (e : Endian) (s t s' : State), exec (decFloatOf e none) s = .next t →
    t.rsp.rval = .flt s'.req.val.flt → t.rsp.status = 0 → s'.cfg = s.cfg →
    (s.req.view.length = 16 → ¬ NanWord 5 10 (fieldValue e s.cfg.hostEndian s.req.view)) →
    (s.req.view.length = 32 → ¬ NanWord 8 23 (fieldValue e s.cfg.hostEndian s.req.view)) →
    AnswersBits s' (exec (encFloatOf e (some s.req.view.length)) s') s.req.view

/-- Whatever the open parameters are, NaNNarrow of a NaN is a NaN of binary16 or binary32 (for
binary32 with its upper half a NaN too: DEDUCED, log entry 12), NaNWiden of a NaN is a NaN of
binary64; FMT_A and FMT_B meet R205's constraints (and the two laws of log entry 11), as do the
default and the alternative instantiation. -/
def Obligations.OpenParametersKeepTheirLaws : Prop :=
  (∀ d, NanWord 11 52 d → NanWord 5 10 (nanNarrow 5 10 d) ∧ NanWord 8 23 (nanNarrow 8 23 d) ∧
    NanWord 8 7 (nanNarrow 8 23 d / 2 ^ 16)) ∧
  (∀ p, NanWord 5 10 p → NanWord 11 52 (nanWiden 5 10 p)) ∧
  (∀ p, NanWord 8 23 p → NanWord 11 52 (nanWiden 8 23 p)) ∧
  miniLaw 4 3 fmtA = true ∧ noInfinity fmtA = true ∧ miniLaw 5 2 fmtB = true ∧
  miniLaw 4 3 defaultA = true ∧ noInfinity defaultA = true ∧ miniLaw 5 2 defaultB = true ∧
  miniLaw 4 3 alternativeA = true ∧ noInfinity alternativeA = true ∧
  miniLaw 5 2 alternativeB = true

/-- For each qualifier, DEC.bfloat completes for a view of 16 bits with no explicit length or 16:
RVAL is the binary64 word of the same sign and exactly the same value as the 16-bit word read as
sign, 8 exponent and 7 mantissa bits, the upper half of a binary32 word (infinity to infinity, NaN
to a NaN); another explicit length answers InvalidLength, another view InterpretError. -/
def Obligations.DecBfloatIsTheUpperHalf : Prop :=
  ∀ e : Endian, HasWords (decBfloatOf e) (0x06 + 16 * endCode e) ∧
  ∀ (s : State) (len : Option Nat),
    (s.req.view.length = 16 → LenFor len 16 →
      ∃ d : Flt64, AnswersValue s (exec (decBfloatOf e len) s) (.flt d) ∧
        WidensTo 8 7 (fieldValue e s.cfg.hostEndian s.req.view) d.toNat ∧
        WidensTo 8 23 (fieldValue e s.cfg.hostEndian s.req.view * 2 ^ 16) d.toNat) ∧
    (∀ n, len = some n → n ≠ 16 → AnswersError s (exec (decBfloatOf e len) s) .invalidLength) ∧
    (s.req.view.length ≠ 16 → LenFor len 16 →
      AnswersError s (exec (decBfloatOf e len) s) .interpret)

/-- For each qualifier, ENC.bfloat with no explicit length or 16 completes with 16 bits whose field
is the word of the operand under the policy BF_ROUND; another length answers InvalidLength. Under
either policy that word is a NaN for a NaN (of the 16-bit layout: DEDUCED, log entry 12), the
infinity of the sign for an infinity, and for a finite operand a finite word of its sign: 0x7F7F in
magnitude when the operand overflows binary32; else, with p the nearest binary32 word, the upper
half of p under truncate, and under rne the 16-bit word nearest to p, ties to even, or 0x7F7F in
magnitude when that would round to the infinity. -/
def Obligations.EncBfloatRoundsAndSaturates : Prop :=
  (∀ e : Endian, HasWords (encBfloatOf e) (0x46 + 16 * endCode e) ∧
    ∀ (s : State) (len : Option Nat),
      (LenFor len 16 →
        ∃ b : Bits, AnswersBits s (exec (encBfloatOf e len) s) b ∧ b.length = 16 ∧
          fieldValue e s.cfg.hostEndian b = bfloatWord Config.bfRound s.req.val.flt.toNat) ∧
      (∀ n, len = some n → n ≠ 16 →
        AnswersError s (exec (encBfloatOf e len) s) .invalidLength)) ∧
  (∀ (r : BfRound) (d : Nat), d < 2 ^ 64 →
    (NanWord 11 52 d → NanWord 8 7 (bfloatWord r d)) ∧
    (InfiniteWord 11 52 d →
      InfiniteWord 8 7 (bfloatWord r d) ∧ wordSign 8 7 (bfloatWord r d) = wordSign 11 52 d) ∧
    (FiniteWord 11 52 d →
      FiniteWord 8 7 (bfloatWord r d) ∧ wordSign 8 7 (bfloatWord r d) = wordSign 11 52 d ∧
      (overflowBound 8 23 ≤ floatAbs 11 52 d → bfloatWord r d % 2 ^ 15 = 0x7F7F) ∧
      (floatAbs 11 52 d < overflowBound 8 23 → ∃ p, NarrowsTo 8 23 d p ∧
        (r = .truncate → bfloatWord r d = p / 2 ^ 16) ∧
        (r = .rne → overflowBound 8 7 ≤ floatAbs 8 23 p → bfloatWord r d % 2 ^ 15 = 0x7F7F) ∧
        (r = .rne → floatAbs 8 23 p < overflowBound 8 7 →
          NearestWord 8 7 (floatAbs 8 23 p) (bfloatWord r d)))))

/-- For every non-NaN 16-bit word, encoding its decoded value under either policy gives the word; so
under every qualifier ENC.bfloat of the value DEC.bfloat answers is the view. -/
def Obligations.BfloatCodecRoundTrips : Prop :=
  (∀ (r : BfRound) (h : Nat), h < 2 ^ 16 → ¬ NanWord 8 7 h → bfloatWord r (bfloatValue h) = h) ∧
  (∀ (e : Endian) (s t s' : State), exec (decBfloatOf e none) s = .next t →
    t.rsp.rval = .flt s'.req.val.flt → t.rsp.status = 0 → s'.cfg = s.cfg →
    ¬ NanWord 8 7 (fieldValue e s.cfg.hostEndian s.req.view) →
    AnswersBits s' (exec (encBfloatOf e none) s') s.req.view)

/-- DEC.e4m3float and DEC.e5m2float complete for a view of 8 bits with no explicit length or 8: RVAL
is the decoding of the code the view spells, in FMT_A and FMT_B; another explicit length answers
InvalidLength, another view InterpretError. -/
def Obligations.DecMinifloatsAnswerTheDecodedCode : Prop :=
  HasWords .decE4m3float 0x07 ∧ HasWords .decE5m2float 0x08 ∧
  ∀ (s : State) (len : Option Nat),
    (s.req.view.length = 8 → LenFor len 8 →
      AnswersValue s (exec (.decE4m3float len) s)
        (.flt (BitVec.ofNat 64 (miniDecode fmtA (BitVec.ofNat 8 (bigValue s.req.view))))) ∧
      AnswersValue s (exec (.decE5m2float len) s)
        (.flt (BitVec.ofNat 64 (miniDecode fmtB (BitVec.ofNat 8 (bigValue s.req.view)))))) ∧
    (∀ n, len = some n → n ≠ 8 →
      AnswersError s (exec (.decE4m3float len) s) .invalidLength ∧
      AnswersError s (exec (.decE5m2float len) s) .invalidLength) ∧
    (s.req.view.length ≠ 8 → LenFor len 8 →
      AnswersError s (exec (.decE4m3float len) s) .interpret ∧
      AnswersError s (exec (.decE5m2float len) s) .interpret)

/-- ENC.e4m3float and ENC.e5m2float complete for every operand word with no explicit length or 8:
RES is eight bits that spell the code of the operand in FMT_A and FMT_B; another explicit length
answers InvalidLength. -/
def Obligations.EncMinifloatsAnswerTheEncodedCode : Prop :=
  HasWords .encE4m3float 0x47 ∧ HasWords .encE5m2float 0x48 ∧
  ∀ (s : State) (len : Option Nat),
    (LenFor len 8 →
      (∃ b : Bits, AnswersBits s (exec (.encE4m3float len) s) b ∧ b.length = 8 ∧
        bigValue b = (miniEncode fmtA s.req.val.flt.toNat).toNat) ∧
      (∃ b : Bits, AnswersBits s (exec (.encE5m2float len) s) b ∧ b.length = 8 ∧
        bigValue b = (miniEncode fmtB s.req.val.flt.toNat).toNat)) ∧
    (∀ n, len = some n → n ≠ 8 →
      AnswersError s (exec (.encE4m3float len) s) .invalidLength ∧
      AnswersError s (exec (.encE5m2float len) s) .invalidLength)

/-- For every format that keeps the laws of R205 (and the two laws of log entry 11), MiniDecode of
an ordinary code is a finite binary64 word of the code's sign and exactly its value; NaN codes give
the canonical NaN, infinity codes the infinities. -/
def Obligations.MinifloatDecodeIsExact : Prop :=
  ∀ F : MiniFormat, miniLaw 4 3 F = true ∨ miniLaw 5 2 F = true →
    ∀ c : Byte, MiniDecodesTo F c (miniDecode F c)

/-- For every format that keeps the laws of R205 (and the two laws of log entry 11) and every
binary64 word: a NaN gives nan_enc; an infinity or a magnitude at or beyond MAXV gives the greatest
finite code; any other magnitude the nearest code, of two equally near the even one; with the
operand's sign, but 0x00 where the signed code is special. -/
def Obligations.MinifloatEncodeIsNearest : Prop :=
  ∀ F : MiniFormat, miniLaw 4 3 F = true ∨ miniLaw 5 2 F = true →
    ∀ d, d < 2 ^ 64 → MiniEncodesTo F d (miniEncode F d)

/-- For every lawful format (the laws of R205 and of log entry 11): every ordinary code, of either
sign, has a magnitude code up to MAXC and comes back from decode then encode; a NaN code comes back
as nan_enc; an infinity code as the greatest finite code of its sign (for the negative infinity,
where that code is not zero); an operand of an ordinary value keeps its value, and its sign when it
is not zero; and for every non-NaN operand the encoded code decodes to a finite word of magnitude at
most MAXV. -/
def Obligations.MinifloatCodecRoundTrips : Prop :=
  ∀ F : MiniFormat, miniLaw 4 3 F = true ∨ miniLaw 5 2 F = true →
    (∀ c : Byte, specialOf F c = none →
      c.toNat % 128 ≤ maxCode F ∧ miniEncode F (miniDecode F c) = c) ∧
    (∀ c : Byte, specialOf F c = some .nan → miniEncode F (miniDecode F c) = F.nanEnc) ∧
    (∀ c : Byte, specialOf F c = some .posInf →
      (miniEncode F (miniDecode F c)).toNat = maxCode F) ∧
    (∀ c : Byte, specialOf F c = some .negInf → 0 < maxCode F →
      (miniEncode F (miniDecode F c)).toNat = 128 + maxCode F) ∧
    (∀ d g, d < 2 ^ 64 → FiniteWord 11 52 d → g ≤ maxCode F → floatAbs 11 52 d = miniAbsQ F g →
      floatAbs 11 52 (miniDecode F (miniEncode F d)) = floatAbs 11 52 d ∧
      (0 < g → wordSign 11 52 (miniDecode F (miniEncode F d)) = wordSign 11 52 d)) ∧
    (∀ d, d < 2 ^ 64 → ¬ NanWord 11 52 d →
      FiniteWord 11 52 (miniDecode F (miniEncode F d)) ∧
      floatAbs 11 52 (miniDecode F (miniEncode F d)) ≤ miniAbsQ F (maxCode F))

/-- DEC.bytes completes for a view of whole bytes whose explicit length is absent or agrees: byte j
is the magnitude of bits 8j to 8j+7; an explicit length of no whole bytes answers InvalidLength, a
differing one InterpretError, a view of no whole bytes ValueError. -/
def Obligations.DecBytesExtractsWholeBytes : Prop :=
  HasWords .decBytes 0x09 ∧
  ∀ (s : State) (len : Option Nat),
    (s.req.view.length % 8 = 0 → LenFor len s.req.view.length →
      ∃ B : List Byte, AnswersValue s (exec (.decBytes len) s) (.byt B) ∧
        8 * B.length = s.req.view.length ∧
        ∀ j x, B[j]? = some x → x.toNat = bigValue (groupAt 8 j s.req.view)) ∧
    (∀ n, len = some n → n % 8 ≠ 0 → AnswersError s (exec (.decBytes len) s) .invalidLength) ∧
    (∀ n, len = some n → n % 8 = 0 → n ≠ s.req.view.length →
      AnswersError s (exec (.decBytes len) s) .interpret) ∧
    (len = none → s.req.view.length % 8 ≠ 0 → AnswersError s (exec (.decBytes len) s) .value)

/-- ENC.bytes completes for every byte sequence when the explicit length is absent or 8 times the
count: group j of RES has the value of byte j; an explicit length of no whole bytes answers
InvalidLength, any other ValueError. -/
def Obligations.EncBytesWritesEightBitsAByte : Prop :=
  HasWords .encBytes 0x49 ∧
  ∀ (s : State) (len : Option Nat),
    (LenFor len (8 * s.req.val.byt.length) →
      ∃ b : Bits, AnswersBits s (exec (.encBytes len) s) b ∧ b.length = 8 * s.req.val.byt.length ∧
        ∀ j x, s.req.val.byt[j]? = some x → bigValue (groupAt 8 j b) = x.toNat) ∧
    (∀ n, len = some n → n % 8 ≠ 0 → AnswersError s (exec (.encBytes len) s) .invalidLength) ∧
    (∀ n, len = some n → n % 8 = 0 → n ≠ 8 * s.req.val.byt.length →
      AnswersError s (exec (.encBytes len) s) .value)

/-- PAD.bytes completes for every view without an explicit length: RVAL has ceil(n/8) bytes, which
are the bytes of the view followed by the fewest zero bits that make it whole bytes; an explicit
length answers InvalidLength. -/
def Obligations.PadBytesPadsAtTheEnd : Prop :=
  HasWords .padBytes 0xC9 ∧
  ∀ s : State,
    (∃ (B : List Byte) (k : Nat), AnswersValue s (exec (.padBytes none) s) (.byt B) ∧
      k < 8 ∧ 8 * B.length = s.req.view.length + k ∧
      ∀ j x, B[j]? = some x →
        x.toNat = bigValue (groupAt 8 j (s.req.view ++ List.replicate k false))) ∧
    (∀ n, AnswersError s (exec (.padBytes (some n)) s) .invalidLength)

/-- DEC.bytes of what ENC.bytes wrote is the byte sequence; ENC.bytes of what DEC.bytes read is the
view; on whole bytes PAD and DEC answer the same; ENC.bytes of what PAD answered is the view and
then fewer than 8 zeros up to whole bytes; the hex digits of the view are those of the bytes, and
DEC.uintbe is the base-256 number of the bytes, byte 0 most significant. -/
def Obligations.BytesCodecLaws : Prop :=
  ∀ s t s' : State, t.rsp.status = 0 →
    (exec (.encBytes none) s = .next t → s'.req.view = t.rsp.res →
      AnswersValue s' (exec (.decBytes none) s') (.byt s.req.val.byt)) ∧
    (exec (.decBytes none) s = .next t → .byt s'.req.val.byt = t.rsp.rval →
      AnswersBits s' (exec (.encBytes none) s') s.req.view) ∧
    (s.req.view.length % 8 = 0 → ∀ v,
      AnswersValue s (exec (.padBytes none) s) v ↔ AnswersValue s (exec (.decBytes none) s) v) ∧
    (exec (.padBytes none) s = .next t → .byt s'.req.val.byt = t.rsp.rval →
      AnswersBits s' (exec (.encBytes none) s')
        (s.req.view ++ List.replicate ((8 - s.req.view.length % 8) % 8) false)) ∧
    (∀ B : List Byte, exec (.decBytes none) s = .next t → t.rsp.rval = .byt B →
      (∃ S : Str, AnswersValue s (exec (.decHex none) s) (.str S) ∧
        ∀ j x, B[j]? = some x →
          S[2 * j]? = hexAlphabet[x.toNat / 16]? ∧ S[2 * j + 1]? = hexAlphabet[x.toNat % 16]?) ∧
      (B ≠ [] → AnswersValue s (exec (.decUintbe none) s)
        (.int (Nat.ofDigits 256 (B.reverse.map fun x => x.toNat)))))

/-- ENC.ue completes for every n >= 0 with the code whose number is n, and answers ValueError for a
negative n; ENC.se completes for every integer with the code of the number R233 folds it to; an
explicit length answers InvalidLength. -/
def Obligations.EncPlainCodesWriteZerosThenNumber : Prop :=
  HasWords .encUe 0x4A ∧ HasWords .encSe 0x4B ∧
  ∀ s : State,
    (0 ≤ s.req.val.int → ∃ p : Bits, AnswersBits s (exec (.encUe none) s) (plainCode p) ∧
      (codeNumber p : Int) = s.req.val.int) ∧
    (s.req.val.int < 0 → AnswersError s (exec (.encUe none) s) .value) ∧
    (∃ p : Bits, AnswersBits s (exec (.encSe none) s) (plainCode p) ∧
      FoldsTo s.req.val.int (codeNumber p)) ∧
    (∀ n, AnswersError s (exec (.encUe (some n)) s) .invalidLength ∧
      AnswersError s (exec (.encSe (some n)) s) .invalidLength)

/-- ENC.uie completes for every n >= 0 with the code whose number is n, and answers ValueError for a
negative n; ENC.sie completes for every integer with the code of the number R233 folds it to; an
explicit length answers InvalidLength. -/
def Obligations.EncInterleavedCodesWritePairs : Prop :=
  HasWords .encUie 0x4C ∧ HasWords .encSie 0x4D ∧
  ∀ s : State,
    (0 ≤ s.req.val.int → ∃ p : Bits, AnswersBits s (exec (.encUie none) s) (interleavedCode p) ∧
      (codeNumber p : Int) = s.req.val.int) ∧
    (s.req.val.int < 0 → AnswersError s (exec (.encUie none) s) .value) ∧
    (∃ p : Bits, AnswersBits s (exec (.encSie none) s) (interleavedCode p) ∧
      FoldsTo s.req.val.int (codeNumber p)) ∧
    (∀ n, AnswersError s (exec (.encUie (some n)) s) .invalidLength ∧
      AnswersError s (exec (.encSie (some n)) s) .invalidLength)

/-- DEC.ue and DEC.se complete on a view that is exactly one code, with its number, or the integer
that folds to it; any other view (empty, truncated, with bits left over) answers InterpretError; an
explicit length answers InvalidLength. -/
def Obligations.DecPlainCodesAreExact : Prop :=
  HasWords .decUe 0x0A ∧ HasWords .decSe 0x0B ∧
  ∀ s : State,
    (∀ p : Bits, s.req.view = plainCode p →
      AnswersValue s (exec (.decUe none) s) (.int (codeNumber p)) ∧
      ∃ n : Int, FoldsTo n (codeNumber p) ∧ AnswersValue s (exec (.decSe none) s) (.int n)) ∧
    ((∀ p : Bits, s.req.view ≠ plainCode p) →
      AnswersError s (exec (.decUe none) s) .interpret ∧
      AnswersError s (exec (.decSe none) s) .interpret) ∧
    (∀ n, AnswersError s (exec (.decUe (some n)) s) .invalidLength ∧
      AnswersError s (exec (.decSe (some n)) s) .invalidLength)

/-- DEC.uie and DEC.sie complete on a view that is exactly one code, with its number, or the integer
that folds to it; any other view (empty, truncated, with bits left over) answers InterpretError; an
explicit length answers InvalidLength. -/
def Obligations.DecInterleavedCodesAreExact : Prop :=
  HasWords .decUie 0x0C ∧ HasWords .decSie 0x0D ∧
  ∀ s : State,
    (∀ p : Bits, s.req.view = interleavedCode p →
      AnswersValue s (exec (.decUie none) s) (.int (codeNumber p)) ∧
      ∃ n : Int, FoldsTo n (codeNumber p) ∧ AnswersValue s (exec (.decSie none) s) (.int n)) ∧
    ((∀ p : Bits, s.req.view ≠ interleavedCode p) →
      AnswersError s (exec (.decUie none) s) .interpret ∧
      AnswersError s (exec (.decSie none) s) .interpret) ∧
    (∀ n, AnswersError s (exec (.decUie (some n)) s) .invalidLength ∧
      AnswersError s (exec (.decSie (some n)) s) .invalidLength)

/-- DECS.ue and DECS.se complete on every view that starts with a code, whatever follows, with its
number, or the integer that folds to it, and the length of the code in CONSUMED; any other view
answers InterpretError; an explicit length answers InvalidLength. -/
def Obligations.DecsPlainCodesLeaveTheRest : Prop :=
  HasWords .decsUe 0x8A ∧ HasWords .decsSe 0x8B ∧
  ∀ s : State,
    (∀ p rest : Bits, s.req.view = plainCode p ++ rest →
      AnswersStream s (exec (.decsUe none) s) (.int (codeNumber p)) (2 * p.length + 1) ∧
      ∃ n : Int, FoldsTo n (codeNumber p) ∧
        AnswersStream s (exec (.decsSe none) s) (.int n) (2 * p.length + 1)) ∧
    ((∀ p rest : Bits, s.req.view ≠ plainCode p ++ rest) →
      AnswersError s (exec (.decsUe none) s) .interpret ∧
      AnswersError s (exec (.decsSe none) s) .interpret) ∧
    (∀ n, AnswersError s (exec (.decsUe (some n)) s) .invalidLength ∧
      AnswersError s (exec (.decsSe (some n)) s) .invalidLength)

/-- DECS.uie and DECS.sie complete on every view that starts with a code, whatever follows, with its
number, or the integer that folds to it, and the length of the code in CONSUMED; any other view
answers InterpretError; an explicit length answers InvalidLength. -/
def Obligations.DecsInterleavedCodesLeaveTheRest : Prop :=
  HasWords .decsUie 0x8C ∧ HasWords .decsSie 0x8D ∧
  ∀ s : State,
    (∀ p rest : Bits, s.req.view = interleavedCode p ++ rest →
      AnswersStream s (exec (.decsUie none) s) (.int (codeNumber p)) (2 * p.length + 1) ∧
      ∃ n : Int, FoldsTo n (codeNumber p) ∧
        AnswersStream s (exec (.decsSie none) s) (.int n) (2 * p.length + 1)) ∧
    ((∀ p rest : Bits, s.req.view ≠ interleavedCode p ++ rest) →
      AnswersError s (exec (.decsUie none) s) .interpret ∧
      AnswersError s (exec (.decsSie none) s) .interpret) ∧
    (∀ n, AnswersError s (exec (.decsUie (some n)) s) .invalidLength ∧
      AnswersError s (exec (.decsSie (some n)) s) .invalidLength)

/-- For each of the four families, whenever ENC succeeds, DEC on its result answers the number, and
DECS on its result followed by any bits answers the number and consumes exactly the code; a code
that is a prefix of a code is that code, in both layouts. -/
def Obligations.ExpGolombCodesAreABijection : Prop :=
  (∀ s t s' : State, t.rsp.status = 0 →
    (exec (.encUe none) s = .next t →
      (s'.req.view = t.rsp.res →
        AnswersValue s' (exec (.decUe none) s') (.int s.req.val.int)) ∧
      (∀ rest, s'.req.view = t.rsp.res ++ rest →
        AnswersStream s' (exec (.decsUe none) s') (.int s.req.val.int) t.rsp.res.length)) ∧
    (exec (.encSe none) s = .next t →
      (s'.req.view = t.rsp.res →
        AnswersValue s' (exec (.decSe none) s') (.int s.req.val.int)) ∧
      (∀ rest, s'.req.view = t.rsp.res ++ rest →
        AnswersStream s' (exec (.decsSe none) s') (.int s.req.val.int) t.rsp.res.length)) ∧
    (exec (.encUie none) s = .next t →
      (s'.req.view = t.rsp.res →
        AnswersValue s' (exec (.decUie none) s') (.int s.req.val.int)) ∧
      (∀ rest, s'.req.view = t.rsp.res ++ rest →
        AnswersStream s' (exec (.decsUie none) s') (.int s.req.val.int) t.rsp.res.length)) ∧
    (exec (.encSie none) s = .next t →
      (s'.req.view = t.rsp.res →
        AnswersValue s' (exec (.decSie none) s') (.int s.req.val.int)) ∧
      (∀ rest, s'.req.view = t.rsp.res ++ rest →
        AnswersStream s' (exec (.decsSie none) s') (.int s.req.val.int) t.rsp.res.length))) ∧
  (∀ p q : Bits, plainCode p <+: plainCode q → p = q) ∧
  (∀ p q : Bits, interleavedCode p <+: interleavedCode q → p = q)

/-- Fold(n) is 2|n| for n <= 0 and 2n - 1 for n > 0; Unfold of Fold is the identity on every integer
and Fold of Unfold on every natural number; 0, 1, -1, 2, -2 go to 0, 1, 2, 3, 4. -/
def Obligations.SignFoldingIsABijection : Prop :=
  (∀ n : Int, FoldsTo n (foldSign n) ∧ unfoldSign (foldSign n) = n) ∧
  (∀ u : Nat, foldSign (unfoldSign u) = u) ∧
  [(0 : Int), 1, -1, 2, -2].map foldSign = [0, 1, 2, 3, 4]

/-- For a token of an exp-Golomb family without a length and a cursor within the host bits, read
presents DECS of the family on the bits from the cursor on; when that has completed, the cursor is
at the end of the code, still within the bits, after a success, and where it was after a failure.
For a token of another family with a length its row admits and so many bits left, read presents DEC
of the token on those bits, and the cursor moves past them (after a failed DEC too, which is the
choice of the model: log entry 22). With a token whose length the assembler refuses, read presents
nothing and the cursor stays (log entry 22). -/
def Obligations.ReadMovesTheCursorOverOneCode : Prop :=
  ∀ (r : Request) (token : Str) (p : ParsedToken) (v : Bits) (cursor : Nat),
    parseToken token = .ok p →
    (p.fam ∈ [Family.ue, .se, .uie, .sie] → p.len = none → cursor ≤ v.length →
      ∃ q i, readRequest r token v cursor = some (.ok q) ∧ q.view = v.drop cursor ∧
        decode q.cmd = .ok i ∧ instrFields i = (.decs, p.fam, .bitwise, none) ∧
        ∀ s t : State, s.busy = true → s.req = q → step s = .next t →
          (t.rsp.status = 0 → readCursor token cursor t = .ok (cursor + t.rsp.consumed) ∧
            0 < t.rsp.consumed ∧ cursor + t.rsp.consumed ≤ v.length) ∧
          (t.rsp.status ≠ 0 → readCursor token cursor t = .ok cursor)) ∧
    (∀ n, p.fam ∉ [Family.ue, .se, .uie, .sie] → p.len = some n → n < 2 ^ 32 →
      ¬ LengthRefused .dec p.fam (some n) → cursor + n ≤ v.length →
      ∃ q i, readRequest r token v cursor = some (.ok q) ∧ q.view = (v.drop cursor).take n ∧
        decode q.cmd = .ok i ∧ instrFields i = (.dec, p.fam, p.endian, some n) ∧
        ∀ s t : State, s.busy = true → s.req = q → step s = .next t →
          readCursor token cursor t = .ok (cursor + n)) ∧
    (∀ n, p.len = some n →
      LengthRefused (if p.fam ∈ [Family.ue, .se, .uie, .sie] then .decs else .dec) p.fam (some n) →
      cursor + n ≤ v.length →
      readRequest r token v cursor = some (.error .invalidLength) ∧
        ∀ t : State, readCursor token cursor t = .ok cursor)
end

