-- ==== Sys2Proof/Laws/Bits.lean ====
section
/-! SUPPORT. The lemmas of bit sequences: lengths, magnitude of concatenations, magnitude and its inverse
(R11 to R13). -/

namespace Sys2Proof.Machine

@[simp] theorem zeros_length (k : Nat) : (zeros k).length = k := List.length_replicate

@[simp] theorem zeros_zero : zeros 0 = [] := rfl

theorem zeros_succ (k : Nat) : zeros (k + 1) = false :: zeros k := rfl

@[simp] theorem slice_length (v : Bits) (a b : Nat) :
    (slice v a b).length = min (b - a) (v.length - a) := by
  simp [slice]

theorem slice_full (v : Bits) : slice v 0 v.length = v := by simp [slice]

/-- The fold behind `mag` started from any number. -/
theorem mag_foldl (v : Bits) (x : Nat) :
    v.foldl (fun a b => 2 * a + b.toNat) x = x * 2 ^ v.length + mag v := by
  induction v generalizing x with
  | nil => simp [mag]
  | cons b v ih =>
    have h := ih (2 * x + b.toNat)
    have h' := ih (2 * 0 + b.toNat)
    simp only [mag, List.foldl_cons] at h h' ⊢
    rw [h, h']
    simp only [List.length_cons, pow_succ]
    ring

@[simp] theorem mag_nil : mag [] = 0 := rfl

theorem mag_cons (b : Bool) (v : Bits) : mag (b :: v) = b.toNat * 2 ^ v.length + mag v := by
  have h := mag_foldl v (2 * 0 + b.toNat)
  simpa [mag] using h

theorem mag_append (u v : Bits) : mag (u ++ v) = mag u * 2 ^ v.length + mag v := by
  have h := mag_foldl v (mag u)
  rw [← h]; simp [mag]

@[simp] theorem mag_zeros (k : Nat) : mag (zeros k) = 0 := by
  induction k with
  | zero => rfl
  | succ k ih => rw [zeros_succ, mag_cons, ih]; simp

theorem mag_lt (v : Bits) : mag v < 2 ^ v.length := by
  induction v with
  | nil => simp
  | cons b v ih =>
    rw [mag_cons, List.length_cons, pow_succ]
    cases b <;> simp <;> omega

@[simp] theorem toBits_length (n x : Nat) : (toBits n x).length = n := by
  induction n with
  | zero => rfl
  | succ n ih => simp [toBits, ih]

/-- The magnitude of the n low bits of x. -/
theorem mag_toBits_mod (n x : Nat) : mag (toBits n x) = x % 2 ^ n := by
  induction n with
  | zero => simp [toBits, Nat.mod_one]
  | succ n ih =>
    rw [toBits, mag_cons, ih, toBits_length, Nat.mod_pow_succ, Nat.testBit_eq_decide_div_mod_eq]
    rcases Nat.mod_two_eq_zero_or_one (x / 2 ^ n) with h | h <;> simp [h, Nat.add_comm]

/-- `Mag(ToBits(n, x)) = x` for `x < 2^n` (R12). -/
theorem mag_toBits {n x : Nat} (h : x < 2 ^ n) : mag (toBits n x) = x := by
  rw [mag_toBits_mod, Nat.mod_eq_of_lt h]

/-- A sequence is determined by its length and its magnitude (R12). -/
theorem mag_injective {u v : Bits} (hl : u.length = v.length) (hm : mag u = mag v) : u = v := by
  induction u generalizing v with
  | nil => cases v with
    | nil => rfl
    | cons b v => simp at hl
  | cons a u ih => cases v with
    | nil => simp at hl
    | cons b v =>
      have hl' : u.length = v.length := by simpa using hl
      rw [mag_cons, mag_cons, hl'] at hm
      have hu := mag_lt u
      have hv := mag_lt v
      rw [hl'] at hu
      have hab : a = b := by cases a <;> cases b <;> simp at hm ⊢ <;> omega
      subst hab
      rw [ih hl' (by omega)]

/-- `ToBits(|V|, Mag(V)) = V` (R12). -/
theorem toBits_mag (v : Bits) : toBits v.length (mag v) = v :=
  mag_injective (by simp) (by rw [mag_toBits (mag_lt v)])

@[simp] theorem groups_length (w : Nat) (v : Bits) : (groups w v).length = v.length / w := by
  simp [groups]

end Sys2Proof.Machine
end

