-- ==== Sys2Proof/Laws/State.lean ====
section
/-! SUPPORT. One lemma for each field of `State` under each update: the four responses and the placing of
a command. -/

namespace Sys2Proof.Machine

section raise
variable (s : State) (k : ErrorKind)

@[simp] theorem State.raise_cfg : (s.raise k).cfg = s.cfg := rfl
@[simp] theorem State.raise_req : (s.raise k).req = s.req := rfl
@[simp] theorem State.raise_status : (s.raise k).rsp.status = errorCode k := rfl
@[simp] theorem State.raise_res : (s.raise k).rsp.res = Config.freeRes s.freeIdx := rfl
@[simp] theorem State.raise_rval : (s.raise k).rsp.rval = Config.freeRval s.freeIdx := rfl
@[simp] theorem State.raise_consumed : (s.raise k).rsp.consumed = Config.freeConsumed s.freeIdx := rfl
@[simp] theorem State.raise_busy : (s.raise k).busy = false := rfl
@[simp] theorem State.raise_freeIdx : (s.raise k).freeIdx = s.freeIdx + 1 := rfl
@[simp] theorem State.raise_rspKind : (s.raise k).rspKind = .error := rfl

end raise

section answerValue
variable (s : State) (v : Value)

@[simp] theorem State.answerValue_cfg : (s.answerValue v).cfg = s.cfg := rfl
@[simp] theorem State.answerValue_req : (s.answerValue v).req = s.req := rfl
@[simp] theorem State.answerValue_status : (s.answerValue v).rsp.status = statusOk := rfl
@[simp] theorem State.answerValue_res : (s.answerValue v).rsp.res = Config.freeRes s.freeIdx := rfl
@[simp] theorem State.answerValue_rval : (s.answerValue v).rsp.rval = v := rfl
@[simp] theorem State.answerValue_consumed : (s.answerValue v).rsp.consumed = Config.freeConsumed s.freeIdx := rfl
@[simp] theorem State.answerValue_busy : (s.answerValue v).busy = false := rfl
@[simp] theorem State.answerValue_freeIdx : (s.answerValue v).freeIdx = s.freeIdx + 1 := rfl
@[simp] theorem State.answerValue_rspKind : (s.answerValue v).rspKind = .value := rfl

end answerValue

section answerBits
variable (s : State) (b : Bits)

@[simp] theorem State.answerBits_cfg : (s.answerBits b).cfg = s.cfg := rfl
@[simp] theorem State.answerBits_req : (s.answerBits b).req = s.req := rfl
@[simp] theorem State.answerBits_status : (s.answerBits b).rsp.status = statusOk := rfl
@[simp] theorem State.answerBits_res : (s.answerBits b).rsp.res = b := rfl
@[simp] theorem State.answerBits_rval : (s.answerBits b).rsp.rval = Config.freeRval s.freeIdx := rfl
@[simp] theorem State.answerBits_consumed : (s.answerBits b).rsp.consumed = Config.freeConsumed s.freeIdx := rfl
@[simp] theorem State.answerBits_busy : (s.answerBits b).busy = false := rfl
@[simp] theorem State.answerBits_freeIdx : (s.answerBits b).freeIdx = s.freeIdx + 1 := rfl
@[simp] theorem State.answerBits_rspKind : (s.answerBits b).rspKind = .bits := rfl

end answerBits

section answerStream
variable (s : State) (v : Value) (n : Nat)

@[simp] theorem State.answerStream_cfg : (s.answerStream v n).cfg = s.cfg := rfl
@[simp] theorem State.answerStream_req : (s.answerStream v n).req = s.req := rfl
@[simp] theorem State.answerStream_status : (s.answerStream v n).rsp.status = statusOk := rfl
@[simp] theorem State.answerStream_res : (s.answerStream v n).rsp.res = Config.freeRes s.freeIdx := rfl
@[simp] theorem State.answerStream_rval : (s.answerStream v n).rsp.rval = v := rfl
@[simp] theorem State.answerStream_consumed : (s.answerStream v n).rsp.consumed = n := rfl
@[simp] theorem State.answerStream_busy : (s.answerStream v n).busy = false := rfl
@[simp] theorem State.answerStream_freeIdx : (s.answerStream v n).freeIdx = s.freeIdx + 1 := rfl
@[simp] theorem State.answerStream_rspKind : (s.answerStream v n).rspKind = .stream := rfl

end answerStream

section withFetchWord
variable (s : State) (nbits w : Nat)

@[simp] theorem State.withFetchWord_cfg : (s.withFetchWord nbits w).cfg = s.cfg := rfl
@[simp] theorem State.withFetchWord_rsp : (s.withFetchWord nbits w).rsp = s.rsp := rfl
@[simp] theorem State.withFetchWord_busy : (s.withFetchWord nbits w).busy = true := rfl
@[simp] theorem State.withFetchWord_freeIdx : (s.withFetchWord nbits w).freeIdx = s.freeIdx := rfl
@[simp] theorem State.withFetchWord_rspKind : (s.withFetchWord nbits w).rspKind = s.rspKind := rfl
@[simp] theorem State.withFetchWord_cmd :
    (s.withFetchWord nbits w).req.cmd = BitVec.ofNat 64 (w % 2 ^ nbits) := rfl
@[simp] theorem State.withFetchWord_view : (s.withFetchWord nbits w).req.view = s.req.view := rfl
@[simp] theorem State.withFetchWord_val : (s.withFetchWord nbits w).req.val = s.req.val := rfl

end withFetchWord

section respond
variable (s : State)

@[simp] theorem State.respond_error (k : ErrorKind) : s.respond (.error k) = s.raise k := rfl
@[simp] theorem State.respond_value (v : Value) :
    s.respond (.ok (.value v)) = s.answerValue v := rfl
@[simp] theorem State.respond_bits (b : Bits) : s.respond (.ok (.bits b)) = s.answerBits b := rfl
@[simp] theorem State.respond_stream (v : Value) (n : Nat) :
    s.respond (.ok (.stream v n)) = s.answerStream v n := rfl

/-- Whatever a command answers, CFG and REQ stay and the command is done (R280, R305). -/
@[simp] theorem State.respond_cfg (r : Except ErrorKind Answer) : (s.respond r).cfg = s.cfg := by
  rcases r with k | (v | b | ⟨v, n⟩) <;> rfl
@[simp] theorem State.respond_req (r : Except ErrorKind Answer) : (s.respond r).req = s.req := by
  rcases r with k | (v | b | ⟨v, n⟩) <;> rfl
@[simp] theorem State.respond_busy (r : Except ErrorKind Answer) : (s.respond r).busy = false := by
  rcases r with k | (v | b | ⟨v, n⟩) <;> rfl
@[simp] theorem State.respond_freeIdx (r : Except ErrorKind Answer) :
    (s.respond r).freeIdx = s.freeIdx + 1 := by
  rcases r with k | (v | b | ⟨v, n⟩) <;> rfl

end respond

end Sys2Proof.Machine
end

