-- ==== Sys2Proof/Laws/Ops.lean ====
section
/-! SUPPORT. What each shared operation of the command front end can do, once for each: stage 1 (R93), the
length agreements (R96), the whole-byte check (R95), the four command shapes (R100). -/

namespace Sys2Proof.Machine

/-- Stage 1 on an explicit length. -/
theorem resolveLen_some (op : Op) (fam : Family) (n : Nat) :
    resolveLen op fam (some n) =
      if lenUse op fam ≠ .forb ∧ lenConstraint fam n = true then .ok ()
      else .error .invalidLength := by
  unfold resolveLen
  by_cases h : lenUse op fam = .forb <;> cases h' : lenConstraint fam n <;> simp [h, h']

/-- Stage 1 without an explicit length. -/
theorem resolveLen_none (op : Op) (fam : Family) :
    resolveLen op fam none =
      if lenUse op fam = .req then .error .invalidLength else .ok () := rfl

/-- Stage 1 passes or answers InvalidLength, and nothing else. -/
theorem resolveLen_cases (op : Op) (fam : Family) (len : Option Nat) :
    resolveLen op fam len = .ok () ∨ resolveLen op fam len = .error .invalidLength := by
  cases len with
  | none => rw [resolveLen_none]; split <;> simp
  | some n => rw [resolveLen_some]; split <;> simp

/-- The length an exotic float's view must have (R96). -/
def fixedLen : Family → Option Nat
  | .bfloat => some 16
  | .e4m3float => some 8
  | .e5m2float => some 8
  | _ => none

/-- The view agrees with the explicit and the fixed length, or the command answers InterpretError. -/
theorem viewAgrees_eq (fam : Family) (len : Option Nat) (v : Bits) :
    viewAgrees fam len v =
      if (len = none ∨ len = some v.length) ∧
          (fixedLen fam = none ∨ fixedLen fam = some v.length) then .ok ()
      else .error .interpret := by
  unfold viewAgrees fixedLen
  by_cases h1 : len = none <;> by_cases h2 : len = some v.length <;> cases fam <;>
    simp_all [eq_comm]

/-- The view agreement passes or answers InterpretError, and nothing else. -/
theorem viewAgrees_cases (fam : Family) (len : Option Nat) (v : Bits) :
    viewAgrees fam len v = .ok () ∨ viewAgrees fam len v = .error .interpret := by
  rw [viewAgrees_eq]; split <;> simp

/-- The value agreement passes or answers ValueError, and nothing else. -/
theorem valueAgrees_eq (len : Option Nat) (n : Nat) :
    valueAgrees len n = if len = none ∨ len = some n then .ok () else .error .value := by
  unfold valueAgrees
  by_cases h1 : len = none <;> by_cases h2 : len = some n <;> simp [h1, h2]

/-- The whole-byte check passes or answers ValueError, and nothing else. -/
theorem wholeBytes_eq (e : Endian) (n : Nat) :
    wholeBytes e n = if e = .bitwise ∨ n % 8 = 0 then .ok () else .error .value := by
  unfold wholeBytes
  by_cases h1 : e = .bitwise <;> by_cases h2 : n % 8 = 0 <;> simp [h1, h2]

section shapes
variable (fam : Family) (len : Option Nat) (s : State)

/-- Everything a DEC can do (R100). -/
theorem runDec_cases (codec : Bits → Except ErrorKind Value) :
    (runDec fam len s codec = .next (s.raise .invalidLength) ∧
      resolveLen .dec fam len = .error .invalidLength) ∨
    (runDec fam len s codec = .next (s.raise .interpret) ∧ resolveLen .dec fam len = .ok () ∧
      viewAgrees fam len s.req.view = .error .interpret) ∨
    (resolveLen .dec fam len = .ok () ∧ viewAgrees fam len s.req.view = .ok () ∧
      ((∃ k, codec s.req.view = .error k ∧ runDec fam len s codec = .next (s.raise k)) ∨
       (∃ v, codec s.req.view = .ok v ∧ runDec fam len s codec = .next (s.answerValue v)))) := by
  unfold runDec
  rcases resolveLen_cases .dec fam len with h1 | h1
  · rcases viewAgrees_cases fam len s.req.view with h2 | h2
    · rcases h3 : codec s.req.view with k | v
      · exact .inr (.inr ⟨h1, h2, .inl ⟨k, rfl, by simp [h1, h2, bind, Except.bind]⟩⟩)
      · exact .inr (.inr ⟨h1, h2, .inr ⟨v, rfl, by simp [h1, h2, bind, Except.bind]⟩⟩)
    · exact .inr (.inl ⟨by simp [h1, h2, bind, Except.bind], h1, h2⟩)
  · exact .inl ⟨by simp [h1, bind, Except.bind], h1⟩

/-- A DEC that passes both length checks answers what its codec says. -/
theorem runDec_eq {codec : Bits → Except ErrorKind Value} (h1 : resolveLen .dec fam len = .ok ())
    (h2 : viewAgrees fam len s.req.view = .ok ()) :
    runDec fam len s codec =
      .next (match codec s.req.view with
        | .error k => s.raise k
        | .ok v => s.answerValue v) := by
  unfold runDec
  cases h3 : codec s.req.view <;> simp [h1, h2, bind, Except.bind]

/-- A DEC whose explicit length is refused (R93). -/
theorem runDec_invalid {codec : Bits → Except ErrorKind Value}
    (h : resolveLen .dec fam len = .error .invalidLength) :
    runDec fam len s codec = .next (s.raise .invalidLength) := by
  unfold runDec; simp [h, bind, Except.bind]

/-- A DEC whose view has another length than asked for (R96). -/
theorem runDec_disagree {codec : Bits → Except ErrorKind Value}
    (h1 : resolveLen .dec fam len = .ok ())
    (h2 : viewAgrees fam len s.req.view = .error .interpret) :
    runDec fam len s codec = .next (s.raise .interpret) := by
  unfold runDec; simp [h1, h2, bind, Except.bind]

/-- Everything an ENC can do (R100). -/
theorem runEnc_cases (codec : Operand → Except ErrorKind Bits) :
    (runEnc fam len s codec = .next (s.raise .invalidLength) ∧
      resolveLen .enc fam len = .error .invalidLength) ∨
    (resolveLen .enc fam len = .ok () ∧
      ((∃ k, codec s.req.val = .error k ∧ runEnc fam len s codec = .next (s.raise k)) ∨
       (∃ b, codec s.req.val = .ok b ∧ runEnc fam len s codec = .next (s.answerBits b)))) := by
  unfold runEnc
  rcases resolveLen_cases .enc fam len with h1 | h1
  · rcases h3 : codec s.req.val with k | b
    · exact .inr ⟨h1, .inl ⟨k, rfl, by simp [h1, bind, Except.bind]⟩⟩
    · exact .inr ⟨h1, .inr ⟨b, rfl, by simp [h1, bind, Except.bind]⟩⟩
  · exact .inl ⟨by simp [h1, bind, Except.bind], h1⟩

/-- An ENC that passes stage 1 answers what its codec says. -/
theorem runEnc_eq {codec : Operand → Except ErrorKind Bits} (h1 : resolveLen .enc fam len = .ok ()) :
    runEnc fam len s codec =
      .next (match codec s.req.val with
        | .error k => s.raise k
        | .ok b => s.answerBits b) := by
  unfold runEnc
  cases h3 : codec s.req.val <;> simp [h1, bind, Except.bind]

/-- An ENC whose explicit length is refused or missing (R93). -/
theorem runEnc_invalid {codec : Operand → Except ErrorKind Bits}
    (h : resolveLen .enc fam len = .error .invalidLength) :
    runEnc fam len s codec = .next (s.raise .invalidLength) := by
  unfold runEnc; simp [h, bind, Except.bind]

/-- Everything a DECS can do (R100). -/
theorem runDecs_cases (codec : Bits → Except ErrorKind (Value × Nat)) :
    (runDecs fam len s codec = .next (s.raise .invalidLength) ∧
      resolveLen .decs fam len = .error .invalidLength) ∨
    (resolveLen .decs fam len = .ok () ∧
      ((∃ k, codec s.req.view = .error k ∧ runDecs fam len s codec = .next (s.raise k)) ∨
       (∃ v n, codec s.req.view = .ok (v, n) ∧
          runDecs fam len s codec = .next (s.answerStream v n)))) := by
  unfold runDecs
  rcases resolveLen_cases .decs fam len with h1 | h1
  · rcases h3 : codec s.req.view with k | ⟨v, n⟩
    · exact .inr ⟨h1, .inl ⟨k, rfl, by simp [h1, bind, Except.bind]⟩⟩
    · exact .inr ⟨h1, .inr ⟨v, n, rfl, by simp [h1, bind, Except.bind]⟩⟩
  · exact .inl ⟨by simp [h1, bind, Except.bind], h1⟩

/-- A DECS that passes stage 1 answers what its accessor says. -/
theorem runDecs_eq {codec : Bits → Except ErrorKind (Value × Nat)}
    (h1 : resolveLen .decs fam len = .ok ()) :
    runDecs fam len s codec =
      .next (match codec s.req.view with
        | .error k => s.raise k
        | .ok r => s.answerStream r.1 r.2) := by
  unfold runDecs
  cases h3 : codec s.req.view <;> simp [h1, bind, Except.bind]

/-- A DECS with an explicit length (R93). -/
theorem runDecs_invalid {codec : Bits → Except ErrorKind (Value × Nat)}
    (h : resolveLen .decs fam len = .error .invalidLength) :
    runDecs fam len s codec = .next (s.raise .invalidLength) := by
  unfold runDecs; simp [h, bind, Except.bind]

/-- Everything a PAD can do (R100). -/
theorem runPad_cases (codec : Bits → Value) :
    (runPad fam len s codec = .next (s.raise .invalidLength) ∧
      resolveLen .pad fam len = .error .invalidLength) ∨
    (runPad fam len s codec = .next (s.answerValue (codec s.req.view)) ∧
      resolveLen .pad fam len = .ok ()) := by
  unfold runPad
  rcases resolveLen_cases .pad fam len with h1 | h1
  · exact .inr ⟨by simp [h1, bind, Except.bind], h1⟩
  · exact .inl ⟨by simp [h1, bind, Except.bind], h1⟩

end shapes

end Sys2Proof.Machine
end

