-- ==== Sys2Proof/Laws/Rational.lean ====
section
/-! SUPPORT. The exact arithmetic of the float rules against Mathlib's `ℚ` (R16): each operation on
`Ratio` has the value its docstring says. -/

namespace Sys2Proof.Machine

/-- The rational a `Ratio` stands for. -/
def Ratio.toRat (a : Ratio) : ℚ := (a.num : ℚ) / (a.den : ℚ)

theorem Ratio.toRat_nonneg (a : Ratio) : 0 ≤ a.toRat := by unfold Ratio.toRat; positivity

theorem scaled_den_pos (m : Nat) (k : Int) : 0 < (scaled m k).den := by
  unfold scaled; split <;> simp

theorem scaled_toRat (m : Nat) (k : Int) : (scaled m k).toRat = (m : ℚ) * (2 : ℚ) ^ k := by
  unfold scaled Ratio.toRat
  split
  · rename_i h
    obtain ⟨n, rfl⟩ := Int.eq_ofNat_of_zero_le h
    simp
  · rename_i h
    obtain ⟨n, hn⟩ := Int.eq_ofNat_of_zero_le (show 0 ≤ -k by omega)
    obtain rfl : k = -(n : Int) := by omega
    simp [div_eq_mul_inv]

theorem divPow2_den_pos {a : Ratio} (h : 0 < a.den) (k : Int) : 0 < (divPow2 a k).den := by
  unfold divPow2; split <;> simp [h]

theorem divPow2_toRat (a : Ratio) (k : Int) : (divPow2 a k).toRat = a.toRat / (2 : ℚ) ^ k := by
  unfold divPow2 Ratio.toRat
  split
  · rename_i h
    obtain ⟨n, rfl⟩ := Int.eq_ofNat_of_zero_le h
    simp [div_div]
  · rename_i h
    obtain ⟨n, hn⟩ := Int.eq_ofNat_of_zero_le (show 0 ≤ -k by omega)
    obtain rfl : k = -(n : Int) := by omega
    simp [div_eq_mul_inv, mul_right_comm]

theorem ratioLe_iff {a b : Ratio} (ha : 0 < a.den) (hb : 0 < b.den) :
    ratioLe a b = true ↔ a.toRat ≤ b.toRat := by
  unfold ratioLe Ratio.toRat
  rw [decide_eq_true_iff, div_le_div_iff₀ (by exact_mod_cast ha) (by exact_mod_cast hb)]
  exact_mod_cast Iff.rfl

theorem ratioLt_iff {a b : Ratio} (ha : 0 < a.den) (hb : 0 < b.den) :
    ratioLt a b = true ↔ a.toRat < b.toRat := by
  unfold ratioLt Ratio.toRat
  rw [decide_eq_true_iff, div_lt_div_iff₀ (by exact_mod_cast ha) (by exact_mod_cast hb)]
  exact_mod_cast Iff.rfl

theorem ratioSub_den_pos {a b : Ratio} (ha : 0 < a.den) (hb : 0 < b.den) :
    0 < (ratioSub a b).den := Nat.mul_pos ha hb

theorem ratioSub_toRat {a b : Ratio} (ha : 0 < a.den) (hb : 0 < b.den) (h : b.toRat ≤ a.toRat) :
    (ratioSub a b).toRat = a.toRat - b.toRat := by
  have ha' : (a.den : ℚ) ≠ 0 := by exact_mod_cast ha.ne'
  have hb' : (b.den : ℚ) ≠ 0 := by exact_mod_cast hb.ne'
  have hle : b.num * a.den ≤ a.num * b.den := by
    have := (ratioLe_iff hb ha).2 h
    simpa [ratioLe] using this
  unfold ratioSub Ratio.toRat
  push_cast [Nat.cast_sub hle]
  field_simp

/-- `floor(log2(a))` is the integer k with `2^k <= a < 2^(k+1)` (R16). -/
theorem floorLog2_spec {a : Ratio} (hn : 0 < a.num) (hd : 0 < a.den) :
    (2 : ℚ) ^ floorLog2 a ≤ a.toRat ∧ a.toRat < (2 : ℚ) ^ (floorLog2 a + 1) := by
  have hdq : (0 : ℚ) < a.den := by exact_mod_cast hd
  have n1 : (2 : ℚ) ^ (Nat.log2 a.num : ℤ) ≤ a.num := by
    exact_mod_cast Nat.log2_self_le hn.ne'
  have n2 : (a.num : ℚ) < 2 ^ ((Nat.log2 a.num : ℤ) + 1) := by
    exact_mod_cast Nat.lt_log2_self (n := a.num)
  have d1 : (2 : ℚ) ^ (Nat.log2 a.den : ℤ) ≤ a.den := by
    exact_mod_cast Nat.log2_self_le hd.ne'
  have d2 : (a.den : ℚ) < 2 ^ ((Nat.log2 a.den : ℤ) + 1) := by
    exact_mod_cast Nat.lt_log2_self (n := a.den)
  have key := ratioLe_iff (scaled_den_pos 1 ((Nat.log2 a.num : ℤ) - Nat.log2 a.den)) hd
  rw [scaled_toRat] at key
  unfold floorLog2
  simp only
  split
  · rename_i h
    have h' := key.1 h
    refine ⟨by simpa using h', ?_⟩
    unfold Ratio.toRat
    rw [div_lt_iff₀ hdq]
    calc (a.num : ℚ) < 2 ^ ((Nat.log2 a.num : ℤ) + 1) := n2
      _ = 2 ^ ((Nat.log2 a.num : ℤ) - Nat.log2 a.den + 1) * 2 ^ (Nat.log2 a.den : ℤ) := by
          rw [← zpow_add₀ (by norm_num)]; congr 1; ring
      _ ≤ _ := by gcongr
  · rename_i h
    have h' : ¬ ((1 : ℕ) : ℚ) * 2 ^ ((Nat.log2 a.num : ℤ) - Nat.log2 a.den) ≤ a.toRat :=
      fun c => h (key.2 c)
    refine ⟨?_, by simpa using not_le.1 h'⟩
    unfold Ratio.toRat
    rw [le_div_iff₀ hdq]
    calc (2 : ℚ) ^ ((Nat.log2 a.num : ℤ) - Nat.log2 a.den - 1) * a.den
        ≤ 2 ^ ((Nat.log2 a.num : ℤ) - Nat.log2 a.den - 1) * 2 ^ ((Nat.log2 a.den : ℤ) + 1) := by
          gcongr
      _ = 2 ^ (Nat.log2 a.num : ℤ) := by
          rw [← zpow_add₀ (by norm_num)]; congr 1; ring
      _ ≤ a.num := n1

/-- Rounding to an integer (R153): the result is within one half, and even when it is exactly one half
away. -/
theorem roundEven_spec {a : Ratio} (hd : 0 < a.den) :
    |(roundEven a : ℚ) - a.toRat| ≤ 1 / 2 ∧
      (|(roundEven a : ℚ) - a.toRat| = 1 / 2 → roundEven a % 2 = 0) := by
  have hdq : (0 : ℚ) < a.den := by exact_mod_cast hd
  have hrat : a.toRat = (a.num / a.den : ℕ) + ((a.num % a.den : ℕ) : ℚ) / a.den := by
    unfold Ratio.toRat
    field_simp
    exact_mod_cast (Nat.div_add_mod' a.num a.den).symm.trans (by ring)
  have hr : a.num % a.den < a.den := Nat.mod_lt _ hd
  have r0 : (0 : ℚ) ≤ ((a.num % a.den : ℕ) : ℚ) / a.den := by positivity
  have r1 : ((a.num % a.den : ℕ) : ℚ) / a.den < 1 := by
    rw [div_lt_one hdq]; exact_mod_cast hr
  unfold roundEven
  simp only
  split
  · rename_i h
    have h' : ((a.num % a.den : ℕ) : ℚ) / a.den < 1 / 2 := by
      rw [div_lt_div_iff₀ hdq (by norm_num)]; norm_num
      have : a.num % a.den * 2 < a.den := by omega
      exact_mod_cast this
    rw [hrat]
    rw [show ((a.num / a.den : ℕ) : ℚ) - ((a.num / a.den : ℕ) + ((a.num % a.den : ℕ) : ℚ) / a.den)
      = -(((a.num % a.den : ℕ) : ℚ) / a.den) by ring, abs_neg, abs_of_nonneg r0]
    exact ⟨h'.le, fun c => absurd c h'.ne⟩
  · rename_i h
    split
    · rename_i h2
      have h' : 1 / 2 < ((a.num % a.den : ℕ) : ℚ) / a.den := by
        rw [div_lt_div_iff₀ (by norm_num) hdq]; norm_num
        have : a.den < a.num % a.den * 2 := by omega
        exact_mod_cast this
      rw [hrat]
      push_cast
      rw [show ((a.num / a.den : ℕ) : ℚ) + 1 -
        ((a.num / a.den : ℕ) + ((a.num % a.den : ℕ) : ℚ) / a.den)
        = 1 - ((a.num % a.den : ℕ) : ℚ) / a.den by ring, abs_of_pos (by linarith)]
      exact ⟨by linarith, fun c => by linarith⟩
    · rename_i h2
      have h' : ((a.num % a.den : ℕ) : ℚ) / a.den = 1 / 2 := by
        rw [div_eq_div_iff hdq.ne' (by norm_num)]
        have : a.num % a.den * 2 = 1 * a.den := by omega
        exact_mod_cast this
      split
      · rename_i h3
        rw [hrat, h']
        refine ⟨?_, fun _ => h3⟩
        rw [show ((a.num / a.den : ℕ) : ℚ) - ((a.num / a.den : ℕ) + 1 / 2) = -(1 / 2) by ring]
        norm_num [abs_of_pos]
      · rename_i h3
        rw [hrat, h']
        refine ⟨?_, fun _ => by omega⟩
        push_cast
        rw [show ((a.num / a.den : ℕ) : ℚ) + 1 - ((a.num / a.den : ℕ) + 1 / 2) = 1 / 2 by ring]
        norm_num [abs_of_pos]

end Sys2Proof.Machine
end

