-- ==== Sys2Proof/Laws/Codecs.lean ====
section
/-! SUPPORT. What each operation behind the codecs can do, once for each: byte order (R99), groups (R41),
digits (R111), the integer ranges (R133, R135), the classes of a float word and the open functions on
them (R152, R156), the laws of the 8-bit formats in force (R205), the parsers of the exp-Golomb codes
(R232, R235). -/

namespace Sys2Proof.Machine

/-! ## Byte order and groups -/

/-- `Order` reverses the bytes exactly under an effective little-endian order (R99). -/
theorem order_eq (e : Endian) (h : ByteOrder) (v : Bits) :
    order e h v = if effEnd e h = .little then byteRev v else v := by
  unfold order; cases effEnd e h <;> simp

/-- Group j of a sequence is its slice of w bits from bit w * j on (R41). -/
theorem groups_getElem? (w : Nat) (v : Bits) (j : Nat) :
    (groups w v)[j]? = if j < v.length / w then some (slice v (w * j) (w * j + w)) else none := by
  unfold groups
  by_cases h : j < v.length / w <;> simp [h]

/-- Every group has w bits (R41). -/
theorem groups_width {w : Nat} {v g : Bits} (h : g ∈ groups w v) : g.length = w := by
  simp only [groups, List.mem_map, List.mem_range] at h
  obtain ⟨j, hj, rfl⟩ := h
  have h1 : w * (j + 1) ≤ w * (v.length / w) := Nat.mul_le_mul_left w hj
  have h2 := Nat.mul_div_le v.length w
  rw [Nat.mul_succ] at h1
  simp only [slice_length]; omega

/-- The number of bytes of a sequence (R41). -/
@[simp] theorem bytesOf_length (v : Bits) : (bytesOf v).length = v.length / 8 := by
  simp [bytesOf]

/-! ## Digits -/

/-- The characters of a string are all digits exactly when they have values (R111). -/
theorem digitValues_eq_some {val : Byte → Option Nat} {s : Str} {xs : List Nat} :
    digitValues val s = some xs ↔ s.map val = xs.map some := by
  induction s generalizing xs with
  | nil => cases xs <;> simp [digitValues]
  | cons c s ih =>
    cases xs with
    | nil => cases h1 : val c <;> cases h2 : digitValues val s <;> simp [digitValues, h1, h2]
    | cons x xs =>
      rw [List.map_cons, List.map_cons, List.cons.injEq, ← ih]
      cases h1 : val c <;> cases h2 : digitValues val s <;> simp [digitValues, h1, h2]

/-- Some character is no digit exactly when the values fail (R113, R115, R117). -/
theorem digitValues_eq_none {val : Byte → Option Nat} {s : Str} :
    digitValues val s = none ↔ ∃ c ∈ s, val c = none := by
  induction s with
  | nil => simp [digitValues]
  | cons c s ih =>
    rw [List.exists_mem_cons_iff, ← ih]
    cases h1 : val c <;> cases h2 : digitValues val s <;> simp [digitValues, h1, h2]

/-- Everything a string encoder can do (R113, R115, R117): a bad digit, then the length, then the
bits. -/
theorem encodeDigits_eq (w : Nat) (val : Byte → Option Nat) (len : Option Nat) (s : Str) :
    encodeDigits w val len s =
      match digitValues val s with
      | none => .error .value
      | some xs =>
        if len = none ∨ len = some (w * s.length) then .ok (xs.map (toBits w)).flatten
        else .error .value := by
  unfold encodeDigits
  cases digitValues val s with
  | none => rfl
  | some xs =>
    rw [valueAgrees_eq]
    by_cases h : len = none ∨ len = some (w * s.length) <;> simp [h, bind, Except.bind]

/-! ## Integers -/

/-- Everything the field of an integer decode can be (R131). -/
theorem integerField_eq (e : Endian) (h : ByteOrder) (v : Bits) :
    integerField e h v =
      if v = [] then .error .interpret
      else if e = .bitwise ∨ v.length % 8 = 0 then .ok (order e h v)
      else .error .value := by
  unfold integerField
  rw [wholeBytes_eq]
  by_cases h1 : v = [] <;> by_cases h2 : e = .bitwise ∨ v.length % 8 = 0 <;>
    simp [h1, h2, bind, Except.bind]

/-- Everything an unsigned encode of n bits can do (R133). -/
theorem encodeUint_eq (e : Endian) (h : ByteOrder) (n : Nat) (x : Int) :
    encodeUint e h (some n) x =
      if (e = .bitwise ∨ n % 8 = 0) ∧ 0 ≤ x ∧ x < 2 ^ n then .ok (order e h (toBits n x.toNat))
      else .error .value := by
  unfold encodeUint encodeWidth
  rw [wholeBytes_eq]
  simp only [Option.getD_some]
  by_cases h1 : e = .bitwise ∨ n % 8 = 0
  · by_cases h2 : 0 ≤ x ∧ x < 2 ^ n
    · have h3 : ¬ (x < 0 ∨ x > 2 ^ n - 1) := by omega
      have h4 : (e = .bitwise ∨ n % 8 = 0) ∧ 0 ≤ x ∧ x < 2 ^ n := ⟨h1, h2⟩
      simp only [if_pos h1, if_pos h4, if_neg h3, bind, Except.bind]
    · have h3 : x < 0 ∨ x > 2 ^ n - 1 := by omega
      have h4 : ¬ ((e = .bitwise ∨ n % 8 = 0) ∧ 0 ≤ x ∧ x < 2 ^ n) := fun a => h2 a.2
      simp only [if_pos h1, if_neg h4, if_pos h3, bind, Except.bind]
  · have h4 : ¬ ((e = .bitwise ∨ n % 8 = 0) ∧ 0 ≤ x ∧ x < 2 ^ n) := fun a => h1 a.1
    simp only [if_neg h1, if_neg h4, bind, Except.bind]

/-- Everything a signed encode of n bits can do (R135): the two's-complement number is x modulo 2^n. -/
theorem encodeInt_eq (e : Endian) (h : ByteOrder) (n : Nat) (x : Int) :
    encodeInt e h (some n) x =
      if (e = .bitwise ∨ n % 8 = 0) ∧ -2 ^ (n - 1) ≤ x ∧ x < 2 ^ (n - 1) then
        .ok (order e h (toBits n (if 0 ≤ x then x else x + 2 ^ n).toNat))
      else .error .value := by
  unfold encodeInt encodeWidth
  rw [wholeBytes_eq]
  simp only [Option.getD_some]
  by_cases h1 : e = .bitwise ∨ n % 8 = 0
  · by_cases h2 : -2 ^ (n - 1) ≤ x ∧ x < 2 ^ (n - 1)
    · have h3 : ¬ (x < -2 ^ (n - 1) ∨ x > 2 ^ (n - 1) - 1) := by omega
      have h4 : (e = .bitwise ∨ n % 8 = 0) ∧ -2 ^ (n - 1) ≤ x ∧ x < 2 ^ (n - 1) := ⟨h1, h2⟩
      simp only [if_pos h1, if_pos h4, if_neg h3, bind, Except.bind]
      by_cases h5 : 0 ≤ x <;> simp only [if_pos, if_neg, h5, not_false_eq_true]
    · have h3 : x < -2 ^ (n - 1) ∨ x > 2 ^ (n - 1) - 1 := by omega
      have h4 : ¬ ((e = .bitwise ∨ n % 8 = 0) ∧ -2 ^ (n - 1) ≤ x ∧ x < 2 ^ (n - 1)) := fun a => h2 a.2
      simp only [if_pos h1, if_neg h4, if_pos h3, bind, Except.bind]
  · have h4 : ¬ ((e = .bitwise ∨ n % 8 = 0) ∧ -2 ^ (n - 1) ≤ x ∧ x < 2 ^ (n - 1)) := fun a => h1 a.1
    simp only [if_neg h1, if_neg h4, bind, Except.bind]

/-! ## Raw bytes -/

/-- Everything a byte encode can do (R181). -/
theorem encodeBytes_eq (len : Option Nat) (b : List Byte) :
    encodeBytes len b =
      if len = none ∨ len = some (8 * b.length) then
        .ok (b.map fun x => toBits 8 x.toNat).flatten
      else .error .value := by
  unfold encodeBytes
  rw [valueAgrees_eq]
  by_cases h : len = none ∨ len = some (8 * b.length) <;> simp [h, bind, Except.bind]

/-- The padded length is the next multiple of 8 (R182). -/
theorem padCount_spec (n : Nat) : padCount n < 8 ∧ (n + padCount n) % 8 = 0 := by
  unfold padCount; omega

/-! ## Float words -/

/-- The NaNs (R152). -/
theorem classOf_nan {E M p : Nat} (hE : E ≠ 0) :
    classOf E M p = .nan ↔ wordExp E M p = 2 ^ E - 1 ∧ wordMan M p ≠ 0 := by
  have : 2 ^ 1 ≤ 2 ^ E := Nat.pow_le_pow_right (by norm_num) (Nat.pos_of_ne_zero hE)
  unfold classOf; split_ifs <;> (simp_all; try omega)

/-- The infinities (R152). -/
theorem classOf_infinite {E M p : Nat} (hE : E ≠ 0) :
    classOf E M p = .infinite ↔ wordExp E M p = 2 ^ E - 1 ∧ wordMan M p = 0 := by
  have : 2 ^ 1 ≤ 2 ^ E := Nat.pow_le_pow_right (by norm_num) (Nat.pos_of_ne_zero hE)
  unfold classOf; split_ifs <;> (simp_all; try omega)

/-- `NaNNarrow` in force is the parameter where that keeps the law, else the default (R156). -/
theorem nanNarrow_cases (E M d : Nat) :
    (nanNarrow E M d = Config.nanNarrowParam E M d ∧
      nanNarrowLaw E M (Config.nanNarrowParam E M d) = true) ∨
    nanNarrow E M d = defaultNanNarrow E M d := by
  unfold nanNarrow; split
  · exact .inl ⟨rfl, by assumption⟩
  · exact .inr rfl

/-- `NaNWiden` in force is the parameter where that keeps the law, else the default (R156). -/
theorem nanWiden_cases (E M p : Nat) :
    (nanWiden E M p = Config.nanWidenParam E M p ∧
      nanWidenLaw (Config.nanWidenParam E M p) = true) ∨
    nanWiden E M p = defaultNanWiden E M p := by
  unfold nanWiden; split
  · exact .inl ⟨rfl, by assumption⟩
  · exact .inr rfl

theorem absOf_den_pos (E M p : Nat) : 0 < (absOf E M p).den := by
  unfold absOf; split <;> exact scaled_den_pos _ _

/-- The fields of a word put together from fields in range (R152, R153). -/
theorem wordOf_fields {E M s e m : Nat} (hs : s < 2) (he : e < 2 ^ E) (hm : m < 2 ^ M) :
    wordSign E M (wordOf E M s e m) = s ∧ wordExp E M (wordOf E M s e m) = e ∧
      wordMan M (wordOf E M s e m) = m := by
  have hE : 0 < 2 ^ E := by positivity
  have hM : 0 < 2 ^ M := by positivity
  have h1 : wordOf E M s e m = (s * 2 ^ E + e) * 2 ^ M + m := by unfold wordOf; ring
  have h2 : wordOf E M s e m / 2 ^ M = s * 2 ^ E + e := by
    rw [h1, Nat.add_comm, Nat.add_mul_div_right _ _ hM, Nat.div_eq_of_lt hm, Nat.zero_add]
  refine ⟨?_, ?_, ?_⟩
  · rw [wordSign, Nat.add_comm E M, pow_add, ← Nat.div_div_eq_div_mul, h2, Nat.add_comm,
      Nat.add_mul_div_right _ _ hE, Nat.div_eq_of_lt he, Nat.zero_add, Nat.mod_eq_of_lt hs]
  · rw [wordExp, h2, Nat.add_comm, Nat.add_mul_mod_self_right, Nat.mod_eq_of_lt he]
  · rw [wordMan, h1, Nat.add_comm, Nat.add_mul_mod_self_right, Nat.mod_eq_of_lt hm]

/-- The significand of `RoundFin` before its carry (R153): at most one past M + 1 bits. -/
theorem roundFin_significand {E M : Nat} {a : Ratio} (hn : 0 < a.num) (hd : 0 < a.den) :
    roundEven (divPow2 a (max (floorLog2 a) (ieeeEmin E) - M)) ≤ 2 ^ (M + 1) := by
  set k : Int := max (floorLog2 a) (ieeeEmin E) - M with hk
  have h1 := (roundEven_spec (divPow2_den_pos hd k)).1
  have h2 : (divPow2 a k).toRat < 2 ^ (M + 1) := by
    rw [divPow2_toRat, div_lt_iff₀ (by positivity)]
    calc a.toRat < 2 ^ (floorLog2 a + 1) := (floorLog2_spec hn hd).2
      _ ≤ 2 ^ ((M : ℤ) + 1 + k) := zpow_le_zpow_right₀ (by norm_num) (by omega)
      _ = 2 ^ (M + 1) * 2 ^ k := by rw [zpow_add₀ (by norm_num)]; norm_cast
  have h3 : (roundEven (divPow2 a k) : ℚ) < 2 ^ (M + 1) + 1 := by
    have := (abs_le.1 h1).2; linarith
  have h4 : roundEven (divPow2 a k) < 2 ^ (M + 1) + 1 := by exact_mod_cast h3
  omega

/-- What `RoundFin` answers when it does not overflow: a finite word of the sign it was given (R153). -/
theorem roundFin_word {E M s p : Nat} {a : Ratio} (hE : 2 ≤ E) (hd : 0 < a.den)
    (h : roundFin E M s a = some p) :
    ∃ e m, e < 2 ^ E - 1 ∧ m < 2 ^ M ∧ p = wordOf E M s e m := by
  have hE' : 2 ^ 2 ≤ 2 ^ E := Nat.pow_le_pow_right (by norm_num) hE
  have hM : 0 < 2 ^ M := by positivity
  unfold roundFin at h
  split at h
  · exact ⟨0, 0, by omega, hM, by simpa using h.symm⟩
  · rename_i hn
    have hk := roundFin_significand (E := E) (M := M) (Nat.pos_of_ne_zero hn) hd
    have hp : 2 ^ (M + 1) = 2 * 2 ^ M := by ring
    have hc : ((2 ^ E : ℕ) : ℤ) = 2 ^ E := by push_cast; rfl
    simp only at h
    have hex : 1 ≤ max (floorLog2 a) (ieeeEmin E) + ieeeBias E := by
      have : ieeeEmin E + ieeeBias E = 1 := by unfold ieeeEmin; ring
      have := le_max_right (floorLog2 a) (ieeeEmin E)
      omega
    generalize roundEven (divPow2 a (max (floorLog2 a) (ieeeEmin E) - M)) = k at h hk
    generalize max (floorLog2 a) (ieeeEmin E) = x at h hex
    by_cases h1 : k = 2 ^ (M + 1)
    · simp only [if_pos h1, lt_irrefl, if_false] at h
      split at h
      · simp at h
      · exact ⟨(x + 1 + ieeeBias E).toNat, 0, by omega, hM, by simpa using h.symm⟩
    · simp only [if_neg h1] at h
      split at h
      · exact ⟨0, k, by omega, by assumption, by simpa using h.symm⟩
      · split at h
        · simp at h
        · exact ⟨(x + ieeeBias E).toNat, k - 2 ^ M, by omega, by omega, by simpa using h.symm⟩

/-! ## 8-bit formats -/

theorem miniAbs_den_pos (F : MiniFormat) (g : Nat) : 0 < (miniAbs F g).den := by
  unfold miniAbs; split <;> exact scaled_den_pos _ _

/-- The greatest ordinary code is at most its bound, and no code between them is ordinary (R207). -/
theorem greatestOrdinary_spec (F : MiniFormat) (g : Nat) :
    greatestOrdinary F g ≤ g ∧
      (greatestOrdinary F g ≠ 0 → specialOf F (miniCode 0 (greatestOrdinary F g)) = none) ∧
      ∀ k, greatestOrdinary F g < k → k ≤ g → specialOf F (miniCode 0 k) ≠ none := by
  induction g with
  | zero => exact ⟨le_refl 0, fun h => absurd rfl h, fun k h1 h2 => by simp [greatestOrdinary] at h1; omega⟩
  | succ g ih =>
    unfold greatestOrdinary
    split
    · rename_i h; exact ⟨le_refl _, fun _ => h, fun k h1 h2 => by omega⟩
    · rename_i h
      refine ⟨by omega, ih.2.1, fun k h1 h2 => ?_⟩
      by_cases hk : k = g + 1
      · exact hk ▸ h
      · exact ih.2.2 k h1 (by omega)

/-- `lo` of R209: the greatest magnitude code up to a bound whose value is at most a. -/
theorem codeBelow_spec (F : MiniFormat) (a : Ratio) (g : Nat) :
    codeBelow F a g ≤ g ∧ (codeBelow F a g ≠ 0 → ratioLe (miniAbs F (codeBelow F a g)) a = true) ∧
      ∀ k, codeBelow F a g < k → k ≤ g → ratioLe (miniAbs F k) a = false := by
  induction g with
  | zero => exact ⟨le_refl 0, fun h => absurd rfl h, fun k h1 h2 => by simp [codeBelow] at h1; omega⟩
  | succ g ih =>
    unfold codeBelow
    split
    · rename_i h; exact ⟨le_refl _, fun _ => h, fun k h1 h2 => by omega⟩
    · rename_i h
      refine ⟨by omega, ih.2.1, fun k h1 h2 => ?_⟩
      by_cases hk : k = g + 1
      · subst hk; simpa using h
      · exact ih.2.2 k h1 (by omega)

/-! ## Exp-Golomb codes -/

/-- The zeros before the first 1 (R232, C5). -/
theorem leadingZeros_eq_some {v : Bits} {k : Nat} :
    leadingZeros v = some k ↔ ∃ rest, v = zeros k ++ true :: rest := by
  induction v generalizing k with
  | nil => cases k <;> simp [leadingZeros, zeros, List.replicate_succ]
  | cons b v ih =>
    cases b
    · cases k with
      | zero => simp [leadingZeros, zeros]
      | succ k => simp [leadingZeros, zeros_succ, ih]
    · cases k <;> simp [leadingZeros, zeros_succ]

/-- The plain parser fails on a sequence of zeros only (R232). -/
theorem leadingZeros_eq_none {v : Bits} : leadingZeros v = none ↔ v = zeros v.length := by
  induction v with
  | nil => simp [leadingZeros]
  | cons b v ih =>
    rw [List.length_cons, zeros_succ]
    cases b
    · simpa [leadingZeros] using ih
    · simp [leadingZeros]

/-- Fold and the two signs (R233). -/
theorem foldSign_nonpos {n : Int} (h : n ≤ 0) : foldSign n = 2 * n.natAbs := by
  simp [foldSign, h]

theorem foldSign_pos {n : Int} (h : 0 < n) : foldSign n = (2 * n - 1).toNat := by
  simp [foldSign, not_le.2 h]

/-- The pairs of the interleaved writer (R234): as many bits as twice the payload. -/
@[simp] theorem uiePairs_length (k x : Nat) : (uiePairs k x).length = 2 * k := by
  induction k with
  | zero => rfl
  | succ k ih => simp [uiePairs, ih]; omega

/-- The interleaved parser over written pairs reads the payload's bits (R235). -/
theorem uieLoop_pairs (k x y pos : Nat) (v : Bits) :
    uieLoop y pos (uiePairs k x ++ v) = uieLoop (y * 2 ^ k + x % 2 ^ k) (pos + 2 * k) v := by
  induction k generalizing y pos with
  | zero => simp [uiePairs, Nat.mod_one]
  | succ k ih =>
    rw [uiePairs, List.cons_append, List.cons_append, uieLoop, ih]
    have h : (x.testBit k).toNat = x / 2 ^ k % 2 := by
      rw [Nat.testBit_eq_decide_div_mod_eq]
      rcases Nat.mod_two_eq_zero_or_one (x / 2 ^ k) with h | h <;> simp [h]
    rw [h, Nat.mod_pow_succ]
    congr 1
    · ring
    · ring

end Sys2Proof.Machine
end

