-- ==== Sys2Proof/Laws/HostPort.lean ====
section
/-! SUPPORT. What a host reads after each kind of response (R28, R308), and what the cursor of `read`
does with it (R81 (c), R236). -/

namespace Sys2Proof.Machine

section reads
variable (s : State) (k : ErrorKind) (v : Value) (b : Bits) (n : Nat)

@[simp] theorem readStatus_raise : readStatus (s.raise k) = .ok (errorCode k) := rfl
@[simp] theorem readStatus_answerValue : readStatus (s.answerValue v) = .ok statusOk := rfl
@[simp] theorem readStatus_answerBits : readStatus (s.answerBits b) = .ok statusOk := rfl
@[simp] theorem readStatus_answerStream : readStatus (s.answerStream v n) = .ok statusOk := rfl
@[simp] theorem readConsumed_raise : readConsumed (s.raise k) = .error .readUnspecified := rfl
@[simp] theorem readConsumed_answerStream : readConsumed (s.answerStream v n) = .ok n := rfl

end reads

/-- No error has the status of a success (R270). -/
theorem errorCode_ne_ok (k : ErrorKind) : errorCode k ≠ statusOk := by cases k <;> decide

/-- With which tokens `read` presents a command (R77, R78, R81 (c), R93). -/
theorem readToken_eq_some {token : Str} {p : ParsedToken} :
    readToken token = some p ↔
      parseToken token = .ok p ∧ (isExpGolomb p.fam = true ∨ p.len ≠ none) ∧
        ∃ w, tokenCommand (readOp p.fam) p = .ok w := by
  unfold readToken
  cases h1 : parseToken token with
  | error k => simp
  | ok q =>
    simp only [Except.ok.injEq]
    by_cases hq : isExpGolomb q.fam = false ∧ q.len = none
    · simp only [if_pos hq, reduceCtorEq, false_iff, not_and]
      rintro rfl hp
      rcases hp with hp | hp
      · simp [hq.1] at hp
      · exact absurd hq.2 hp
    · have hp : isExpGolomb q.fam = true ∨ q.len ≠ none := by
        cases h : isExpGolomb q.fam <;> simp_all
      cases h2 : tokenCommand (readOp q.fam) q with
      | error k =>
        simp only [if_neg hq, reduceCtorEq, false_iff, not_and]
        rintro rfl - ⟨w, hw⟩
        simp [h2] at hw
      | ok w =>
        simp only [if_neg hq, Option.some.injEq, iff_self_and]
        rintro rfl
        exact ⟨hp, w, h2⟩

/-- With a token that presents no command the cursor of `read` stays (log entry 22). -/
theorem readCursor_refused {token : Str} (h : readToken token = none) (cursor : Nat) (s : State) :
    readCursor token cursor s = .ok cursor := by
  simp [readCursor, h]

/-- Everything the cursor of `read` can do for an exp-Golomb family: stay after a failed DECS, move by
CONSUMED after one that succeeded (R81 (c), R236, R280). -/
theorem readCursor_stream {token : Str} {p : ParsedToken} (h : readToken token = some p)
    (hg : isExpGolomb p.fam = true) (cursor : Nat) (s : State) :
    (∀ k, readCursor token cursor (s.raise k) = .ok cursor) ∧
      ∀ v n, readCursor token cursor (s.answerStream v n) = .ok (cursor + n) := by
  refine ⟨fun k => ?_, fun v n => ?_⟩
  · simp [readCursor, h, hg, bind, Except.bind, errorCode_ne_ok]
  · simp [readCursor, h, hg, bind, Except.bind]

/-- The cursor of `read` for any other family: past the L bits, once the command is done (log entry 22). -/
theorem readCursor_length {token : Str} {p : ParsedToken} (h : readToken token = some p)
    (hg : isExpGolomb p.fam = false) (cursor : Nat) {s : State} {st : BitVec 8}
    (hs : readStatus s = .ok st) :
    readCursor token cursor s = .ok (cursor + p.len.getD 0) := by
  simp [readCursor, h, hg, hs, bind, Except.bind]

end Sys2Proof.Machine
end

