-- ==== Sys2Proof/Laws/PerInstr.lean ====
section
/-! SUPPORT. One lemma for each instruction (LAWS.json): the fixed bits of its word are those of its row
of the opcode table (spec/30_encoding.md R67), and its length fields hold its explicit length. -/

namespace Sys2Proof.Laws

/-- The match value of each row of the opcode table (R67): `FAM`, `END` and `OP` in place. -/
def rowMatch : Instr → Nat
  | .decBin _ => 0x00
  | .encBin _ => 0x40
  | .decHex _ => 0x01
  | .encHex _ => 0x41
  | .decOct _ => 0x02
  | .encOct _ => 0x42
  | .decUint _ => 0x03
  | .decUintbe _ => 0x13
  | .decUintle _ => 0x23
  | .decUintne _ => 0x33
  | .encUint _ => 0x43
  | .encUintbe _ => 0x53
  | .encUintle _ => 0x63
  | .encUintne _ => 0x73
  | .decInt _ => 0x04
  | .decIntbe _ => 0x14
  | .decIntle _ => 0x24
  | .decIntne _ => 0x34
  | .encInt _ => 0x44
  | .encIntbe _ => 0x54
  | .encIntle _ => 0x64
  | .encIntne _ => 0x74
  | .decFloat _ => 0x05
  | .decFloatbe _ => 0x15
  | .decFloatle _ => 0x25
  | .decFloatne _ => 0x35
  | .encFloat _ => 0x45
  | .encFloatbe _ => 0x55
  | .encFloatle _ => 0x65
  | .encFloatne _ => 0x75
  | .decBfloat _ => 0x06
  | .decBfloatbe _ => 0x16
  | .decBfloatle _ => 0x26
  | .decBfloatne _ => 0x36
  | .encBfloat _ => 0x46
  | .encBfloatbe _ => 0x56
  | .encBfloatle _ => 0x66
  | .encBfloatne _ => 0x76
  | .decE4m3float _ => 0x07
  | .encE4m3float _ => 0x47
  | .decE5m2float _ => 0x08
  | .encE5m2float _ => 0x48
  | .decBytes _ => 0x09
  | .encBytes _ => 0x49
  | .padBytes _ => 0xC9
  | .decUe _ => 0x0A
  | .encUe _ => 0x4A
  | .decsUe _ => 0x8A
  | .decSe _ => 0x0B
  | .encSe _ => 0x4B
  | .decsSe _ => 0x8B
  | .decUie _ => 0x0C
  | .encUie _ => 0x4C
  | .decsUie _ => 0x8C
  | .decSie _ => 0x0D
  | .encSie _ => 0x4D
  | .decsSie _ => 0x8D

/-- A well-formed instruction's word has its row's bits in `CMD[7:0]` and none in `CMD[31:9]`, which is
what the row's mask fixes; `LP` says whether there is an explicit length, and `LEN` is its number. -/
def RowBits.Statement (i : Instr) : Prop :=
  i.wellFormed = true →
    cmdField (encode i) 7 0 = rowMatch i ∧ cmdReserved (encode i) = 0 ∧
      cmdLp (encode i) = i.len.isSome.toNat ∧ cmdLen (encode i) = i.len.getD 0

/-- The fields of the word of an instruction, from the instruction's fields. -/
theorem rowBits_word {i : Instr} (op : Op) (fam : Family) (e : Endian) (len : Option Nat)
    (hf : instrFields i = (op, fam, e, len)) (hl : i.len = len)
    (hr : rowMatch i = famCode fam + endCode e * 2 ^ 4 + opCode op * 2 ^ 6) :
    RowBits.Statement i := by
  intro h
  have hfam : famCode fam < 14 := by cases fam <;> decide
  have he : endCode e < 4 := by cases e <;> decide
  have hop : opCode op < 4 := by cases op <;> decide
  have hlen : lenFits len = true := by rw [← hl]; exact h
  rw [hl, hr]
  cases len with
  | none => simp [encode, hf, packFields, cmdField, cmdReserved, cmdLp, cmdLen]; omega
  | some n =>
    have hn : n < 2 ^ 32 := by simpa [lenFits] using hlen
    simp [encode, hf, packFields, cmdField, cmdReserved, cmdLp, cmdLen]; omega

theorem RowBits.decBin (len : Option Nat) : RowBits.Statement (.decBin len) :=
  rowBits_word _ _ _ len rfl rfl rfl
theorem RowBits.encBin (len : Option Nat) : RowBits.Statement (.encBin len) :=
  rowBits_word _ _ _ len rfl rfl rfl
theorem RowBits.decHex (len : Option Nat) : RowBits.Statement (.decHex len) :=
  rowBits_word _ _ _ len rfl rfl rfl
theorem RowBits.encHex (len : Option Nat) : RowBits.Statement (.encHex len) :=
  rowBits_word _ _ _ len rfl rfl rfl
theorem RowBits.decOct (len : Option Nat) : RowBits.Statement (.decOct len) :=
  rowBits_word _ _ _ len rfl rfl rfl
theorem RowBits.encOct (len : Option Nat) : RowBits.Statement (.encOct len) :=
  rowBits_word _ _ _ len rfl rfl rfl
theorem RowBits.decUint (len : Option Nat) : RowBits.Statement (.decUint len) :=
  rowBits_word _ _ _ len rfl rfl rfl
theorem RowBits.decUintbe (len : Option Nat) : RowBits.Statement (.decUintbe len) :=
  rowBits_word _ _ _ len rfl rfl rfl
theorem RowBits.decUintle (len : Option Nat) : RowBits.Statement (.decUintle len) :=
  rowBits_word _ _ _ len rfl rfl rfl
theorem RowBits.decUintne (len : Option Nat) : RowBits.Statement (.decUintne len) :=
  rowBits_word _ _ _ len rfl rfl rfl
theorem RowBits.encUint (len : Option Nat) : RowBits.Statement (.encUint len) :=
  rowBits_word _ _ _ len rfl rfl rfl
theorem RowBits.encUintbe (len : Option Nat) : RowBits.Statement (.encUintbe len) :=
  rowBits_word _ _ _ len rfl rfl rfl
theorem RowBits.encUintle (len : Option Nat) : RowBits.Statement (.encUintle len) :=
  rowBits_word _ _ _ len rfl rfl rfl
theorem RowBits.encUintne (len : Option Nat) : RowBits.Statement (.encUintne len) :=
  rowBits_word _ _ _ len rfl rfl rfl
theorem RowBits.decInt (len : Option Nat) : RowBits.Statement (.decInt len) :=
  rowBits_word _ _ _ len rfl rfl rfl
theorem RowBits.decIntbe (len : Option Nat) : RowBits.Statement (.decIntbe len) :=
  rowBits_word _ _ _ len rfl rfl rfl
theorem RowBits.decIntle (len : Option Nat) : RowBits.Statement (.decIntle len) :=
  rowBits_word _ _ _ len rfl rfl rfl
theorem RowBits.decIntne (len : Option Nat) : RowBits.Statement (.decIntne len) :=
  rowBits_word _ _ _ len rfl rfl rfl
theorem RowBits.encInt (len : Option Nat) : RowBits.Statement (.encInt len) :=
  rowBits_word _ _ _ len rfl rfl rfl
theorem RowBits.encIntbe (len : Option Nat) : RowBits.Statement (.encIntbe len) :=
  rowBits_word _ _ _ len rfl rfl rfl
theorem RowBits.encIntle (len : Option Nat) : RowBits.Statement (.encIntle len) :=
  rowBits_word _ _ _ len rfl rfl rfl
theorem RowBits.encIntne (len : Option Nat) : RowBits.Statement (.encIntne len) :=
  rowBits_word _ _ _ len rfl rfl rfl
theorem RowBits.decFloat (len : Option Nat) : RowBits.Statement (.decFloat len) :=
  rowBits_word _ _ _ len rfl rfl rfl
theorem RowBits.decFloatbe (len : Option Nat) : RowBits.Statement (.decFloatbe len) :=
  rowBits_word _ _ _ len rfl rfl rfl
theorem RowBits.decFloatle (len : Option Nat) : RowBits.Statement (.decFloatle len) :=
  rowBits_word _ _ _ len rfl rfl rfl
theorem RowBits.decFloatne (len : Option Nat) : RowBits.Statement (.decFloatne len) :=
  rowBits_word _ _ _ len rfl rfl rfl
theorem RowBits.encFloat (len : Option Nat) : RowBits.Statement (.encFloat len) :=
  rowBits_word _ _ _ len rfl rfl rfl
theorem RowBits.encFloatbe (len : Option Nat) : RowBits.Statement (.encFloatbe len) :=
  rowBits_word _ _ _ len rfl rfl rfl
theorem RowBits.encFloatle (len : Option Nat) : RowBits.Statement (.encFloatle len) :=
  rowBits_word _ _ _ len rfl rfl rfl
theorem RowBits.encFloatne (len : Option Nat) : RowBits.Statement (.encFloatne len) :=
  rowBits_word _ _ _ len rfl rfl rfl
theorem RowBits.decBfloat (len : Option Nat) : RowBits.Statement (.decBfloat len) :=
  rowBits_word _ _ _ len rfl rfl rfl
theorem RowBits.decBfloatbe (len : Option Nat) : RowBits.Statement (.decBfloatbe len) :=
  rowBits_word _ _ _ len rfl rfl rfl
theorem RowBits.decBfloatle (len : Option Nat) : RowBits.Statement (.decBfloatle len) :=
  rowBits_word _ _ _ len rfl rfl rfl
theorem RowBits.decBfloatne (len : Option Nat) : RowBits.Statement (.decBfloatne len) :=
  rowBits_word _ _ _ len rfl rfl rfl
theorem RowBits.encBfloat (len : Option Nat) : RowBits.Statement (.encBfloat len) :=
  rowBits_word _ _ _ len rfl rfl rfl
theorem RowBits.encBfloatbe (len : Option Nat) : RowBits.Statement (.encBfloatbe len) :=
  rowBits_word _ _ _ len rfl rfl rfl
theorem RowBits.encBfloatle (len : Option Nat) : RowBits.Statement (.encBfloatle len) :=
  rowBits_word _ _ _ len rfl rfl rfl
theorem RowBits.encBfloatne (len : Option Nat) : RowBits.Statement (.encBfloatne len) :=
  rowBits_word _ _ _ len rfl rfl rfl
theorem RowBits.decE4m3float (len : Option Nat) : RowBits.Statement (.decE4m3float len) :=
  rowBits_word _ _ _ len rfl rfl rfl
theorem RowBits.encE4m3float (len : Option Nat) : RowBits.Statement (.encE4m3float len) :=
  rowBits_word _ _ _ len rfl rfl rfl
theorem RowBits.decE5m2float (len : Option Nat) : RowBits.Statement (.decE5m2float len) :=
  rowBits_word _ _ _ len rfl rfl rfl
theorem RowBits.encE5m2float (len : Option Nat) : RowBits.Statement (.encE5m2float len) :=
  rowBits_word _ _ _ len rfl rfl rfl
theorem RowBits.decBytes (len : Option Nat) : RowBits.Statement (.decBytes len) :=
  rowBits_word _ _ _ len rfl rfl rfl
theorem RowBits.encBytes (len : Option Nat) : RowBits.Statement (.encBytes len) :=
  rowBits_word _ _ _ len rfl rfl rfl
theorem RowBits.padBytes (len : Option Nat) : RowBits.Statement (.padBytes len) :=
  rowBits_word _ _ _ len rfl rfl rfl
theorem RowBits.decUe (len : Option Nat) : RowBits.Statement (.decUe len) :=
  rowBits_word _ _ _ len rfl rfl rfl
theorem RowBits.encUe (len : Option Nat) : RowBits.Statement (.encUe len) :=
  rowBits_word _ _ _ len rfl rfl rfl
theorem RowBits.decsUe (len : Option Nat) : RowBits.Statement (.decsUe len) :=
  rowBits_word _ _ _ len rfl rfl rfl
theorem RowBits.decSe (len : Option Nat) : RowBits.Statement (.decSe len) :=
  rowBits_word _ _ _ len rfl rfl rfl
theorem RowBits.encSe (len : Option Nat) : RowBits.Statement (.encSe len) :=
  rowBits_word _ _ _ len rfl rfl rfl
theorem RowBits.decsSe (len : Option Nat) : RowBits.Statement (.decsSe len) :=
  rowBits_word _ _ _ len rfl rfl rfl
theorem RowBits.decUie (len : Option Nat) : RowBits.Statement (.decUie len) :=
  rowBits_word _ _ _ len rfl rfl rfl
theorem RowBits.encUie (len : Option Nat) : RowBits.Statement (.encUie len) :=
  rowBits_word _ _ _ len rfl rfl rfl
theorem RowBits.decsUie (len : Option Nat) : RowBits.Statement (.decsUie len) :=
  rowBits_word _ _ _ len rfl rfl rfl
theorem RowBits.decSie (len : Option Nat) : RowBits.Statement (.decSie len) :=
  rowBits_word _ _ _ len rfl rfl rfl
theorem RowBits.encSie (len : Option Nat) : RowBits.Statement (.encSie len) :=
  rowBits_word _ _ _ len rfl rfl rfl
theorem RowBits.decsSie (len : Option Nat) : RowBits.Statement (.decsSie len) :=
  rowBits_word _ _ _ len rfl rfl rfl

end Sys2Proof.Laws
end

