-- ==== Sys2Proof/Tests/Slice0.lean ====
section
/-! SUPPORT. The model's own tests: the smoke of WellFormed, the words of spec/30_encoding.md written out,
the legality checks, one or two vectors of spec/95_test_vectors.md for each instruction, the token
grammar, and for each statement a state that meets its hypotheses. A vector's expected answer is the
spec's; the section it stands in is named above each group. -/

open Sys2Proof Sys2Proof.Machine

namespace Sys2Proof.Tests

/-! ## Helpers -/

/-- The bit sequence of a list of 0 and 1, bit 0 first. -/
def seq (l : List Nat) : Bits := l.map fun d => d == 1

/-- The bit sequence of hex digits, four bits a digit, first digit first. -/
def hx (l : List Nat) : Bits :=
  l.flatMap fun d => [d.testBit 3, d.testBit 2, d.testBit 1, d.testBit 0]

/-- The value operand with nothing in it. -/
def noVal : Operand := { str := [], int := 0, flt := 0, byt := [] }

/-- A command word presented with a view and a value operand, on a host of the given byte order. -/
def start (h : ByteOrder) (w : CmdWord) (v : Bits) (x : Operand) : State :=
  { State.reset with cfg := { hostEndian := h }, req := { cmd := w, view := v, val := x }, busy := true }

/-- A command on a view. -/
def onView (w : CmdWord) (v : Bits) : State := start .big w v noVal

/-- A command on a string. -/
def onStr (w : CmdWord) (c : List Char) : State := start .big w [] { noVal with str := ascii c }

/-- A command on an integer. -/
def onInt (w : CmdWord) (z : Int) : State := start .big w [] { noVal with int := z }

/-- A command on a float word. -/
def onFlt (w : CmdWord) (d : Flt64) : State := start .big w [] { noVal with flt := d }

/-- A command on bytes. -/
def onByt (w : CmdWord) (b : List Byte) : State := start .big w [] { noVal with byt := b }

/-- The same command on a little-endian host. -/
def little (s : State) : State := { s with cfg := { hostEndian := .little } }

/-- The status a step answers. -/
def statusOf : StepOutcome → Option (BitVec 8)
  | .next t => some t.rsp.status
  | _ => none

/-- The value a step answers, when it answers one with STATUS 0. -/
def valueOf : StepOutcome → Option Value
  | .next t => if t.rsp.status = 0 ∧ t.rspKind = .value then some t.rsp.rval else none
  | _ => none

/-- The bits a step answers, when it answers them with STATUS 0. -/
def bitsOf : StepOutcome → Option Bits
  | .next t => if t.rsp.status = 0 ∧ t.rspKind = .bits then some t.rsp.res else none
  | _ => none

/-- The value and the count a step answers, when it answers them with STATUS 0. -/
def streamOf : StepOutcome → Option (Value × Nat)
  | .next t =>
    if t.rsp.status = 0 ∧ t.rspKind = .stream then some (t.rsp.rval, t.rsp.consumed) else none
  | _ => none

/-! ## WellFormed: the one check, a length that does not fit `LEN` -/

theorem test_wellFormed_refuses_2_32 : (Instr.decBin (some 4294967296)).wellFormed = false := by decide

theorem test_wellFormed_refuses_more :
    (Instr.encUintle (some 4294967297)).wellFormed = false := by decide

theorem test_wellFormed_accepts_the_greatest :
    (Instr.decUe (some 4294967295)).wellFormed = true ∧ (Instr.padBytes none).wellFormed = true := by
  decide

/-! ## Decoding: for every row its word from R60 to R67, the bits of `LP`, `OP`, `END`, `FAM` in that order;
and words with an explicit length -/

theorem test_decode_bin :
    decode 0b0_00_00_0000 = .ok (.decBin none) ∧
    decode 0b0_01_00_0000 = .ok (.encBin none) ∧
    decode 0x0000001800000140 = .ok (.encBin (some 24)) := by
  refine ⟨rfl, rfl, rfl⟩

theorem test_decode_hex :
    decode 0b0_00_00_0001 = .ok (.decHex none) ∧
    decode 0b0_01_00_0001 = .ok (.encHex none) ∧
    decode 0x0000001800000141 = .ok (.encHex (some 24)) := by
  refine ⟨rfl, rfl, rfl⟩

theorem test_decode_oct :
    decode 0b0_00_00_0010 = .ok (.decOct none) ∧
    decode 0b0_01_00_0010 = .ok (.encOct none) ∧
    decode 0x0000001800000142 = .ok (.encOct (some 24)) := by
  refine ⟨rfl, rfl, rfl⟩

theorem test_decode_uint :
    decode 0b0_00_00_0011 = .ok (.decUint none) ∧
    decode 0b0_00_01_0011 = .ok (.decUintbe none) ∧
    decode 0b0_00_10_0011 = .ok (.decUintle none) ∧
    decode 0b0_00_11_0011 = .ok (.decUintne none) ∧
    decode 0b0_01_00_0011 = .ok (.encUint none) ∧
    decode 0b0_01_01_0011 = .ok (.encUintbe none) ∧
    decode 0b0_01_10_0011 = .ok (.encUintle none) ∧
    decode 0b0_01_11_0011 = .ok (.encUintne none) ∧
    decode 0x0000001800000173 = .ok (.encUintne (some 24)) := by
  refine ⟨rfl, rfl, rfl, rfl, rfl, rfl, rfl, rfl, rfl⟩

theorem test_decode_int :
    decode 0b0_00_00_0100 = .ok (.decInt none) ∧
    decode 0b0_00_01_0100 = .ok (.decIntbe none) ∧
    decode 0b0_00_10_0100 = .ok (.decIntle none) ∧
    decode 0b0_00_11_0100 = .ok (.decIntne none) ∧
    decode 0b0_01_00_0100 = .ok (.encInt none) ∧
    decode 0b0_01_01_0100 = .ok (.encIntbe none) ∧
    decode 0b0_01_10_0100 = .ok (.encIntle none) ∧
    decode 0b0_01_11_0100 = .ok (.encIntne none) ∧
    decode 0x0000001800000174 = .ok (.encIntne (some 24)) := by
  refine ⟨rfl, rfl, rfl, rfl, rfl, rfl, rfl, rfl, rfl⟩

theorem test_decode_float :
    decode 0b0_00_00_0101 = .ok (.decFloat none) ∧
    decode 0b0_00_01_0101 = .ok (.decFloatbe none) ∧
    decode 0b0_00_10_0101 = .ok (.decFloatle none) ∧
    decode 0b0_00_11_0101 = .ok (.decFloatne none) ∧
    decode 0b0_01_00_0101 = .ok (.encFloat none) ∧
    decode 0b0_01_01_0101 = .ok (.encFloatbe none) ∧
    decode 0b0_01_10_0101 = .ok (.encFloatle none) ∧
    decode 0b0_01_11_0101 = .ok (.encFloatne none) ∧
    decode 0x0000001800000175 = .ok (.encFloatne (some 24)) := by
  refine ⟨rfl, rfl, rfl, rfl, rfl, rfl, rfl, rfl, rfl⟩

theorem test_decode_bfloat :
    decode 0b0_00_00_0110 = .ok (.decBfloat none) ∧
    decode 0b0_00_01_0110 = .ok (.decBfloatbe none) ∧
    decode 0b0_00_10_0110 = .ok (.decBfloatle none) ∧
    decode 0b0_00_11_0110 = .ok (.decBfloatne none) ∧
    decode 0b0_01_00_0110 = .ok (.encBfloat none) ∧
    decode 0b0_01_01_0110 = .ok (.encBfloatbe none) ∧
    decode 0b0_01_10_0110 = .ok (.encBfloatle none) ∧
    decode 0b0_01_11_0110 = .ok (.encBfloatne none) ∧
    decode 0x0000001800000176 = .ok (.encBfloatne (some 24)) := by
  refine ⟨rfl, rfl, rfl, rfl, rfl, rfl, rfl, rfl, rfl⟩

theorem test_decode_e4m3float :
    decode 0b0_00_00_0111 = .ok (.decE4m3float none) ∧
    decode 0b0_01_00_0111 = .ok (.encE4m3float none) ∧
    decode 0x0000001800000147 = .ok (.encE4m3float (some 24)) := by
  refine ⟨rfl, rfl, rfl⟩

theorem test_decode_e5m2float :
    decode 0b0_00_00_1000 = .ok (.decE5m2float none) ∧
    decode 0b0_01_00_1000 = .ok (.encE5m2float none) ∧
    decode 0x0000001800000148 = .ok (.encE5m2float (some 24)) := by
  refine ⟨rfl, rfl, rfl⟩

theorem test_decode_bytes :
    decode 0b0_00_00_1001 = .ok (.decBytes none) ∧
    decode 0b0_01_00_1001 = .ok (.encBytes none) ∧
    decode 0b0_11_00_1001 = .ok (.padBytes none) ∧
    decode 0x00000018000001C9 = .ok (.padBytes (some 24)) := by
  refine ⟨rfl, rfl, rfl, rfl⟩

theorem test_decode_ue :
    decode 0b0_00_00_1010 = .ok (.decUe none) ∧
    decode 0b0_01_00_1010 = .ok (.encUe none) ∧
    decode 0b0_10_00_1010 = .ok (.decsUe none) ∧
    decode 0x000000180000018A = .ok (.decsUe (some 24)) := by
  refine ⟨rfl, rfl, rfl, rfl⟩

theorem test_decode_se :
    decode 0b0_00_00_1011 = .ok (.decSe none) ∧
    decode 0b0_01_00_1011 = .ok (.encSe none) ∧
    decode 0b0_10_00_1011 = .ok (.decsSe none) ∧
    decode 0x000000180000018B = .ok (.decsSe (some 24)) := by
  refine ⟨rfl, rfl, rfl, rfl⟩

theorem test_decode_uie :
    decode 0b0_00_00_1100 = .ok (.decUie none) ∧
    decode 0b0_01_00_1100 = .ok (.encUie none) ∧
    decode 0b0_10_00_1100 = .ok (.decsUie none) ∧
    decode 0x000000180000018C = .ok (.decsUie (some 24)) := by
  refine ⟨rfl, rfl, rfl, rfl⟩

theorem test_decode_sie :
    decode 0b0_00_00_1101 = .ok (.decSie none) ∧
    decode 0b0_01_00_1101 = .ok (.encSie none) ∧
    decode 0b0_10_00_1101 = .ok (.decsSie none) ∧
    decode 0x000000180000018D = .ok (.decsSie (some 24)) := by
  refine ⟨rfl, rfl, rfl, rfl⟩

theorem test_decode_greatest_length :
    decode 0xFFFFFFFF00000100 = .ok (.decBin (some 4294967295)) := rfl

theorem test_decodeTableWord :
    decodeTableWord 64 0x0000002000000123 = some (.decUintle (some 32)) ∧
      decodeTableWord 64 0x000000000000000E = none := ⟨rfl, rfl⟩

/-! ## Legality of words (section 2.8): the five checks in order -/

theorem test_reject_bit9 :
    decode 0x200 = .error .reservedBits ∧ statusOf (step (onView 0x200 [])) = some 6 := ⟨rfl, by decide⟩

theorem test_reject_bit31 :
    decode 0x80000003 = .error .reservedBits ∧ statusOf (step (onView 0x80000003 [])) = some 6 := ⟨rfl, by decide⟩

theorem test_reject_bit9_before_family :
    decode 0x20E = .error .reservedBits ∧ statusOf (step (onView 0x20E [])) = some 6 := ⟨rfl, by decide⟩

theorem test_reject_family_14 :
    decode 0xE = .error .unknownFamily ∧ statusOf (step (onView 0xE [])) = some 2 := ⟨rfl, by decide⟩

theorem test_reject_family_15_before_end :
    decode 0x1F = .error .unknownFamily ∧ statusOf (step (onView 0x1F [])) = some 2 := ⟨rfl, by decide⟩

theorem test_reject_family_14_before_op :
    decode 0xCE = .error .unknownFamily ∧ statusOf (step (onView 0xCE [])) = some 2 := ⟨rfl, by decide⟩

theorem test_reject_end_on_hex :
    decode 0x11 = .error .endianOnFamily ∧ statusOf (step (onView 0x11 [])) = some 6 := ⟨rfl, by decide⟩

theorem test_reject_end_on_ue :
    decode 0x3A = .error .endianOnFamily ∧ statusOf (step (onView 0x3A [])) = some 6 := ⟨rfl, by decide⟩

theorem test_reject_decs_on_uint :
    decode 0x83 = .error .opOnFamily ∧ statusOf (step (onView 0x83 [])) = some 6 := ⟨rfl, by decide⟩

theorem test_reject_pad_on_ue :
    decode 0xCA = .error .opOnFamily ∧ statusOf (step (onView 0xCA [])) = some 6 := ⟨rfl, by decide⟩

theorem test_reject_len_without_lp :
    decode 0x800000003 = .error .lenWithoutLp ∧ statusOf (step (onView 0x800000003 [])) = some 6 := ⟨rfl, by decide⟩

/-! ## One step of each instruction (sections 2.1 to 2.7) -/

theorem test_decBin :
    valueOf (step (onView 0x0 (seq [0, 0, 0, 1, 1, 0, 1]))) = some (.str (ascii ['0', '0', '0', '1', '1', '0', '1'])) := by rfl

theorem test_decBin_other_length :
    statusOf (step (onView 0x300000100 (seq [1, 0, 1, 0]))) = some 4 := by rfl

theorem test_encBin :
    bitsOf (step (onStr 0x40 ['0', '0', '0', '1', '1', '0', '1'])) = some (seq [0, 0, 0, 1, 1, 0, 1]) := by rfl

theorem test_encBin_bad_digit :
    statusOf (step (onStr 0x40 ['0', '1', '2'])) = some 5 := by rfl

theorem test_decHex :
    valueOf (step (onView 0x1 (seq [1, 0, 1, 0, 1, 0, 1, 1]))) = some (.str (ascii ['a', 'b'])) := by rfl

theorem test_decHex_length_first :
    statusOf (step (onView 0x600000101 (seq [1, 1, 1]))) = some 3 := by rfl

theorem test_encHex :
    bitsOf (step (onStr 0x41 ['a', 'B'])) = some (seq [1, 0, 1, 0, 1, 0, 1, 1]) := by rfl

theorem test_encHex_bad_digit_first :
    statusOf (step (onStr 0x800000141 ['z', 'z'])) = some 5 := by rfl

theorem test_decOct :
    valueOf (step (onView 0x2 (seq [0, 0, 0, 1, 0, 0, 1, 0, 0, 0, 1, 1]))) = some (.str (ascii ['0', '4', '4', '3'])) := by rfl

theorem test_decOct_no_groups :
    statusOf (step (onView 0x2 (seq [1, 1, 1, 1]))) = some 4 := by rfl

theorem test_encOct :
    bitsOf (step (onStr 0x900000142 ['4', '4', '3'])) = some (seq [1, 0, 0, 1, 0, 0, 0, 1, 1]) := by rfl

theorem test_encOct_other_length :
    statusOf (step (onStr 0x900000142 ['0', '4', '4', '3'])) = some 5 := by rfl

theorem test_decUint :
    valueOf (step (onView 0x3 (seq [0, 0, 0, 1, 0, 0, 1, 0, 0, 0, 1, 1]))) = some (.int (291)) := by rfl

theorem test_decUint_empty :
    statusOf (step (onView 0x3 [])) = some 4 := by rfl

theorem test_decUintbe :
    valueOf (step (onView 0x13 (hx [0x0, 0x1, 0x0, 0x2]))) = some (.int (258)) := by rfl

theorem test_decUintbe_empty :
    statusOf (step (onView 0x13 [])) = some 4 := by rfl

theorem test_decUintle :
    valueOf (step (onView 0x23 (hx [0x0, 0x1, 0x0, 0x2]))) = some (.int (513)) := by rfl

theorem test_decUintle_no_bytes :
    statusOf (step (onView 0xC00000123 (seq [0, 0, 0, 1, 0, 0, 1, 0, 0, 0, 1, 1]))) = some 5 := by rfl

theorem test_decUintne_big :
    valueOf (step (onView 0x33 (hx [0x0, 0x1, 0x0, 0x2]))) = some (.int (258)) := by rfl

theorem test_decUintne_little :
    valueOf (step (little (onView 0x33 (hx [0x0, 0x1, 0x0, 0x2])))) = some (.int (513)) := by rfl

theorem test_encUint :
    bitsOf (step (onInt 0xC00000143 291)) = some (seq [0, 0, 0, 1, 0, 0, 1, 0, 0, 0, 1, 1]) := by rfl

theorem test_encUint_no_wrap :
    statusOf (step (onInt 0x800000143 (-1))) = some 5 := by rfl

theorem test_encUintbe :
    bitsOf (step (onInt 0x1800000153 1)) = some (hx [0x0, 0x0, 0x0, 0x0, 0x0, 0x1]) := by rfl

theorem test_encUintbe_too_big :
    statusOf (step (onInt 0x800000153 256)) = some 5 := by rfl

theorem test_encUintle :
    bitsOf (step (onInt 0x2000000163 305419896)) = some (hx [0x7, 0x8, 0x5, 0x6, 0x3, 0x4, 0x1, 0x2]) := by rfl

theorem test_encUintle_no_bytes :
    statusOf (step (onInt 0xC00000163 5)) = some 5 := by rfl

theorem test_encUintne_big :
    bitsOf (step (onInt 0x1000000173 258)) = some (hx [0x0, 0x1, 0x0, 0x2]) := by rfl

theorem test_encUintne_little :
    bitsOf (step (little (onInt 0x1000000173 258))) = some (hx [0x0, 0x2, 0x0, 0x1]) := by rfl

theorem test_decInt :
    valueOf (step (onView 0x4 (seq [1, 0, 0, 0]))) = some (.int (-8)) := by rfl

theorem test_decInt_one_bit :
    valueOf (step (onView 0x4 (seq [1]))) = some (.int (-1)) := by rfl

theorem test_decIntbe :
    valueOf (step (onView 0x14 (hx [0x0, 0x0, 0xF, 0xF]))) = some (.int (255)) := by rfl

theorem test_decIntle :
    valueOf (step (onView 0x24 (hx [0x0, 0x0, 0x8, 0x0]))) = some (.int (-32768)) := by rfl

theorem test_decIntne_big :
    valueOf (step (onView 0x34 (hx [0x0, 0x0, 0xF, 0xF]))) = some (.int (255)) := by rfl

theorem test_decIntne_little :
    valueOf (step (little (onView 0x34 (hx [0x0, 0x0, 0xF, 0xF])))) = some (.int (-256)) := by rfl

theorem test_encInt :
    bitsOf (step (onInt 0x400000144 (-8))) = some (seq [1, 0, 0, 0]) := by rfl

theorem test_encInt_out_of_range :
    statusOf (step (onInt 0x100000144 1)) = some 5 := by rfl

theorem test_encIntbe :
    bitsOf (step (onInt 0x1000000154 (-2))) = some (hx [0xF, 0xF, 0xF, 0xE]) := by rfl

theorem test_encIntbe_no_length :
    statusOf (step (onInt 0x54 0)) = some 3 := by rfl

theorem test_encIntle :
    bitsOf (step (onInt 0x1000000164 (-256))) = some (hx [0x0, 0x0, 0xF, 0xF]) := by rfl

theorem test_encIntle_below :
    statusOf (step (onInt 0x800000164 (-129))) = some 5 := by rfl

theorem test_encIntne_big :
    bitsOf (step (onInt 0x1000000174 (-256))) = some (hx [0xF, 0xF, 0x0, 0x0]) := by rfl

theorem test_encIntne_little :
    bitsOf (step (little (onInt 0x1000000174 (-256)))) = some (hx [0x0, 0x0, 0xF, 0xF]) := by rfl

theorem test_decFloatbe_24_bits :
    statusOf (step (onView 0x15 (hx [0x3, 0xC, 0x0, 0x0, 0x0, 0x0]))) = some 4 := by rfl

theorem test_decFloatle_length_24 :
    statusOf (step (onView 0x1800000125 (hx [0x3, 0xC, 0x0, 0x0, 0x0, 0x0]))) = some 3 := by rfl

theorem test_decBfloatbe_8_bits :
    statusOf (step (onView 0x16 (hx [0x3, 0xF]))) = some 4 := by rfl

theorem test_decBfloatle_length_32 :
    statusOf (step (onView 0x2000000126 (hx [0x8, 0x0, 0x3, 0xF]))) = some 3 := by rfl

theorem test_encBfloat_length_32 :
    statusOf (step (onFlt 0x2000000146 0)) = some 3 := by rfl

/-- The four instructions of the family and operation, and their corners. -/
theorem test_decFloat :
    valueOf (step (onView 0x5 (hx [0x0, 0x3, 0xF, 0xF]))) = some (.flt 0x3F0FF80000000000) ∧
    valueOf (step (onView 0x5 (hx [0x3, 0xD, 0xC, 0xC, 0xC, 0xC, 0xC, 0xD]))) = some (.flt 0x3FB99999A0000000) ∧
    valueOf (step (onView 0x15 (hx [0x7, 0xF, 0xF, 0x0, 0x0, 0x0, 0x0, 0x0, 0x0, 0x0, 0x0, 0x0, 0x0, 0x0, 0x0, 0x1]))) = some (.flt 0x7FF0000000000001) ∧
    valueOf (step (onView 0x25 (hx [0x0, 0x0, 0x0, 0x0, 0x8, 0x0, 0x3, 0xF]))) = some (.flt 0x3FF0000000000000) ∧
    valueOf (step (onView 0x35 (hx [0xC, 0x0, 0x0, 0x0]))) = some (.flt 0xC000000000000000) ∧
    valueOf (step (little (onView 0x35 (hx [0x0, 0x0, 0x3, 0xC])))) = some (.flt 0x3FF0000000000000) := by decide +kernel

/-- The four instructions of the family and operation, and their corners. -/
theorem test_encFloat :
    bitsOf (step (onFlt 0x1000000145 0x3E68000000000000)) = some (hx [0x0, 0x0, 0x0, 0x1]) ∧
    statusOf (step (onFlt 0x1000000145 0x40EFFE0000000000)) = some 5 ∧
    bitsOf (step (onFlt 0x4000000155 0x7FF0000000000001)) = some (hx [0x7, 0xF, 0xF, 0x0, 0x0, 0x0, 0x0, 0x0, 0x0, 0x0, 0x0, 0x0, 0x0, 0x0, 0x0, 0x1]) ∧
    statusOf (step (onFlt 0x2000000155 0x47EFFFFFF0000000)) = some 5 ∧
    bitsOf (step (onFlt 0x2000000165 0x3FF0000000000000)) = some (hx [0x0, 0x0, 0x0, 0x0, 0x8, 0x0, 0x3, 0xF]) ∧
    bitsOf (step (onFlt 0x2000000165 0x47EFFFFFEFFFFFFF)) = some (hx [0xF, 0xF, 0xF, 0xF, 0x7, 0xF, 0x7, 0xF]) ∧
    bitsOf (step (onFlt 0x2000000175 0x3FF0000000000000)) = some (hx [0x3, 0xF, 0x8, 0x0, 0x0, 0x0, 0x0, 0x0]) ∧
    bitsOf (step (little (onFlt 0x2000000175 0x3FF0000000000000))) = some (hx [0x0, 0x0, 0x0, 0x0, 0x8, 0x0, 0x3, 0xF]) := by decide +kernel

/-- The four instructions of the family and operation, and their corners. -/
theorem test_decBfloat :
    valueOf (step (onView 0x6 (hx [0x4, 0x0, 0x4, 0x9]))) = some (.flt 0x4009200000000000) ∧
    valueOf (step (onView 0x6 (hx [0x0, 0x0, 0x0, 0x1]))) = some (.flt 0x37A0000000000000) ∧
    valueOf (step (onView 0x16 (hx [0x7, 0xF, 0x7, 0xF]))) = some (.flt 0x47EFE00000000000) ∧
    valueOf (step (onView 0x26 (hx [0x8, 0x0, 0x3, 0xF]))) = some (.flt 0x3FF0000000000000) ∧
    valueOf (step (onView 0x36 (hx [0xC, 0x0, 0x0, 0x0]))) = some (.flt 0xC000000000000000) ∧
    valueOf (step (little (onView 0x36 (hx [0x8, 0x0, 0x3, 0xF])))) = some (.flt 0x3FF0000000000000) := by decide +kernel

/-- The four instructions of the family and operation, and their corners. -/
theorem test_encBfloat :
    bitsOf (step (onFlt 0x46 0xC8078287F49C4A1D)) = some (hx [0xF, 0xF, 0x7, 0xF]) ∧
    bitsOf (step (onFlt 0x1000000156 0x48078287F49C4A1D)) = some (hx [0x7, 0xF, 0x7, 0xF]) ∧
    bitsOf (step (onFlt 0x66 0x48078287F49C4A1D)) = some (hx [0x7, 0xF, 0x7, 0xF]) ∧
    bitsOf (step (onFlt 0x66 0xFFF0000000000000)) = some (hx [0x8, 0x0, 0xF, 0xF]) ∧
    bitsOf (step (onFlt 0x76 0xFFF0000000000000)) = some (hx [0xF, 0xF, 0x8, 0x0]) ∧
    bitsOf (step (little (onFlt 0x76 0xFFF0000000000000))) = some (hx [0x8, 0x0, 0xF, 0xF]) := by decide +kernel

/-- The column `truncate` and the column `rne` of section 2.5. -/
theorem test_bfloat_truncate :
    [0x3FB999999999999A, 0x3FF0300000000000, 0x40EFFE0000000000, 0x37A16C262777579C].map
      (bfloatWord .truncate) = [0x3DCC, 0x3F81, 0x477F, 0x0001] := by decide +kernel

theorem test_bfloat_rne :
    [0x3FB999999999999A, 0x3FF0100000000000, 0x3FF0300000000000, 0x3FF0100020000000,
      0x47EFF00000000000].map (bfloatWord .rne) = [0x3DCD, 0x3F80, 0x3F82, 0x3F81, 0x7F7F] := by
  decide +kernel

theorem test_nan_defaults :
    [0x7FF0000000000001, 0xFFF4000000000000].map (defaultNanNarrow 8 23) = [0x7FC00000, 0xFFE00000] ∧
      defaultNanNarrow 5 10 0x7FFFFFFFFFFFFFFF = 0x7FFF ∧
      defaultNanWiden 5 10 0x7C01 = 0x7FF8040000000000 := by decide +kernel

theorem test_decE4m3float_16_bits :
    statusOf (step (onView 0x7 (hx [0x4, 0x0, 0x0, 0x0]))) = some 4 := by rfl

/-- Section 2.6, with the default formats. -/
theorem test_decE4m3float_default :
    [0x01, 0x07, 0x41, 0x7F, 0x80, 0x81].map (miniDecode defaultA) =
      [0x3F50000000000000, 0x3F7C000000000000, 0x3FF2000000000000, 0x406E000000000000,
        0x7FF8000000000000, 0xBF50000000000000] := by decide +kernel

theorem test_encE4m3float_default :
    [0x8000000000000000, 0x3FB999999999999A, 0x3FF1000000000000, 0x3FF3000000000000,
      0x406D000000000000, 0x406E4CCCCCCCCCCD, 0xFFF0000000000000, 0x7FF8000000000000,
      0xBF30000000000000].map (miniEncode defaultA) =
      [0x00, 0x25, 0x40, 0x42, 0x7E, 0x7F, 0xFF, 0x80, 0x00] := by decide +kernel

theorem test_encE4m3float_length_16 :
    statusOf (step (onFlt 0x1000000147 0)) = some 3 := by rfl

theorem test_decE5m2float_length_16 :
    statusOf (step (onView 0x1000000108 (hx [0x4, 0x0, 0x0, 0x0]))) = some 3 := by rfl

theorem test_decE5m2float_default :
    [0x01, 0x38, 0x44, 0x7F, 0xC0].map (miniDecode defaultB) =
      [0x3EE0000000000000, 0x3FD0000000000000, 0x4000000000000000, 0x40EC000000000000,
        0xBFF0000000000000] := by decide +kernel

theorem test_encE5m2float_default :
    [0x3FF2000000000000, 0x406D000000000000, 0x406E000000000000, 0xC12E848000000000,
      0x3ED0000000000000, 0x3ED000001AD7F29B].map (miniEncode defaultB) =
      [0x40, 0x5F, 0x60, 0xFF, 0x00, 0x01] := by decide +kernel

theorem test_encE5m2float_length_16 :
    statusOf (step (onFlt 0x1000000148 0x3FF0000000000000)) = some 3 := by rfl

theorem test_alternative_formats :
    [0xC12E848000000000, 0x8000000000000000, 0x7FF8000000000000].map (miniEncode alternativeA) =
      [0xFE, 0x80, 0x7F] ∧
    [0x412E848000000000, 0x7FF0000000000000, 0x7FF8000000000000].map (miniEncode alternativeB) =
      [0x7B, 0x7B, 0x7E] ∧
    [0x7C, 0x7E, 0x01].map (miniDecode alternativeB) =
      [0x7FF0000000000000, 0x7FF8000000000000, 0x3EF0000000000000] := by decide +kernel

theorem test_decBytes :
    valueOf (step (onView 0x1000000109 (hx [0x1, 0x6, 0x4, 0xb]))) = some (.byt [0x16, 0x4B]) := by rfl

theorem test_decBytes_no_bytes :
    statusOf (step (onView 0x9 (seq [0, 0, 0, 1, 0, 0, 1, 0, 0, 0, 1, 1]))) = some 5 := by rfl

theorem test_encBytes :
    bitsOf (step (onByt 0x49 [0x16, 0x4B])) = some (hx [0x1, 0x6, 0x4, 0xb]) := by rfl

theorem test_encBytes_other_length :
    statusOf (step (onByt 0x1000000149 [0x16])) = some 5 := by rfl

theorem test_padBytes :
    valueOf (step (onView 0xC9 (seq [0, 0, 0, 1, 0, 0, 1, 0, 0, 0, 1, 1]))) = some (.byt [0x12, 0x30]) := by rfl

theorem test_padBytes_length :
    statusOf (step (onView 0x10000001C9 (hx [0x1, 0x6, 0x4, 0xb]))) = some 3 := by rfl

theorem test_decUe :
    valueOf (step (onView 0xA (seq [0, 0, 0, 1, 1, 0, 1]))) = some (.int (12)) := by rfl

theorem test_decUe_left_over :
    statusOf (step (onView 0xA (seq [0, 0, 0, 1, 1, 0, 1, 1]))) = some 4 := by rfl

theorem test_encUe :
    bitsOf (step (onInt 0x4A 14)) = some (seq [0, 0, 0, 1, 1, 1, 1]) := by rfl

theorem test_encUe_negative :
    statusOf (step (onInt 0x4A (-1))) = some 5 := by rfl

theorem test_decsUe :
    streamOf (step (onView 0x8A (seq [0, 0, 0, 1, 1, 0, 1, 1]))) = some (.int (12), 7) := by rfl

theorem test_decsUe_short :
    statusOf (step (onView 0x8A (seq [0, 0, 0, 1]))) = some 4 := by rfl

theorem test_decSe :
    valueOf (step (onView 0xB (seq [0, 0, 0, 1, 1, 0, 1]))) = some (.int (-6)) := by rfl

theorem test_decSe_positive :
    valueOf (step (onView 0xB (seq [0, 0, 0, 1, 1, 1, 0]))) = some (.int (7)) := by rfl

theorem test_encSe :
    bitsOf (step (onInt 0x4B (-5))) = some (seq [0, 0, 0, 1, 0, 1, 1]) := by rfl

theorem test_encSe_positive :
    bitsOf (step (onInt 0x4B 3)) = some (seq [0, 0, 1, 1, 0]) := by rfl

theorem test_decsSe :
    streamOf (step (onView 0x8B (seq [0, 0, 0, 1, 0, 1, 1, 0, 0, 1, 0, 0, 1, 0, 1, 1]))) = some (.int (-5), 7) := by rfl

theorem test_decsSe_length :
    statusOf (step (onView 0x18B (seq [1]))) = some 3 := by rfl

theorem test_decUie :
    valueOf (step (onView 0xC (seq [0, 1, 0, 0, 0, 1, 1]))) = some (.int (12)) := by rfl

theorem test_decUie_left_over :
    statusOf (step (onView 0xC (seq [0, 0, 0, 1, 1, 0, 1]))) = some 4 := by rfl

theorem test_encUie :
    bitsOf (step (onInt 0x4C 12)) = some (seq [0, 1, 0, 0, 0, 1, 1]) := by rfl

theorem test_encUie_8 :
    bitsOf (step (onInt 0x4C 8)) = some (seq [0, 0, 0, 0, 0, 1, 1]) := by rfl

theorem test_decsUie :
    streamOf (step (onView 0x8C (seq [0, 0, 0, 1, 1, 0, 1]))) = some (.int (4), 5) := by rfl

theorem test_decsUie_no_stop :
    statusOf (step (onView 0x8C (seq [0, 1, 0, 0]))) = some 4 := by rfl

theorem test_decSie :
    valueOf (step (onView 0xD (seq [0, 1, 0, 0, 0, 1, 1]))) = some (.int (-6)) := by rfl

theorem test_decSie_no_payload :
    statusOf (step (onView 0xD (seq [0]))) = some 4 := by rfl

theorem test_encSie :
    bitsOf (step (onInt 0x4D (-3))) = some (seq [0, 1, 0, 1, 1]) := by rfl

theorem test_encSie_positive :
    bitsOf (step (onInt 0x4D 5)) = some (seq [0, 0, 0, 1, 0, 0, 1]) := by rfl

theorem test_decsSie :
    streamOf (step (onView 0x8D (seq [0, 0, 0, 1, 1, 0, 1]))) = some (.int (-2), 5) := by rfl

theorem test_decsSie_stop_only :
    streamOf (step (onView 0x8D (seq [1, 0]))) = some (.int (0), 1) := by rfl

/-! ## Tokens and lines (section 2.9; R80 to R82) -/

theorem test_token_longest_match :
    parseToken (ascii ['b', 'f', 'l', 'o', 'a', 't', 'l', 'e']) = .ok ⟨.bfloat, .le, none⟩ ∧
      parseToken (ascii ['e', '5', 'm', '2', 'f', 'l', 'o', 'a', 't', '8']) =
        .ok ⟨.e5m2float, .bitwise, some 8⟩ ∧
      parseToken (ascii ['u', 'i', 'n', 't', '0', '8']) = .ok ⟨.uint, .bitwise, some 8⟩ :=
  ⟨rfl, rfl, rfl⟩

theorem test_token_errors :
    parseToken (ascii ['o', 'n', 'e', '8']) = .error .tokenSyntax ∧
      parseToken (ascii ['b', 'f', '1', '6']) = .error .tokenSyntax ∧
      parseToken [] = .error .tokenSyntax ∧
      tokenCommand .dec ⟨.hex, .bitwise, some 6⟩ = .error .invalidLength := ⟨rfl, rfl, rfl, rfl⟩

/-- `dec ule8, 0x16` (R80). -/
theorem test_line :
    parseLine (ascii ['d', 'e', 'c', ' ', 'u', 'l', 'e', '8', ',', ' ', '0', 'x', '1', '6']) =
      some (.command .dec (ascii ['u', 'l', 'e', '8']) (.bits (hx [1, 6]))) := by rfl

/-- The decimal literals of sections 2.3 and 2.6 without a point, with their words; a name; an empty operand. -/
theorem test_operands :
    plainOperand (ascii ['1', 'e', '3', '9']) = some (.val (.flt 0x48078287F49C4A1D)) ∧
      plainOperand (ascii ['1', 'e', '-', '8']) = some (.val (.flt 0x3E45798EE2308C3A)) ∧
      plainOperand (ascii ['-', '1', 'e', '6']) = some (.val (.flt 0xC12E848000000000)) ∧
      plainOperand (ascii ['0', '.', '1']) = some (.val (.flt 0x3FB999999999999A)) ∧
      plainOperand (ascii ['-', 'I', 'n', 'f']) = some (.val (.flt 0xFFF0000000000000)) ∧
      plainOperand (ascii ['1', 'e', '4', '0', '0']) = none ∧
      plainOperand (ascii ['V']) = some (.var (ascii ['V'])) ∧
      plainOperand (ascii ['-', '5']) = some (.val (.int (-5))) ∧
      plainOperand [] = some (.val (.byt [])) ∧
      plainOperand (ascii ['0', 'x']) = some (.bits []) ∧
      plainOperand (ascii ['b', 'y', 't', 'e', 's', ':']) = some (.val (.byt [])) := by decide +kernel

/-- A format whose negative codes above `MAXC` are ordinary is not lawful (R207, R214; log entry 11). -/
theorem test_miniLaw_refuses_ordinary_above_maxC :
    miniLaw 4 3 { alternativeA with special := [(0x7F, .nan)] } = false ∧
      miniLaw 4 3 alternativeA = true := by decide +kernel

/-- `hex6` and `se8` are refused by the assembler, so `read` leaves its cursor. -/
theorem test_read_refused (s : State) :
    readCursor (ascii ['h', 'e', 'x', '6']) 3 s = .ok 3 ∧
      readCursor (ascii ['s', 'e', '8']) 3 s = .ok 3 := ⟨rfl, rfl⟩

/-- `uint` has no length, so `read` presents nothing and leaves its cursor (log entry 22). -/
theorem test_read_no_length (r : Request) (s : State) :
    readRequest r (ascii ['u', 'i', 'n', 't']) [true] 0 = none ∧
      readCursor (ascii ['u', 'i', 'n', 't']) 3 s = .ok 3 := ⟨rfl, rfl⟩

/-- The cursor after a step of `read se`, at 13 and at 16 of the bits of program P1 (lines 4 and 5). -/
theorem test_read_cursor :
    (∃ t, step (onView 0x8B (seq [0, 1, 1])) = .next t ∧
      readCursor (ascii ['s', 'e']) 13 t = .ok 16) ∧
    ∃ t, step (onView 0x8B []) = .next t ∧ readCursor (ascii ['s', 'e']) 16 t = .ok 16 :=
  ⟨⟨_, rfl, rfl⟩, ⟨_, rfl, rfl⟩⟩

/-! ## The host's port (R35, R306 to R308) -/

theorem test_host_read_before_first : readStatus State.reset = .error .readBeforeFirst := rfl

theorem test_host_start_while_busy :
    present State.reset.req (onView 0 []) = .error .startWhileBusy := rfl

/-! ## Witnesses: for each statement with hypotheses, states and operands that meet them, clause by
clause -/

/-- A state with the request of s and other leftovers. -/
def stale (s : State) : State :=
  { s with rsp := { status := 5, res := [true], rval := .int 9, consumed := 4 }, freeIdx := 7,
           rspKind := .error }

theorem test_witness_DecodeOfEncodeIsTheInstruction :
    (Instr.decsSie (some 4294967295)).wellFormed = true ∧ (Instr.encBin none).wellFormed = true :=
  ⟨rfl, rfl⟩

theorem test_witness_EncodeOfDecodeIsTheWord :
    decode 0xFFFFFFFF00000123 = .ok (.decUintle (some 4294967295)) := rfl

theorem test_witness_DecoderAnswersTheFirstFailingCheck :
    (onView 0x20E []).busy = true ∧
    ((onView 0x20E []).req.cmd.extractLsb' 9 23).toNat ≠ 0 ∧
    (((0xCE : CmdWord).extractLsb' 9 23).toNat = 0 ∧ 14 ≤ ((0xCE : CmdWord).extractLsb' 0 4).toNat) ∧
    (((0x17 : CmdWord).extractLsb' 9 23).toNat = 0 ∧ ((0x17 : CmdWord).extractLsb' 0 4).toNat < 14 ∧
      ((0x17 : CmdWord).extractLsb' 4 2).toNat ≠ 0 ∧
      ¬ (3 ≤ ((0x17 : CmdWord).extractLsb' 0 4).toNat ∧ ((0x17 : CmdWord).extractLsb' 0 4).toNat ≤ 6)) ∧
    (((0x89 : CmdWord).extractLsb' 9 23).toNat = 0 ∧ ((0x89 : CmdWord).extractLsb' 4 2).toNat = 0 ∧
      ((0x89 : CmdWord).extractLsb' 6 2).toNat = 2 ∧ ((0x89 : CmdWord).extractLsb' 0 4).toNat = 9) ∧
    (((0x800000003 : CmdWord).extractLsb' 9 23).toNat = 0 ∧
      ((0x800000003 : CmdWord).extractLsb' 0 4).toNat = 3 ∧
      ((0x800000003 : CmdWord).extractLsb' 4 4).toNat = 0 ∧
      ((0x800000003 : CmdWord).extractLsb' 8 1).toNat = 0 ∧
      ((0x800000003 : CmdWord).extractLsb' 32 32).toNat ≠ 0) ∧
    (((0x2000000123 : CmdWord).extractLsb' 9 23).toNat = 0 ∧
      ((0x2000000123 : CmdWord).extractLsb' 0 4).toNat = 3 ∧
      ((0x2000000123 : CmdWord).extractLsb' 4 2).toNat = 2 ∧
      ((0x2000000123 : CmdWord).extractLsb' 6 2).toNat = 0 ∧
      ((0x2000000123 : CmdWord).extractLsb' 8 1).toNat = 1 ∧
      ((0x2000000123 : CmdWord).extractLsb' 32 32).toNat = 32) := by decide

theorem test_witness_StepRunsTheDecodedInstruction :
    (onView 0xCA [true]).busy = true ∧ (onView 0x8A [true]).busy = true ∧
      decode (onView 0x8A [true]).req.cmd = .ok (.decsUe none) := ⟨rfl, rfl, rfl⟩

theorem test_witness_StepIdlesUntilACommandIsPresented : State.reset.busy = false := rfl

/-- A suffix and digits; a one-letter form against a longer spelling; and a text that is no token. -/
theorem test_witness_EveryTokenOfTheGrammarParses :
    (∀ d ∈ [0, 9], d ≤ 9) ∧ Family.uint ∈ [Family.uint, .int, .float, .bfloat] ∧
    tokenText (ascii ['u']) .ne [0, 9] = ascii ['u', 'n', 'e', '0', '9'] ∧
    tokenText (ascii ['s', 'i', 'e']) .bitwise [] = ascii ['s', 'i', 'e'] ∧
    ∀ name fam e ds, (name, fam) ∈ spellings → ascii ['z'] ≠ tokenText name e ds := by
  refine ⟨by decide, by decide, rfl, rfl, fun name fam e ds hm h => ?_⟩
  have hs : ∀ sp ∈ spellings, sp.1 ≠ [] ∧ sp.1.head? ≠ some 0x7A := by decide
  obtain ⟨h1, h2⟩ := hs _ hm
  cases name with
  | nil => exact h1 rfl
  | cons c name =>
    have := congrArg List.head? h
    simp [tokenText, ascii] at this
    exact h2 (by simp [← this])

theorem test_witness_EveryStepKeepsTheInvariant :
    Inv (onView 0x8A [true]) ∧
      step (onView 0x8A [true]) = .next ((onView 0x8A [true]).answerStream (.int 0) 1) ∧
    Inv (onView 0x8A []) ∧ step (onView 0x8A []) = .next ((onView 0x8A []).raise .interpret) :=
  ⟨⟨by decide, by decide, by decide, by decide⟩, rfl, ⟨by decide, by decide, by decide, by decide⟩, rfl⟩

theorem test_witness_NoStepWritesConfigurationOrRequest :
    (∃ t, step (onView 0x0 [true]) = .next t) ∧ ∃ t, exec (.encUe none) (onInt 0x4A 3) = .next t :=
  ⟨⟨_, rfl⟩, ⟨_, rfl⟩⟩

theorem test_witness_ResponseIsAFunctionOfRequestAndConfiguration :
    let s := onView 0x8A [true, false]
    s.cfg = (stale s).cfg ∧ s.req = (stale s).req ∧ s.busy = true ∧ (stale s).busy = true ∧
      (∃ t, step s = .next t) ∧ ∃ t, step (stale s) = .next t :=
  ⟨rfl, rfl, rfl, rfl, ⟨_, rfl⟩, ⟨_, rfl⟩⟩

theorem test_witness_EarlierCommandsLeaveNoTrace :
    ∃ a b c d c' d', present (onView 0x3 []).req State.reset = .ok a ∧ step a = .next b ∧
      present (onInt 0x4A 5).req b = .ok c ∧ step c = .next d ∧
      present (onInt 0x4A 5).req State.reset = .ok c' ∧ step c' = .next d' :=
  ⟨_, _, _, _, _, _, rfl, rfl, rfl, rfl, rfl, rfl⟩

theorem test_witness_OnlyNeCommandsReadTheHostOrder :
    (instrFields (.decUintle none)).2.2.1 ≠ .ne ∧
    (∃ t, exec (.decUintle none) (onView 0x23 (hx [1, 2])) = .next t) ∧
    ∃ t, exec (.decUintle none) { onView 0x23 (hx [1, 2]) with cfg := { hostEndian := .little } } =
      .next t := ⟨by decide, ⟨_, rfl⟩, ⟨_, rfl⟩⟩

theorem test_witness_InstructionsAnswerOnlyTheirErrorKinds :
    ∃ t, exec (.encUint (some 8)) (onInt 0x43 256) = .next t := ⟨_, rfl⟩

theorem test_witness_ResponsesDefineTheFieldsOfTheirOperation :
    (∃ t, exec (.decUe none) (onView 0xA []) = .next t ∧ t.rsp.status ≠ 0) ∧
    (∃ t, exec (.decBin none) (onView 0x0 []) = .next t ∧ t.rsp.status = 0 ∧
      (instrFields (.decBin none)).1 = .dec) ∧
    (∃ t, exec (.padBytes none) (onView 0xC9 []) = .next t ∧ t.rsp.status = 0 ∧
      (instrFields (.padBytes none)).1 = .pad) ∧
    (∃ t, exec (.encSe none) (onInt 0x4B 0) = .next t ∧ t.rsp.status = 0 ∧
      (instrFields (.encSe none)).1 = .enc) ∧
    (∃ t, exec (.decsUe none) (onView 0x8A [true]) = .next t ∧ t.rsp.status = 0 ∧
      (instrFields (.decsUe none)).1 = .decs) :=
  ⟨⟨_, rfl, by decide⟩, ⟨_, rfl, rfl, rfl⟩, ⟨_, rfl, rfl, rfl⟩, ⟨_, rfl, rfl, rfl⟩, ⟨_, rfl, rfl, rfl⟩⟩

theorem test_witness_HostObligationsAreEnforced :
    (onView 0x0 []).busy = true ∧ State.reset.busy = false ∧ State.reset.rspKind = .none :=
  ⟨rfl, rfl, rfl⟩

theorem test_witness_MagnitudeIsThePositionalSum :
    255 < 2 ^ 8 ∧ 0 < 2 ^ 0 ∧ (hx [15, 15]).length = 8 ∧ mag (hx [15, 15]) = 255 ∧ 7 < 8 := by decide

theorem test_witness_ByteRevExchangesWholeBytes :
    (hx [0, 1, 0, 2]).length % 8 = 0 ∧ 1 < (hx [0, 1, 0, 2]).length / 8 := by decide

theorem test_witness_DecBinReadsEachBit :
    LenFor none (onView 0 []).req.view.length ∧ LenFor (some 1) (onView 0 [true]).req.view.length ∧
      ¬ LenFor (some 3) (onView 0 [true]).req.view.length :=
  ⟨.inl rfl, .inr rfl, by simp [LenFor, onView, start]⟩

theorem test_witness_EncBinWritesEachCharacter :
    ((∀ c ∈ (onStr 0x40 ['1', '0']).req.val.str, c = 0x30 ∨ c = 0x31) ∧
      LenFor (some 2) (onStr 0x40 ['1', '0']).req.val.str.length ∧
      ¬ LenFor (some 4) (onStr 0x40 ['1', '0']).req.val.str.length) ∧
    ∃ c ∈ (onStr 0x40 ['1', '2']).req.val.str, c ≠ 0x30 ∧ c ≠ 0x31 :=
  ⟨⟨by decide, .inr rfl, by simp [LenFor, onStr, start, ascii]⟩, by decide⟩

theorem test_witness_DecHexReadsGroupsOfFour :
    ((onView 1 (hx [1])).req.view.length % 4 = 0 ∧ LenFor (some 4) (onView 1 (hx [1])).req.view.length) ∧
    (6 % 4 ≠ 0 ∧ 12 % 4 = 0 ∧ 12 ≠ (onView 1 (hx [1])).req.view.length) ∧
    (onView 1 [true]).req.view.length % 4 ≠ 0 :=
  ⟨⟨by decide, .inr rfl⟩, by decide, by decide⟩

/-- a is a digit of value 10. -/
theorem hexDigit_a : HexDigit 0x61 10 := .inr (.inl (by decide))

/-- g is no hex digit. -/
theorem not_hexDigit_g (x : Nat) : ¬ HexDigit 0x67 x := by
  rintro (h | h | h) <;> have h := h.2.symm <;> simp at h <;> omega

theorem test_witness_EncHexWritesFourBitsADigit :
    (∀ c ∈ (onStr 0x41 ['a']).req.val.str, ∃ x, HexDigit c x) ∧
    LenFor (some 4) (4 * (onStr 0x41 ['a']).req.val.str.length) ∧
    ¬ LenFor (some 8) (4 * (onStr 0x41 ['a']).req.val.str.length) ∧ 8 % 4 = 0 ∧ 6 % 4 ≠ 0 ∧
    ∃ c ∈ (onStr 0x41 ['g']).req.val.str, ∀ x, ¬ HexDigit c x :=
  ⟨fun _ h => ⟨10, by rw [List.mem_singleton.1 h]; exact hexDigit_a⟩, .inr rfl,
    by simp [LenFor, onStr, start, ascii], rfl, by decide, _, List.mem_singleton.2 rfl, not_hexDigit_g⟩

theorem test_witness_DecOctReadsGroupsOfThree :
    ((onView 2 (seq [1, 1, 1])).req.view.length % 3 = 0 ∧
      LenFor (some 3) (onView 2 (seq [1, 1, 1])).req.view.length) ∧
    (4 % 3 ≠ 0 ∧ 9 % 3 = 0 ∧ 9 ≠ (onView 2 (seq [1, 1, 1])).req.view.length) ∧
    (onView 2 [true]).req.view.length % 3 ≠ 0 :=
  ⟨⟨by decide, .inr rfl⟩, by decide, by decide⟩

theorem test_witness_EncOctWritesThreeBitsADigit :
    (∀ c ∈ (onStr 0x42 ['7']).req.val.str, ∃ x, OctDigit c x) ∧
    LenFor (some 3) (3 * (onStr 0x42 ['7']).req.val.str.length) ∧
    ¬ LenFor (some 9) (3 * (onStr 0x42 ['7']).req.val.str.length) ∧ 9 % 3 = 0 ∧ 8 % 3 ≠ 0 ∧
    ∃ c ∈ (onStr 0x42 ['8']).req.val.str, ∀ x, ¬ OctDigit c x :=
  ⟨fun _ h => ⟨7, by rw [List.mem_singleton.1 h]; exact ⟨by decide, rfl⟩⟩, .inr rfl,
    by simp [LenFor, onStr, start, ascii], rfl, by decide, _, List.mem_singleton.2 rfl,
    fun x h => by have h1 := h.1; have h2 := h.2.symm; simp at h2; omega⟩

theorem test_witness_StringCodecsRoundTrip :
    let s : State := { onStr 0x40 ['1', '0', '1'] with req := { cmd := 0x40, view := zeros 12, val := { noVal with str := ascii ['1', '0', '1'] } } }
    (∃ t, exec (.encBin none) s = .next t ∧ t.rsp.status = 0 ∧ (onView 0 t.rsp.res).req.view = t.rsp.res) ∧
    (∃ t, exec (.encOct none) s = .next t ∧ t.rsp.status = 0 ∧ (onView 2 t.rsp.res).req.view = t.rsp.res) ∧
    (∃ t, exec (.encHex none) s = .next t ∧ t.rsp.status = 0 ∧ (onView 1 t.rsp.res).req.view = t.rsp.res) ∧
    (∃ u, exec (.decBin none) s = .next u ∧ u.rsp.status = 0 ∧ .str (List.replicate 12 0x30) = u.rsp.rval) ∧
    (∃ u, exec (.decOct none) s = .next u ∧ u.rsp.status = 0 ∧ .str (List.replicate 4 0x30) = u.rsp.rval) ∧
    (∃ u, exec (.decHex none) s = .next u ∧ u.rsp.status = 0 ∧ .str (List.replicate 3 0x30) = u.rsp.rval) :=
  ⟨⟨_, rfl, rfl, rfl⟩, ⟨_, rfl, rfl, rfl⟩, ⟨_, rfl, rfl, rfl⟩, ⟨_, rfl, rfl, rfl⟩, ⟨_, rfl, rfl, rfl⟩,
    ⟨_, rfl, rfl, rfl⟩⟩

/-- The views of the integer and byte decoders: of one bit, of two bytes, of twelve bits. -/
theorem test_witness_DecUintReadsTheMagnitude :
    ((onView 3 [true]).req.view ≠ [] ∧ LenFor (some 1) (onView 3 [true]).req.view.length) ∧
    ((onView 0x23 (hx [0, 1, 0, 2])).req.view ≠ [] ∧
      (Endian.le ≠ .bitwise → (onView 0x23 (hx [0, 1, 0, 2])).req.view.length % 8 = 0) ∧
      LenFor none (onView 0x23 (hx [0, 1, 0, 2])).req.view.length) ∧
    (0 < 12 ∧ 12 ≠ (onView 0x23 (hx [1, 2])).req.view.length) ∧ (onView 3 []).req.view = [] ∧
    ((onView 0x23 (hx [1, 2, 3])).req.view ≠ [] ∧
      LenFor (some 12) (onView 0x23 (hx [1, 2, 3])).req.view.length ∧ Endian.le ≠ .bitwise ∧
      (onView 0x23 (hx [1, 2, 3])).req.view.length % 8 ≠ 0) :=
  ⟨⟨by decide, .inr rfl⟩, ⟨by decide, by decide, .inl rfl⟩, by decide, rfl, by decide, .inr rfl,
    by decide, by decide⟩

theorem test_witness_EncUintWritesTheMagnitude :
    (0 < 16 ∧ (Endian.le ≠ .bitwise → 16 % 8 = 0) ∧ 0 ≤ (onInt 0x63 65535).req.val.int ∧
      (onInt 0x63 65535).req.val.int < 2 ^ 16) ∧
    (Endian.le ≠ .bitwise ∧ 12 % 8 ≠ 0) ∧ (onInt 0x43 (-1)).req.val.int < 0 ∧
      2 ^ 8 ≤ (onInt 0x43 256).req.val.int := by decide

theorem test_witness_DecIntReadsTwosComplement :
    ((onView 4 [true]).req.view ≠ [] ∧ LenFor (some 1) (onView 4 [true]).req.view.length) ∧
    ((onView 0x24 (hx [0, 0, 8, 0])).req.view ≠ [] ∧
      (Endian.le ≠ .bitwise → (onView 0x24 (hx [0, 0, 8, 0])).req.view.length % 8 = 0) ∧
      LenFor none (onView 0x24 (hx [0, 0, 8, 0])).req.view.length) ∧
    (0 < 12 ∧ 12 ≠ (onView 0x24 (hx [1, 2])).req.view.length) ∧ (onView 4 []).req.view = [] ∧
    ((onView 0x24 (hx [1, 2, 3])).req.view ≠ [] ∧
      LenFor (some 12) (onView 0x24 (hx [1, 2, 3])).req.view.length ∧ Endian.le ≠ .bitwise ∧
      (onView 0x24 (hx [1, 2, 3])).req.view.length % 8 ≠ 0) :=
  ⟨⟨by decide, .inr rfl⟩, ⟨by decide, by decide, .inl rfl⟩, by decide, rfl, by decide, .inr rfl,
    by decide, by decide⟩

theorem test_witness_EncIntWritesTwosComplement :
    (0 < 8 ∧ (Endian.le ≠ .bitwise → 8 % 8 = 0) ∧ -2 ^ (8 - 1) ≤ (onInt 0x64 (-128)).req.val.int ∧
      (onInt 0x64 (-128)).req.val.int < 2 ^ (8 - 1)) ∧
    (-2 ^ (1 - 1) ≤ (onInt 0x44 (-1)).req.val.int ∧ (onInt 0x44 (-1)).req.val.int < 2 ^ (1 - 1)) ∧
    (Endian.le ≠ .bitwise ∧ 12 % 8 ≠ 0) ∧ (onInt 0x44 (-129)).req.val.int < -2 ^ (8 - 1) ∧
      2 ^ (8 - 1) ≤ (onInt 0x44 128).req.val.int := by decide

theorem test_witness_IntegerCodecsRoundTrip :
    (∃ t, exec (encUintOf .le (some 16)) (onInt 0x63 258) = .next t ∧ t.rsp.status = 0 ∧
      (onView 0x23 t.rsp.res).req.view = t.rsp.res ∧
      (onView 0x23 t.rsp.res).cfg = (onInt 0x63 258).cfg ∧ LenFor (some 16) 16) ∧
    (∃ t, exec (encIntOf .ne (some 8)) (onInt 0x74 (-128)) = .next t ∧ t.rsp.status = 0 ∧
      (onView 0x34 t.rsp.res).req.view = t.rsp.res) ∧
    (∃ t, exec (decUintOf .le none) (onView 0x23 (hx [0, 2])) = .next t ∧ t.rsp.status = 0 ∧
      .int (onInt 0x63 2).req.val.int = t.rsp.rval) ∧
    (∃ t, exec (decIntOf .be (some 8)) (onView 0x14 (hx [8, 0])) = .next t ∧ t.rsp.status = 0 ∧
      .int (onInt 0x54 (-128)).req.val.int = t.rsp.rval) :=
  ⟨⟨_, rfl, rfl, rfl, rfl, .inr rfl⟩, ⟨_, rfl, rfl, rfl⟩, ⟨_, rfl, rfl, rfl⟩, ⟨_, rfl, rfl, rfl⟩⟩

theorem test_witness_ByteOrdersAgreeUpToReversal :
    (onView 0x13 (hx [0, 1, 0, 2])).req.view.length % 8 = 0 ∧
      (onView 0x23 (hx [0, 2, 0, 1])).req.view = byteRev (onView 0x13 (hx [0, 1, 0, 2])).req.view ∧
      (onView 0x33 []).cfg.hostEndian = .big ∧ (little (onView 0x33 [])).cfg.hostEndian = .little :=
  ⟨rfl, rfl, rfl, rfl⟩

theorem test_witness_DecFloatWidensExactly :
    ((onView 5 (zeros 16)).req.view.length = 16 ∧ LenFor (some 16) (onView 5 (zeros 16)).req.view.length) ∧
    ((onView 5 (zeros 32)).req.view.length = 32 ∧ LenFor none (onView 5 (zeros 32)).req.view.length) ∧
    (onView 5 (zeros 64)).req.view.length = 64 ∧ (24 ≠ 16 ∧ 24 ≠ 32 ∧ 24 ≠ 64) ∧
    (32 ≠ (onView 5 (zeros 16)).req.view.length) ∧
    ((onView 5 (zeros 24)).req.view.length ≠ 16 ∧ (onView 5 (zeros 24)).req.view.length ≠ 32 ∧
      (onView 5 (zeros 24)).req.view.length ≠ 64) :=
  ⟨⟨rfl, .inr rfl⟩, ⟨rfl, .inl rfl⟩, rfl, by decide, by decide, by decide⟩

/-- The two overflow thresholds (R158): the least overflowing word and the word before it. -/
theorem test_witness_EncFloatRoundsToNearest :
    (FiniteWord 11 52 0x40EFFE0000000000 ∧ overflowBound 5 10 ≤ floatAbs 11 52 0x40EFFE0000000000) ∧
    ¬ (FiniteWord 11 52 0x40EFFDFFFFFFFFFF ∧
      overflowBound 5 10 ≤ floatAbs 11 52 0x40EFFDFFFFFFFFFF) ∧
    (FiniteWord 11 52 0x47EFFFFFF0000000 ∧ overflowBound 8 23 ≤ floatAbs 11 52 0x47EFFFFFF0000000) ∧
    ¬ (FiniteWord 11 52 0x47EFFFFFEFFFFFFF ∧
      overflowBound 8 23 ≤ floatAbs 11 52 0x47EFFFFFEFFFFFFF) ∧
    (some 24 ≠ some 16 ∧ some 24 ≠ some 32 ∧ some 24 ≠ some 64) := by
  refine ⟨⟨by unfold FiniteWord; decide, ?_⟩, fun h => absurd h.2 ?_,
    ⟨by unfold FiniteWord; decide, ?_⟩, fun h => absurd h.2 ?_, by decide⟩ <;>
  norm_num [overflowBound, floatAbs, wordExp, wordMan, ieeeBias]

theorem test_witness_FloatCodecsRoundTrip :
    ∃ t, exec (decFloatOf .le none) (onView 0x25 (zeros 64)) = .next t ∧
      t.rsp.rval = .flt (onFlt 0x65 0).req.val.flt ∧ t.rsp.status = 0 ∧
      (onFlt 0x65 0).cfg = (onView 0x25 (zeros 64)).cfg ∧ ¬ NanWord 5 10 0x7C00 ∧ ¬ NanWord 8 23 0xFF800000 :=
  ⟨_, rfl, rfl, rfl, rfl, by unfold NanWord; decide, by unfold NanWord; decide⟩

theorem test_witness_OpenParametersKeepTheirLaws :
    NanWord 11 52 0x7FF0000000000001 ∧ NanWord 5 10 0x7C01 ∧ NanWord 8 23 0xFFFFFFFF := by
  unfold NanWord; decide

theorem test_witness_DecBfloatIsTheUpperHalf :
    ((onView 6 (zeros 16)).req.view.length = 16 ∧ LenFor (some 16) 16) ∧ 32 ≠ 16 ∧
      ((onView 6 (zeros 8)).req.view.length ≠ 16 ∧ LenFor none 16) :=
  ⟨⟨rfl, .inr rfl⟩, by decide, by decide, .inl rfl⟩

/-- At the threshold of binary32 and just below it; at the threshold of the 16-bit layout too. -/
theorem test_witness_EncBfloatRoundsAndSaturates :
    (LenFor none 16 ∧ LenFor (some 16) 16 ∧ 15 ≠ 16) ∧ NanWord 11 52 0xFFF4000000000000 ∧
    InfiniteWord 11 52 0xFFF0000000000000 ∧
    (FiniteWord 11 52 0x47EFFFFFF0000000 ∧ overflowBound 8 23 ≤ floatAbs 11 52 0x47EFFFFFF0000000) ∧
    (FiniteWord 11 52 0x47EFF00000000000 ∧ floatAbs 11 52 0x47EFF00000000000 < overflowBound 8 23) ∧
    overflowBound 8 7 ≤ floatAbs 8 23 0x7F7F8000 ∧ floatAbs 8 23 0x7F7F7FFF < overflowBound 8 7 := by
  refine ⟨⟨.inl rfl, .inr rfl, by decide⟩, by unfold NanWord; decide, by unfold InfiniteWord; decide,
    ⟨by unfold FiniteWord; decide, ?_⟩, ⟨by unfold FiniteWord; decide, ?_⟩, ?_, ?_⟩ <;>
  norm_num [overflowBound, floatAbs, wordExp, wordMan, ieeeBias]

theorem test_witness_BfloatCodecRoundTrips :
    (0xFF80 < 2 ^ 16 ∧ ¬ NanWord 8 7 0xFF80) ∧
    ∃ t, exec (decBfloatOf .le none) (onView 0x26 (zeros 16)) = .next t ∧
      t.rsp.rval = .flt (onFlt 0x66 0).req.val.flt ∧ t.rsp.status = 0 ∧
      ¬ NanWord 8 7 (fieldValue .le .big (onView 0x26 (zeros 16)).req.view) := by
  refine ⟨⟨by decide, by unfold NanWord; decide⟩, _, rfl, by decide +kernel, rfl, ?_⟩
  unfold NanWord; decide +kernel

theorem test_witness_DecMinifloatsAnswerTheDecodedCode :
    ((onView 7 (hx [4, 0])).req.view.length = 8 ∧ LenFor (some 8) 8) ∧ 16 ≠ 8 ∧
      ((onView 7 (hx [4])).req.view.length ≠ 8 ∧ LenFor none 8) :=
  ⟨⟨rfl, .inr rfl⟩, by decide, by decide, .inl rfl⟩

theorem test_witness_EncMinifloatsAnswerTheEncodedCode : LenFor none 8 ∧ LenFor (some 8) 8 ∧ 9 ≠ 8 :=
  ⟨.inl rfl, .inr rfl, by decide⟩

theorem test_witness_MinifloatDecodeIsExact :
    miniLaw 4 3 defaultA = true ∧ miniLaw 5 2 alternativeB = true ∧
      specialOf alternativeB 0x7C = some .posInf ∧ specialOf alternativeB 0xFC = some .negInf ∧
      specialOf alternativeB 0xFF = some .nan ∧ specialOf defaultA 0xFF = none := by decide +kernel

theorem test_witness_MinifloatEncodeIsNearest :
    miniLaw 5 2 defaultB = true ∧ NanWord 11 52 0x7FF0000000000001 ∧
      InfiniteWord 11 52 0xFFF0000000000000 ∧ FiniteWord 11 52 0x3FF0000000000000 ∧
      specialOf defaultB (miniCode 1 0) ≠ none ∧ specialOf defaultB (miniCode 1 1) = none := by
  unfold NanWord InfiniteWord FiniteWord; decide +kernel

theorem test_witness_MinifloatCodecRoundTrips :
    (miniLaw 5 2 alternativeB = true ∧ specialOf alternativeB 0x7B = none ∧
      specialOf alternativeB 0xFB = none ∧ specialOf alternativeB 0x7D = some .nan ∧
      specialOf alternativeB 0x7C = some .posInf ∧ specialOf alternativeB 0xFC = some .negInf ∧
      0 < maxCode alternativeB) ∧
    (0x3EF0000000000000 < 2 ^ 64 ∧ FiniteWord 11 52 0x3EF0000000000000 ∧ 1 ≤ maxCode alternativeB) ∧
    floatAbs 11 52 0x3EF0000000000000 = miniAbsQ alternativeB 1 ∧
    (0xFFF0000000000000 < 2 ^ 64 ∧ ¬ NanWord 11 52 0xFFF0000000000000) := by
  refine ⟨by decide +kernel, by unfold FiniteWord; decide +kernel, ?_, by unfold NanWord; decide⟩
  norm_num [floatAbs, miniAbsQ, wordExp, wordMan, ieeeBias, ieeeEmin, alternativeB]

theorem test_witness_DecBytesExtractsWholeBytes :
    ((onView 9 (hx [1, 6])).req.view.length % 8 = 0 ∧ LenFor (some 8) (onView 9 (hx [1, 6])).req.view.length) ∧
    (12 % 8 ≠ 0 ∧ 16 % 8 = 0 ∧ 16 ≠ (onView 9 (hx [1, 6])).req.view.length) ∧
    (onView 9 [true]).req.view.length % 8 ≠ 0 := ⟨⟨rfl, .inr rfl⟩, by decide, by decide⟩

theorem test_witness_EncBytesWritesEightBitsAByte :
    LenFor (some 8) (8 * (onByt 0x49 [0x16]).req.val.byt.length) ∧ 12 % 8 ≠ 0 ∧ 16 % 8 = 0 ∧
      16 ≠ 8 * (onByt 0x49 [0x16]).req.val.byt.length := ⟨.inr rfl, by decide, rfl, by decide⟩

theorem test_witness_BytesCodecLaws :
    (∃ t, exec (.encBytes none) (onByt 0x49 [0x16]) = .next t ∧ t.rsp.status = 0 ∧
      (onView 9 t.rsp.res).req.view = t.rsp.res) ∧
    (∃ t, exec (.decBytes none) (onView 9 (hx [1, 6])) = .next t ∧ t.rsp.status = 0 ∧
      .byt (onByt 0x49 [0x16]).req.val.byt = t.rsp.rval ∧ t.rsp.rval = .byt [0x16]) ∧
    (onView 9 (hx [1, 6])).req.view.length % 8 = 0 ∧
    (∃ t, exec (.padBytes none) (onView 0xC9 [true]) = .next t ∧ t.rsp.status = 0 ∧
      .byt (onByt 0x49 [0x80]).req.val.byt = t.rsp.rval) :=
  ⟨⟨_, rfl, rfl, rfl⟩, ⟨_, rfl, rfl, rfl, rfl⟩, rfl, ⟨_, rfl, rfl, rfl⟩⟩

theorem test_witness_EncPlainCodesWriteZerosThenNumber :
    0 ≤ (onInt 0x4A 0).req.val.int ∧ (onInt 0x4A (-1)).req.val.int < 0 := by decide

theorem test_witness_EncInterleavedCodesWritePairs :
    0 ≤ (onInt 0x4C 0).req.val.int ∧ (onInt 0x4C (-1)).req.val.int < 0 := by decide

theorem test_witness_DecPlainCodesAreExact :
    (onView 0xA (seq [0, 1, 1])).req.view = plainCode [true] ∧
    (onView 0xA [true]).req.view = plainCode [] ∧ ∀ p, (onView 0xA [false]).req.view ≠ plainCode p :=
  ⟨rfl, rfl, fun p h => by cases p <;> simp [onView, start, plainCode, List.replicate_succ] at h⟩

theorem test_witness_DecInterleavedCodesAreExact :
    (onView 0xC (seq [0, 1, 1])).req.view = interleavedCode [true] ∧
    (onView 0xC [true]).req.view = interleavedCode [] ∧
    ∀ p, (onView 0xC [false]).req.view ≠ interleavedCode p :=
  ⟨rfl, rfl, fun p h => by cases p <;> simp [onView, start, interleavedCode] at h⟩

theorem test_witness_DecsPlainCodesLeaveTheRest :
    (onView 0x8A (seq [0, 1, 1, 1])).req.view = plainCode [true] ++ [true] ∧
    (onView 0x8A [true]).req.view = plainCode [] ++ [] ∧
    ∀ p rest, (onView 0x8A [false]).req.view ≠ plainCode p ++ rest :=
  ⟨rfl, rfl, fun p rest h => by
    cases p <;> simp [onView, start, plainCode, List.replicate_succ] at h⟩

theorem test_witness_DecsInterleavedCodesLeaveTheRest :
    (onView 0x8C (seq [0, 1, 1, 1])).req.view = interleavedCode [true] ++ [true] ∧
    (onView 0x8C [true]).req.view = interleavedCode [] ++ [] ∧
    ∀ p rest, (onView 0x8C [false]).req.view ≠ interleavedCode p ++ rest :=
  ⟨rfl, rfl, fun p rest h => by cases p <;> simp [onView, start, interleavedCode] at h⟩

theorem test_witness_ExpGolombCodesAreABijection :
    (∃ t, exec (.encUe none) (onInt 0x4A 12) = .next t ∧ t.rsp.status = 0 ∧
      (onView 0xA t.rsp.res).req.view = t.rsp.res ∧
      (onView 0x8A (t.rsp.res ++ [false])).req.view = t.rsp.res ++ [false]) ∧
    (∃ t, exec (.encSe none) (onInt 0x4B (-5)) = .next t ∧ t.rsp.status = 0) ∧
    (∃ t, exec (.encUie none) (onInt 0x4C 0) = .next t ∧ t.rsp.status = 0) ∧
    (∃ t, exec (.encSie none) (onInt 0x4D 5) = .next t ∧ t.rsp.status = 0) ∧
    plainCode [true] <+: plainCode [true] ∧ interleavedCode [] <+: interleavedCode [] :=
  ⟨⟨_, rfl, rfl, rfl, rfl⟩, ⟨_, rfl, rfl⟩, ⟨_, rfl, rfl⟩, ⟨_, rfl, rfl⟩, List.prefix_refl _,
    List.prefix_refl _⟩

/-- Lines 4 and 5 of program P1 (section 3), and a DEC of eight bits. -/
theorem test_witness_ReadMovesTheCursorOverOneCode :
    (parseToken (ascii ['s', 'e']) = .ok ⟨.se, .bitwise, none⟩ ∧ 13 ≤ (hx [1, 6, 4, 11]).length ∧
      ∃ t, step (onView 0x8B ((hx [1, 6, 4, 11]).drop 13)) = .next t ∧ t.rsp.status = 0) ∧
    (16 ≤ (hx [1, 6, 4, 11]).length ∧
      ∃ t, step (onView 0x8B ((hx [1, 6, 4, 11]).drop 16)) = .next t ∧ t.rsp.status ≠ 0) ∧
    (parseToken (ascii ['u', '8']) = .ok ⟨.uint, .bitwise, some 8⟩ ∧
      8 + 8 ≤ (hx [1, 6, 4, 11]).length ∧ ¬ LengthRefused .dec .uint (some 8) ∧
      ∃ t, step (onView 0x800000103 ((hx [1, 6, 4, 11]).drop 8)) = .next t) ∧
    (parseToken (ascii ['h', '6']) = .ok ⟨.hex, .bitwise, some 6⟩ ∧ LengthRefused .dec .hex (some 6) ∧
      parseToken (ascii ['s', 'e', '8']) = .ok ⟨.se, .bitwise, some 8⟩ ∧
      LengthRefused .decs .se (some 8) ∧ 0 + 8 ≤ (hx [1, 6, 4, 11]).length) :=
  ⟨⟨rfl, by decide, _, rfl, rfl⟩, ⟨by decide, _, rfl, by decide⟩,
    ⟨rfl, by decide, by simp [LengthRefused], _, rfl⟩,
    ⟨rfl, by simp [LengthRefused], rfl, by simp [LengthRefused], by decide⟩⟩

end Sys2Proof.Tests
end

/-! ## Lemmas of the scope statements: readings of bits, groups and byte reversal (R11 to R13) -/

namespace Sys2Proof.Machine

/-! ### Magnitude and its inverse (R12) -/

/-- The first bit is the most significant one of the positional sum. -/
theorem bigValue_cons (b : Bool) (v : Bits) :
    bigValue (b :: v) = b.toNat * 2 ^ v.length + bigValue v := by
  unfold bigValue
  rw [List.length_cons, Finset.sum_range_succ', Nat.add_comm]
  simp [Nat.sub_sub, Nat.add_comm]

theorem mag_eq_bigValue (v : Bits) : mag v = bigValue v := by
  induction v with
  | nil => rfl
  | cons b v ih => rw [mag_cons, bigValue_cons, ih]

/-- Position i of the n low bits of x holds bit n - 1 - i of x: most significant first. -/
theorem toBits_getElem? {n i : Nat} (x : Nat) (h : i < n) :
    (toBits n x)[i]? = some (x.testBit (n - 1 - i)) := by
  induction n generalizing i with
  | zero => omega
  | succ n ih => cases i with
    | zero => simp [toBits]
    | succ i =>
      have hn : n + 1 - 1 - (i + 1) = n - 1 - i := by omega
      rw [toBits, List.getElem?_cons_succ, ih (by omega), hn]

/-! ### Groups (R11, R41) -/

/-- The slice that `groups` takes for group j, as the statements read it. -/
theorem slice_eq_groupAt (w j : Nat) (v : Bits) :
    slice v (w * j) (w * j + w) = groupAt w j v := by
  simp [slice, groupAt]

theorem groups_getElem {w j : Nat} {v : Bits} (h : j < (groups w v).length) :
    (groups w v)[j] = groupAt w j v := by
  simp [groups, slice_eq_groupAt]

/-- The first m groups of a sequence are its first w * m bits. -/
theorem flatten_range_groupAt (w m : Nat) (v : Bits) :
    ((List.range m).map (groupAt w · v)).flatten = v.take (w * m) := by
  induction m with
  | zero => simp
  | succ m ih =>
    rw [List.range_succ, List.map_append, List.flatten_append, ih, Nat.mul_succ, List.take_add]
    simp [groupAt]

/-- Concatenating the groups of a sequence gives the sequence back when its length is a multiple
of w. -/
theorem flatten_groups {w : Nat} {v : Bits} (h : v.length % w = 0) : (groups w v).flatten = v := by
  have hw : w * (v.length / w) = v.length := Nat.mul_div_cancel' (Nat.dvd_of_mod_eq_zero h)
  simp only [groups, slice_eq_groupAt, flatten_range_groupAt, hw, List.take_length]

section blocks
variable {w : Nat} {L : List Bits}

theorem length_flatten_of_width (hL : ∀ g ∈ L, g.length = w) :
    L.flatten.length = w * L.length := by
  rw [List.length_flatten, List.map_congr_left hL]
  simp [Nat.mul_comm]

/-- Group j of a concatenation of blocks of w bits is block j. -/
theorem groupAt_flatten (hL : ∀ g ∈ L, g.length = w) {j : Nat} (hj : j < L.length) :
    groupAt w j L.flatten = L[j] := by
  induction L generalizing j with
  | nil => simp at hj
  | cons g L ih =>
    have hg : g.length = w := hL g List.mem_cons_self
    have hL' : ∀ g ∈ L, g.length = w := fun g hg => hL g (List.mem_cons_of_mem _ hg)
    cases j with
    | zero => simp [groupAt, ← hg]
    | succ j =>
      have hskip : w * (j + 1) = g.length + w * j := by rw [hg, Nat.mul_succ, Nat.add_comm]
      rw [List.getElem_cons_succ, ← ih hL' (Nat.lt_of_succ_lt_succ hj)]
      simp [groupAt, hskip]

/-- The groups of a concatenation of blocks of w bits are the blocks. -/
theorem groups_flatten (hw : 0 < w) (hL : ∀ g ∈ L, g.length = w) : groups w L.flatten = L := by
  have hlen : (groups w L.flatten).length = L.length := by
    rw [groups_length, length_flatten_of_width hL, Nat.mul_div_cancel_left _ hw]
  refine List.ext_getElem hlen fun j _ hj => ?_
  rw [groups_getElem, groupAt_flatten hL hj]

end blocks

/-! ### Byte reversal (R13) -/

/-- The blocks that `byteRev` puts together are bytes. -/
theorem length_of_mem_reverse_groups {w : Nat} {v g : Bits} (h : g ∈ (groups w v).reverse) :
    g.length = w :=
  groups_width (List.mem_reverse.1 h)

/-- Byte reversal reverses the list of bytes. -/
theorem groups_byteRev (v : Bits) : groups 8 (byteRev v) = (groups 8 v).reverse :=
  groups_flatten (by decide) fun _ => length_of_mem_reverse_groups

theorem byteRev_length {v : Bits} (h : v.length % 8 = 0) : (byteRev v).length = v.length := by
  rw [byteRev, length_flatten_of_width fun _ => length_of_mem_reverse_groups, List.length_reverse,
    groups_length, Nat.mul_div_cancel' (Nat.dvd_of_mod_eq_zero h)]

theorem groupAt_byteRev {v : Bits} {j : Nat} (hj : j < v.length / 8) :
    groupAt 8 j (byteRev v) = groupAt 8 (v.length / 8 - 1 - j) v := by
  rw [byteRev, groupAt_flatten (fun _ => length_of_mem_reverse_groups) (by simpa using hj),
    List.getElem_reverse, groups_getElem, groups_length]

theorem byteRev_byteRev {v : Bits} (h : v.length % 8 = 0) : byteRev (byteRev v) = v := by
  rw [byteRev, groups_byteRev, List.reverse_reverse, flatten_groups h]

end Sys2Proof.Machine

/-! ## The scope statements -/

namespace Sys2Proof.Proofs

open Sys2Proof.Machine

/-- Settles O20: the positional sum by induction on the sequence, the one inverse by the injectivity
of the magnitude at a given length. -/
theorem magnitudeIsThePositionalSum : Obligations.MagnitudeIsThePositionalSum := by
  refine ⟨mag_eq_bigValue, mag_nil, rfl, fun n x hx => ⟨toBits_length n x, mag_toBits hx, ?_⟩,
    fun n w i hi => toBits_getElem? w.toNat hi⟩
  rintro v rfl rfl
  exact (toBits_mag v).symm

/-- Settles O21: byte reversal reverses the list of bytes, and a sequence of whole bytes is the
concatenation of its bytes. -/
theorem byteRevExchangesWholeBytes : Obligations.ByteRevExchangesWholeBytes :=
  ⟨fun _ hv => ⟨byteRev_length hv, fun _ hj => groupAt_byteRev hj, byteRev_byteRev hv⟩, rfl⟩

end Sys2Proof.Proofs

/-! ## Lemmas of the state statements: what every command answers (R21, R28, R36, R37) -/

namespace Sys2Proof.Machine

/-! ### Stage 2: no codec answers the assembler's error (R94, R270) -/

/-- A command's check or codec never fails with the kind that is the assembler's only (R270). -/
def NoTextError {α : Type} (x : Except ErrorKind α) : Prop := x ≠ .error .tokenSyntax

section noTextError
variable {α β : Type}

@[simp] theorem noTextError_ok (a : α) : NoTextError (.ok a) := nofun
@[simp] theorem noTextError_error {k : ErrorKind} :
    NoTextError (.error k : Except ErrorKind α) ↔ k ≠ .tokenSyntax := by simp [NoTextError]

theorem NoTextError.bind {x : Except ErrorKind α} {f : α → Except ErrorKind β}
    (hx : NoTextError x) (hf : ∀ a, NoTextError (f a)) : NoTextError (x >>= f) := by
  cases x with
  | error k => simpa [Bind.bind, Except.bind] using hx
  | ok a => exact hf a

theorem NoTextError.ite {p : Prop} [Decidable p] {x y : Except ErrorKind α} (hx : NoTextError x)
    (hy : NoTextError y) : NoTextError (if p then x else y) := by
  split <;> assumption

end noTextError

theorem resolveLen_noTextError (op : Op) (fam : Family) (len : Option Nat) :
    NoTextError (resolveLen op fam len) := by
  rcases resolveLen_cases op fam len with h | h <;> simp [h]

theorem viewAgrees_noTextError (fam : Family) (len : Option Nat) (v : Bits) :
    NoTextError (viewAgrees fam len v) := by
  rcases viewAgrees_cases fam len v with h | h <;> simp [h]

section codecs
variable (e : Endian) (h : ByteOrder) (len : Option Nat) (v : Bits)

theorem wholeBytes_noTextError (n : Nat) : NoTextError (wholeBytes e n) := by
  rw [wholeBytes_eq]; exact .ite (by simp) (by simp)

theorem integerField_noTextError : NoTextError (integerField e h v) := by
  rw [integerField_eq]; exact .ite (by simp) (.ite (by simp) (by simp))

@[simp] theorem decodeUint_noTextError : NoTextError (decodeUint e h v) :=
  .bind (integerField_noTextError e h v) fun _ => noTextError_ok _

@[simp] theorem decodeInt_noTextError : NoTextError (decodeInt e h v) :=
  .bind (integerField_noTextError e h v) fun _ => noTextError_ok _

@[simp] theorem encodeUint_noTextError (x : Int) : NoTextError (encodeUint e h len x) :=
  .bind (wholeBytes_noTextError e _) fun _ => .ite (by simp) (by simp)

@[simp] theorem encodeInt_noTextError (x : Int) : NoTextError (encodeInt e h len x) :=
  .bind (wholeBytes_noTextError e _) fun _ => .ite (by simp) (.ite (by simp) (by simp))

@[simp] theorem decodeFloat_noTextError : NoTextError (decodeFloat e h v) :=
  .ite (by simp) (by simp)

@[simp] theorem encodeFloat_noTextError (d : Flt64) : NoTextError (encodeFloat e h len d) := by
  unfold encodeFloat; split <;> simp

@[simp] theorem decodeBfloat_noTextError : NoTextError (decodeBfloat e h v) := noTextError_ok _

@[simp] theorem encodeBfloat_noTextError (d : Flt64) : NoTextError (encodeBfloat e h d) :=
  noTextError_ok _

@[simp] theorem decodeMini_noTextError (F : MiniFormat) : NoTextError (decodeMini F v) :=
  noTextError_ok _

@[simp] theorem encodeMini_noTextError (F : MiniFormat) (d : Flt64) :
    NoTextError (encodeMini F d) := noTextError_ok _

@[simp] theorem decodeBin_noTextError : NoTextError (decodeBin v) := noTextError_ok _

@[simp] theorem decodeHex_noTextError : NoTextError (decodeHex v) := .ite (by simp) (by simp)

@[simp] theorem decodeOct_noTextError : NoTextError (decodeOct v) := .ite (by simp) (by simp)

@[simp] theorem decodeBytes_noTextError : NoTextError (decodeBytes v) := .ite (by simp) (by simp)

theorem encodeDigits_noTextError (w : Nat) (val : Byte → Option Nat) (s : Str) :
    NoTextError (encodeDigits w val len s) := by
  rw [encodeDigits_eq]
  cases digitValues val s with
  | none => simp
  | some xs => exact .ite (by simp) (by simp)

@[simp] theorem encodeBin_noTextError (s : Str) : NoTextError (encodeBin len s) :=
  encodeDigits_noTextError len _ _ s

@[simp] theorem encodeHex_noTextError (s : Str) : NoTextError (encodeHex len s) :=
  encodeDigits_noTextError len _ _ s

@[simp] theorem encodeOct_noTextError (s : Str) : NoTextError (encodeOct len s) :=
  encodeDigits_noTextError len _ _ s

@[simp] theorem encodeBytes_noTextError (b : List Byte) : NoTextError (encodeBytes len b) := by
  rw [encodeBytes_eq]; exact .ite (by simp) (by simp)

@[simp] theorem exactAccess_noTextError (parse : Bits → Option (Nat × Nat)) (g : Nat → Int) :
    NoTextError (exactAccess parse g v) := by
  unfold exactAccess
  cases parse v with
  | none => simp
  | some r => exact .ite (by simp) (by simp)

@[simp] theorem streamAccess_noTextError (parse : Bits → Option (Nat × Nat)) (g : Nat → Int) :
    NoTextError (streamAccess parse g v) := by
  unfold streamAccess; cases parse v <;> simp

@[simp] theorem encodeUnsignedCode_noTextError (write : Nat → Bits) (n : Int) :
    NoTextError (encodeUnsignedCode write n) := .ite (by simp) (by simp)

@[simp] theorem encodeSignedCode_noTextError (write : Nat → Bits) (n : Int) :
    NoTextError (encodeSignedCode write n) := noTextError_ok _

end codecs

/-! ### What an operation answers (R28, R63, R100) -/

/-- What a command of an operation can answer: an error kind of BSC, or the operation's own fields
(R28). -/
inductive OutcomeOf : Op → Except ErrorKind Answer → Prop
  | error {op : Op} {k : ErrorKind} (hk : k ≠ .tokenSyntax) : OutcomeOf op (.error k)
  | dec (v : Value) : OutcomeOf .dec (.ok (.value v))
  | pad (v : Value) : OutcomeOf .pad (.ok (.value v))
  | enc (b : Bits) : OutcomeOf .enc (.ok (.bits b))
  | decs (v : Value) (n : Nat) : OutcomeOf .decs (.ok (.stream v n))

theorem OutcomeOf.bind {α : Type} {op : Op} {x : Except ErrorKind α}
    {f : α → Except ErrorKind Answer} (hx : NoTextError x) (hf : ∀ a, OutcomeOf op (f a)) :
    OutcomeOf op (x >>= f) := by
  cases x with
  | error k => exact .error (noTextError_error.1 hx)
  | ok a => exact hf a

/-- Two commands of one operation, started in the states s and s', complete with one and the same
outcome, each written over its own state. -/
def SameOutcome (op : Op) (s s' : State) (o o' : StepOutcome) : Prop :=
  ∃ r, OutcomeOf op r ∧ o = .next (s.respond r) ∧ o' = .next (s'.respond r)

/-! The four command shapes on two states with the same request and the same codec. -/

section shapes
variable {fam : Family} {len : Option Nat} {s s' : State}

theorem runDec_sameOutcome {codec codec' : Bits → Except ErrorKind Value} (hreq : s.req = s'.req)
    (hcodec : codec = codec') (herr : ∀ v, NoTextError (codec v)) :
    SameOutcome .dec s s' (runDec fam len s codec) (runDec fam len s' codec') := by
  subst hcodec
  exact ⟨_, .bind (resolveLen_noTextError _ _ _) fun _ => .bind (viewAgrees_noTextError _ _ _) fun _ =>
    .bind (herr _) .dec, rfl, by rw [hreq]; rfl⟩

theorem runEnc_sameOutcome {codec codec' : Operand → Except ErrorKind Bits} (hreq : s.req = s'.req)
    (hcodec : codec = codec') (herr : ∀ x, NoTextError (codec x)) :
    SameOutcome .enc s s' (runEnc fam len s codec) (runEnc fam len s' codec') := by
  subst hcodec
  exact ⟨_, .bind (resolveLen_noTextError _ _ _) fun _ => .bind (herr _) .enc, rfl, by rw [hreq]; rfl⟩

theorem runDecs_sameOutcome {codec : Bits → Except ErrorKind (Value × Nat)} (hreq : s.req = s'.req)
    (herr : ∀ v, NoTextError (codec v)) :
    SameOutcome .decs s s' (runDecs fam len s codec) (runDecs fam len s' codec) :=
  ⟨_, .bind (resolveLen_noTextError _ _ _) fun _ => .bind (herr _) fun _ => .decs _ _, rfl,
    by rw [hreq]; rfl⟩

theorem runPad_sameOutcome {codec : Bits → Value} (hreq : s.req = s'.req) :
    SameOutcome .pad s s' (runPad fam len s codec) (runPad fam len s' codec) :=
  ⟨_, .bind (resolveLen_noTextError _ _ _) fun _ => .pad _, rfl, by rw [hreq]; rfl⟩

end shapes

/-- What an instruction answers is settled by its request, and for an `ne` instruction by CFG too: the
codecs of the other qualifiers are the same on every host (R36, R99). -/
theorem exec_sameOutcome (i : Instr) {s s' : State} (hreq : s.req = s'.req)
    (hcfg : (instrFields i).2.2.1 = .ne → s.cfg = s'.cfg) :
    SameOutcome (instrFields i).1 s s' (exec i s) (exec i s') := by
  cases i with
  | decUintne | decIntne | decFloatne | decBfloatne =>
    exact runDec_sameOutcome hreq (by rw [hcfg rfl]) (by simp)
  | encUintne | encIntne | encFloatne | encBfloatne =>
    simp only [exec]; exact runEnc_sameOutcome hreq (by rw [hcfg rfl]) (by simp)
  | decBin | decHex | decOct | decUint | decUintbe | decUintle | decInt | decIntbe | decIntle
  | decFloat | decFloatbe | decFloatle | decBfloat | decBfloatbe | decBfloatle | decE4m3float
  | decE5m2float | decBytes | decUe | decSe | decUie | decSie =>
    exact runDec_sameOutcome hreq rfl (by simp)
  | encBin | encHex | encOct | encUint | encUintbe | encUintle | encInt | encIntbe | encIntle
  | encFloat | encFloatbe | encFloatle | encBfloat | encBfloatbe | encBfloatle | encE4m3float
  | encE5m2float | encBytes | encUe | encSe | encUie | encSie =>
    simp only [exec]; exact runEnc_sameOutcome hreq rfl (by simp)
  | decsUe | decsSe | decsUie | decsSie => exact runDecs_sameOutcome hreq (by simp)
  | padBytes => exact runPad_sameOutcome hreq

/-- Everything one instruction can do to one state. -/
theorem exec_respond (i : Instr) (s : State) :
    ∃ r, OutcomeOf (instrFields i).1 r ∧ exec i s = .next (s.respond r) := by
  obtain ⟨r, hr, hexec, -⟩ := exec_sameOutcome i (s := s) rfl fun _ => rfl
  exact ⟨r, hr, hexec⟩

/-! ### What a step can do (R35, R70) -/

theorem step_idle {s : State} (hb : s.busy = false) : step s = .next s := by
  simp [step, hb]

theorem step_reject {s : State} {r : Reject} (hb : s.busy = true)
    (hd : decode s.req.cmd = .error r) : step s = .next (s.raise (rejectKind r)) := by
  simp [step, hb, hd]

theorem step_exec {s : State} {i : Instr} (hb : s.busy = true) (hd : decode s.req.cmd = .ok i) :
    step s = exec i s := by
  simp [step, hb, hd]

theorem rejectKind_ne_tokenSyntax (r : Reject) : rejectKind r ≠ .tokenSyntax := by
  cases r <;> decide

/-- Everything a step can do: nothing when idle, else the outcome of an operation. The error of an illegal
word counts as one: it is an outcome of every operation. -/
theorem step_cases (s : State) :
    step s = .next s ∨ ∃ op r, OutcomeOf op r ∧ step s = .next (s.respond r) := by
  cases hb : s.busy with
  | false => exact .inl (step_idle hb)
  | true =>
    refine .inr ?_
    cases hd : decode s.req.cmd with
    | error r => exact ⟨.dec, _, .error (rejectKind_ne_tokenSyntax r), step_reject hb hd⟩
    | ok i =>
      obtain ⟨r, hr, hexec⟩ := exec_respond i s
      exact ⟨_, r, hr, (step_exec hb hd).trans hexec⟩

/-! ### What the host sees of a response (R28, R29, R36) -/

theorem errorCode_injective : Function.Injective errorCode := by
  intro k k'; cases k <;> cases k' <;> decide

/-- The host sees of a response its outcome, all of it, and nothing else of the state. -/
theorem sameResponse_respond_iff {s s' : State} {r r' : Except ErrorKind Answer} :
    SameResponse (s.respond r) (s'.respond r') ↔ r = r' := by
  rcases r with k | (v | b | ⟨v, n⟩) <;> rcases r' with k' | (v' | b' | ⟨v', n'⟩) <;>
    simp [SameResponse, errorCode_injective.eq_iff]

theorem errorCode_legal {k : ErrorKind} (hk : k ≠ .tokenSyntax) :
    (errorCode k).toNat ≤ 6 ∧ errorCode k ≠ 1 := by
  revert hk; cases k <;> decide

/-- A response keeps the invariant, whatever the state before it: STATUS is 0 or an error code of
BSC. -/
theorem OutcomeOf.inv_respond {op : Op} {r : Except ErrorKind Answer} (hr : OutcomeOf op r)
    (s : State) : Inv (s.respond r) := by
  cases hr with
  | @error _ k hk =>
    obtain ⟨hlegal, hnotText⟩ := errorCode_legal hk
    exact ⟨hlegal, hnotText, fun _ => errorCode_ne_ok k, by simp⟩
  | dec | pad | enc | decs => exact ⟨by simp [statusOk], by simp [statusOk], by simp, fun _ => rfl⟩

/-! Which fields a host can read after each response (R28). -/

section reads
variable (s : State) (k : ErrorKind) (v : Value) (b : Bits) (n : Nat)

@[simp] theorem readRes_raise : readRes (s.raise k) = .error .readUnspecified := rfl
@[simp] theorem readRes_answerValue : readRes (s.answerValue v) = .error .readUnspecified := rfl
@[simp] theorem readRes_answerBits : readRes (s.answerBits b) = .ok b := rfl
@[simp] theorem readRes_answerStream : readRes (s.answerStream v n) = .error .readUnspecified := rfl
@[simp] theorem readRval_raise : readRval (s.raise k) = .error .readUnspecified := rfl
@[simp] theorem readRval_answerValue : readRval (s.answerValue v) = .ok v := rfl
@[simp] theorem readRval_answerBits : readRval (s.answerBits b) = .error .readUnspecified := rfl
@[simp] theorem readRval_answerStream : readRval (s.answerStream v n) = .ok v := rfl
@[simp] theorem readConsumed_answerValue :
    readConsumed (s.answerValue v) = .error .readUnspecified := rfl
@[simp] theorem readConsumed_answerBits :
    readConsumed (s.answerBits b) = .error .readUnspecified := rfl

end reads

/-! ### Two hosts (R21, R99) -/

/-- A state on a host of the byte order h that tells the two orders apart: the view is the 16-bit number
1, the values are the integer 1 and the positive infinity. -/
def tellingState (h : ByteOrder) : State :=
  { State.reset with
    cfg := { hostEndian := h }
    req := { cmd := 0, view := toBits 16 1,
             val := { str := [], int := 1, flt := 0x7FF0000000000000, byt := [] } } }

/-- An instruction has a request whose responses on the two hosts differ. -/
def TellsHostsApart (i : Instr) : Prop :=
  ∃ s t t' : State, exec i { s with cfg := { hostEndian := .big } } = .next t ∧
    exec i { s with cfg := { hostEndian := .little } } = .next t' ∧ ¬ SameResponse t t'

theorem runDec_respond {fam : Family} {len : Option Nat} {s : State}
    {codec : Bits → Except ErrorKind Value} (h1 : resolveLen .dec fam len = .ok ())
    (h2 : viewAgrees fam len s.req.view = .ok ()) :
    runDec fam len s codec = .next (s.respond ((codec s.req.view).map .value)) := by
  rw [runDec_eq _ _ _ h1 h2]; cases codec s.req.view <;> rfl

theorem runEnc_respond {fam : Family} {len : Option Nat} {s : State}
    {codec : Operand → Except ErrorKind Bits} (h1 : resolveLen .enc fam len = .ok ()) :
    runEnc fam len s codec = .next (s.respond ((codec s.req.val).map .bits)) := by
  rw [runEnc_eq _ _ _ h1]; cases codec s.req.val <;> rfl

/-- A 16-bit DEC tells the hosts apart when its codec does. -/
theorem tellsHostsApart_dec {i : Instr} {fam : Family}
    {codec : ByteOrder → Bits → Except ErrorKind Value}
    (hexec : ∀ s, exec i s = runDec fam (some 16) s (codec s.cfg.hostEndian))
    (h1 : resolveLen .dec fam (some 16) = .ok ())
    (h2 : viewAgrees fam (some 16) (toBits 16 1) = .ok ())
    (hcodec : (codec .big (toBits 16 1)).map Answer.value ≠
      (codec .little (toBits 16 1)).map Answer.value) : TellsHostsApart i :=
  ⟨tellingState .big, _, _, (hexec _).trans (runDec_respond h1 h2),
    (hexec _).trans (runDec_respond h1 h2), mt sameResponse_respond_iff.1 hcodec⟩

/-- A 16-bit ENC tells the hosts apart when its codec does. -/
theorem tellsHostsApart_enc {i : Instr} {fam : Family}
    {codec : ByteOrder → Operand → Except ErrorKind Bits}
    (hexec : ∀ s, exec i s = runEnc fam (some 16) s (codec s.cfg.hostEndian))
    (h1 : resolveLen .enc fam (some 16) = .ok ())
    (hcodec : (codec .big (tellingState .big).req.val).map Answer.bits ≠
      (codec .little (tellingState .big).req.val).map Answer.bits) : TellsHostsApart i :=
  ⟨tellingState .big, _, _, (hexec _).trans (runEnc_respond h1),
    (hexec _).trans (runEnc_respond h1), mt sameResponse_respond_iff.1 hcodec⟩

end Sys2Proof.Machine

/-! ## The state statements -/

namespace Sys2Proof.Proofs

open Sys2Proof.Machine

/-- Settles O5. -/
theorem stepIdlesUntilACommandIsPresented : Obligations.StepIdlesUntilACommandIsPresented :=
  fun _ => step_idle

/-- Settles O9. -/
theorem resetMeetsTheInvariant : Obligations.ResetMeetsTheInvariant :=
  ⟨by decide, by decide, nofun, fun _ => rfl⟩

/-- Settles O8: a step changes nothing or writes a response, and every response meets the invariant. -/
theorem everyStepKeepsTheInvariant : Obligations.EveryStepKeepsTheInvariant := by
  intro s t hs hstep
  obtain hidle | ⟨op, r, hr, hrun⟩ := step_cases s
  · cases hidle.symm.trans hstep; exact hs
  · cases hrun.symm.trans hstep; exact hr.inv_respond s

/-- Settles O10: a response leaves CFG and REQ alone. -/
theorem noStepWritesConfigurationOrRequest : Obligations.NoStepWritesConfigurationOrRequest := by
  refine ⟨fun s t hstep => ?_, fun i s t hexec => ?_⟩
  · obtain hidle | ⟨op, r, -, hrun⟩ := step_cases s
    · cases hidle.symm.trans hstep; exact ⟨rfl, rfl⟩
    · cases hrun.symm.trans hstep; exact ⟨s.respond_cfg r, s.respond_req r⟩
  · obtain ⟨r, -, hrun⟩ := exec_respond i s
    cases hrun.symm.trans hexec; exact ⟨s.respond_cfg r, s.respond_req r⟩

/-- Settles O12: the two states decode the same word, and run it to the same outcome or answer the same
error. -/
theorem responseIsAFunctionOfRequestAndConfiguration :
    Obligations.ResponseIsAFunctionOfRequestAndConfiguration := by
  intro s s' t t' hcfg hreq hb hb' hstep hstep'
  cases hd : decode s.req.cmd with
  | error r =>
    cases (step_reject hb hd).symm.trans hstep
    cases (step_reject hb' (hreq ▸ hd)).symm.trans hstep'
    exact sameResponse_respond_iff.2 (rfl : Except.error (rejectKind r) = _)
  | ok i =>
    obtain ⟨r, -, hrun, hrun'⟩ := exec_sameOutcome i hreq fun _ => hcfg
    cases (step_exec hb hd ▸ hrun).symm.trans hstep
    cases (step_exec hb' (hreq ▸ hd) ▸ hrun').symm.trans hstep'
    exact sameResponse_respond_iff.2 rfl

/-- Settles O14: without `ne` the outcome is settled by the request; with it, the number 1 and the
infinity, 16 bits wide, tell the hosts apart. -/
theorem onlyNeCommandsReadTheHostOrder : Obligations.OnlyNeCommandsReadTheHostOrder := by
  refine ⟨fun i s t t' h hne hexec hexec' => ?_, ?_⟩
  · obtain ⟨r, -, hrun, hrun'⟩ := exec_sameOutcome i (s := s)
      (s' := { s with cfg := { hostEndian := h } }) rfl fun hq => absurd hq hne
    cases hrun.symm.trans hexec
    cases hrun'.symm.trans hexec'
    exact sameResponse_respond_iff.2 rfl
  · change ∀ i ∈ _, TellsHostsApart i
    simp only [List.forall_mem_cons, List.not_mem_nil, false_imp_iff, implies_true, and_true]
    exact
      ⟨tellsHostsApart_dec (codec := decodeUint .ne) (fun _ => rfl) rfl rfl (by decide +kernel),
       tellsHostsApart_enc (codec := fun h x => encodeUint .ne h (some 16) x.int) (fun _ => rfl) rfl
         (by decide +kernel),
       tellsHostsApart_dec (codec := decodeInt .ne) (fun _ => rfl) rfl rfl (by decide +kernel),
       tellsHostsApart_enc (codec := fun h x => encodeInt .ne h (some 16) x.int) (fun _ => rfl) rfl
         (by decide +kernel),
       tellsHostsApart_dec (codec := decodeFloat .ne) (fun _ => rfl) rfl rfl (by decide +kernel),
       tellsHostsApart_enc (codec := fun h x => encodeFloat .ne h (some 16) x.flt) (fun _ => rfl) rfl
         (by decide +kernel),
       tellsHostsApart_dec (codec := decodeBfloat .ne) (fun _ => rfl) rfl rfl (by decide +kernel),
       tellsHostsApart_enc (codec := fun h x => encodeBfloat .ne h x.flt) (fun _ => rfl) rfl
         (by decide +kernel)⟩

/-- Settles O17: by the outcomes of the instruction's operation. -/
theorem responsesDefineTheFieldsOfTheirOperation :
    Obligations.ResponsesDefineTheFieldsOfTheirOperation := by
  intro i s t hexec
  obtain ⟨r, hr, hrun⟩ := exec_respond i s
  cases hrun.symm.trans hexec
  generalize (instrFields i).1 = op at hr ⊢
  cases hr with
  | @error _ k hk =>
    have hne : errorCode k ≠ 0#8 := errorCode_ne_ok k
    simp [hne]
  | dec | pad | enc | decs => simp [statusOk]

end Sys2Proof.Proofs

/-! ## Lemmas of the port statements: what a start does (R305, R307) -/

namespace Sys2Proof.Machine

/-- Everything a start can do: on an idle state it places the request and presents the command. -/
theorem present_eq_ok_iff {r : Request} {s t : State} :
    present r s = .ok t ↔ s.busy = false ∧ t = { s with req := r, busy := true } := by
  cases hb : s.busy with
  | false => simp [present, hb, eq_comm]
  | true => simp [present, hb]

end Sys2Proof.Machine

/-! ## The memory statements -/

namespace Sys2Proof.Proofs

open Sys2Proof.Machine

/-- Settles O13: the first command leaves CFG alone (R21, R50), and the second start places the same
request either way, so the two runs of it meet the hypotheses of O12. -/
theorem earlierCommandsLeaveNoTrace : Obligations.EarlierCommandsLeaveNoTrace := by
  intro s r r' a b c d c' d' hstart hstep hstart₂ hstep₂ hstart' hstep'
  obtain ⟨-, rfl⟩ := present_eq_ok_iff.1 hstart
  obtain ⟨-, rfl⟩ := present_eq_ok_iff.1 hstart₂
  obtain ⟨-, rfl⟩ := present_eq_ok_iff.1 hstart'
  have hcfg : b.cfg = s.cfg := (noStepWritesConfigurationOrRequest.1 _ b hstep).1
  refine responseIsAFunctionOfRequestAndConfiguration _ _ d d' ?_ ?_ ?_ ?_ hstep₂ hstep'
  exacts [hcfg, rfl, rfl, rfl]

end Sys2Proof.Proofs

/-! ## Lemmas of the encoding statements: the codes, the command word and its decoder (R60 to R70) -/

namespace Sys2Proof.Machine

/-! ### The codes of the fields and the table of instructions (R61 to R67) -/

theorem famCode_lt (fam : Family) : famCode fam < 14 := by cases fam <;> decide

theorem endCode_lt (e : Endian) : endCode e < 4 := by cases e <;> decide

theorem opCode_lt (op : Op) : opCode op < 4 := by cases op <;> decide

@[simp] theorem famOfCode_famCode (fam : Family) : famOfCode (famCode fam) = some fam := by
  cases fam <;> rfl

@[simp] theorem endOfCode_endCode (e : Endian) : endOfCode (endCode e) = e := by cases e <;> rfl

@[simp] theorem opOfCode_opCode (op : Op) : opOfCode (opCode op) = op := by cases op <;> rfl

/-- The fourteen codes below the reserved ones are families (R61). -/
theorem exists_famCode_eq {n : Nat} (h : n < 14) : ∃ fam, famCode fam = n := by
  have hcodes : ∀ n < 14, ∃ fam, famOfCode n = some fam ∧ famCode fam = n := by decide
  obtain ⟨fam, -, hfam⟩ := hcodes n h
  exact ⟨fam, hfam⟩

theorem famOfCode_eq_none {n : Nat} (h : 14 ≤ n) : famOfCode n = none := by
  obtain ⟨k, rfl⟩ := Nat.exists_eq_add_of_le' h
  rfl

theorem endCode_endOfCode {n : Nat} (h : n < 4) : endCode (endOfCode n) = n := by
  revert n; decide

theorem opCode_opOfCode {n : Nat} (h : n < 4) : opCode (opOfCode n) = n := by
  revert n; decide

theorem endOfCode_eq_bitwise {n : Nat} (h : n < 4) : endOfCode n = .bitwise ↔ n = 0 := by
  revert n; decide

/-- The families with a byte-wise qualifier are those of codes 3 to 6 (R62). -/
theorem takesEndian_iff (fam : Family) :
    takesEndian fam = true ↔ 3 ≤ famCode fam ∧ famCode fam ≤ 6 := by
  cases fam <;> decide

/-- The operations a family lacks, by code: DECS outside 10 to 13, PAD outside 9 (R63). -/
theorem hasOp_eq_false_iff {n : Nat} (h : n < 4) (fam : Family) :
    hasOp (opOfCode n) fam = false ↔
      (n = 2 ∧ ¬ (10 ≤ famCode fam ∧ famCode fam ≤ 13)) ∨ (n = 3 ∧ famCode fam ≠ 9) := by
  revert n; cases fam <;> decide

theorem wellFormed_of_instrFields {op : Op} {fam : Family} {e : Endian} {len : Option Nat} {i : Instr}
    (h : instrFields i = (op, fam, e, len)) : i.wellFormed = lenFits len := by
  cases i <;> cases h <;> rfl

theorem instrFields_of_instrOf {op : Op} {fam : Family} {e : Endian} {len : Option Nat} {i : Instr}
    (h : instrOf op fam e len = some i) : instrFields i = (op, fam, e, len) := by
  unfold instrOf at h; split at h <;> cases h <;> rfl

theorem instrOf_of_instrFields {op : Op} {fam : Family} {e : Endian} {len : Option Nat} {i : Instr}
    (h : instrFields i = (op, fam, e, len)) : instrOf op fam e len = some i := by
  cases i <;> cases h <;> rfl

/-- The rows of the table are the triples that pass the checks of the qualifier and of the operation (R67,
R70). -/
theorem instrOf_isSome (op : Op) (fam : Family) (e : Endian) (len : Option Nat) :
    (instrOf op fam e len).isSome = ((e == .bitwise || takesEndian fam) && hasOp op fam) := by
  cases op <;> cases fam <;> cases e <;> rfl

/-- A triple that passes the two checks has its instruction (R66). -/
theorem exists_instr {op : Op} {fam : Family} {e : Endian} (len : Option Nat)
    (he : e = .bitwise ∨ takesEndian fam = true) (ho : hasOp op fam = true) :
    ∃ i, instrFields i = (op, fam, e, len) := by
  have hsome : (instrOf op fam e len).isSome = true := by
    rw [instrOf_isSome, ho]; simpa using he
  obtain ⟨i, hi⟩ := Option.isSome_iff_exists.1 hsome
  exact ⟨i, instrFields_of_instrOf hi⟩

/-- Every instruction passes the two checks (R67). -/
theorem legal_of_instrFields {op : Op} {fam : Family} {e : Endian} {len : Option Nat} {i : Instr}
    (h : instrFields i = (op, fam, e, len)) :
    (e = .bitwise ∨ takesEndian fam = true) ∧ hasOp op fam = true := by
  have hsome := instrOf_isSome op fam e len
  rw [instrOf_of_instrFields h, Option.isSome_some] at hsome
  simpa using hsome.symm

/-! ### The command word (R60) -/

/-- A word whose fields are those of an operation, a family, a qualifier and an explicit length (R60,
R64). -/
structure Carries (w : CmdWord) (op : Op) (fam : Family) (e : Endian) (len : Option Nat) : Prop where
  reserved : cmdReserved w = 0
  fam_eq : cmdFam w = famCode fam
  end_eq : cmdEnd w = endCode e
  op_eq : cmdOp w = opCode op
  lp_eq : cmdLp w = len.isSome.toNat
  len_eq : cmdLen w = len.getD 0

section word
variable {w : CmdWord} {op : Op} {fam : Family} {e : Endian} {len : Option Nat}

theorem cmdEnd_lt (w : CmdWord) : cmdEnd w < 4 := Nat.mod_lt _ (by decide)

theorem cmdOp_lt (w : CmdWord) : cmdOp w < 4 := Nat.mod_lt _ (by decide)

theorem cmdLp_lt (w : CmdWord) : cmdLp w < 2 := Nat.mod_lt _ (by decide)

theorem cmdLen_lt (w : CmdWord) : cmdLen w < 2 ^ 32 := Nat.mod_lt _ (by decide)

/-- The fields fill the word: a word is the number they spell. -/
theorem toNat_eq_fields (w : CmdWord) :
    w.toNat = cmdFam w + cmdEnd w * 2 ^ 4 + cmdOp w * 2 ^ 6 + cmdLp w * 2 ^ 8 + cmdReserved w * 2 ^ 9 +
      cmdLen w * 2 ^ 32 := by
  have hw : w.toNat < 18446744073709551616 := w.isLt
  simp only [cmdFam, cmdEnd, cmdOp, cmdLp, cmdReserved, cmdLen, cmdField, Nat.reduceAdd, Nat.reduceSub,
    Nat.reducePow]
  omega

/-- The packed number by its fields, with and without an explicit length. -/
theorem packFields_eq (op : Op) (fam : Family) (e : Endian) (len : Option Nat) :
    packFields op fam e len = famCode fam + endCode e * 2 ^ 4 + opCode op * 2 ^ 6 +
      len.isSome.toNat * 2 ^ 8 + len.getD 0 * 2 ^ 32 := by
  cases len <;> simp [packFields, Nat.add_assoc]

theorem carries_packFields (h : lenFits len = true) :
    Carries (BitVec.ofNat 64 (packFields op fam e len)) op fam e len := by
  have hfam := famCode_lt fam
  have he := endCode_lt e
  have hop := opCode_lt op
  have hlp := Bool.toNat_le len.isSome
  have hlen : len.getD 0 < 4294967296 := by cases len <;> simp_all [lenFits]
  constructor <;>
    simp only [packFields_eq, cmdFam, cmdEnd, cmdOp, cmdLp, cmdReserved, cmdLen, cmdField,
      BitVec.toNat_ofNat, Nat.reduceAdd, Nat.reduceSub, Nat.reducePow] <;>
    omega

/-- A word carries fields exactly when the length fits and the word is the packed number (R60, R66). -/
theorem carries_iff :
    Carries w op fam e len ↔
      lenFits len = true ∧ w = BitVec.ofNat 64 (packFields op fam e len) := by
  refine ⟨fun h => ⟨?_, BitVec.eq_of_toNat_eq ?_⟩, fun ⟨hfits, hw⟩ => hw ▸ carries_packFields hfits⟩
  · cases len with
    | none => rfl
    | some n =>
      have hn : cmdLen w = n := h.len_eq
      simpa [lenFits, hn] using cmdLen_lt w
  · have hw : w.toNat = packFields op fam e len := by
      rw [toNat_eq_fields, packFields_eq, h.reserved, h.fam_eq, h.end_eq, h.op_eq, h.lp_eq, h.len_eq]
      omega
    rw [BitVec.toNat_ofNat, ← hw, Nat.mod_eq_of_lt w.isLt]

/-- The explicit length of a word that passes the fifth check is the one its fields spell (R70). -/
theorem explicitLen_eq_iff :
    (explicitLen w = len ∧ ¬ (cmdLp w = 0 ∧ cmdLen w ≠ 0)) ↔
      cmdLp w = len.isSome.toNat ∧ cmdLen w = len.getD 0 := by
  have hlp := cmdLp_lt w
  unfold explicitLen
  cases len with
  | none => simp; omega
  | some n => simp; omega

/-! ### The decoder, check by check (R70) -/

theorem decode_reservedBits (h : cmdReserved w ≠ 0) : decode w = .error .reservedBits := by
  simp [decode, h]

theorem decode_unknownFamily (h : cmdReserved w = 0) (hfam : 14 ≤ cmdFam w) :
    decode w = .error .unknownFamily := by
  simp [decode, h, famOfCode_eq_none hfam]

theorem decode_endianOnFamily (h : cmdReserved w = 0) (hfam : cmdFam w = famCode fam)
    (he : endOfCode (cmdEnd w) ≠ .bitwise ∧ takesEndian fam = false) :
    decode w = .error .endianOnFamily := by
  simp [decode, h, hfam, he]

theorem decode_opOnFamily (h : cmdReserved w = 0) (hfam : cmdFam w = famCode fam)
    (he : ¬ (endOfCode (cmdEnd w) ≠ .bitwise ∧ takesEndian fam = false))
    (ho : hasOp (opOfCode (cmdOp w)) fam = false) : decode w = .error .opOnFamily := by
  simp only [decode, h, hfam, famOfCode_famCode, he, ho, ne_eq, not_true_eq_false, if_false, if_true]

theorem decode_lenWithoutLp (h : cmdReserved w = 0) (hfam : cmdFam w = famCode fam)
    (he : ¬ (endOfCode (cmdEnd w) ≠ .bitwise ∧ takesEndian fam = false))
    (ho : hasOp (opOfCode (cmdOp w)) fam = true) (hl : cmdLp w = 0 ∧ cmdLen w ≠ 0) :
    decode w = .error .lenWithoutLp := by
  simp only [decode, h, hfam, famOfCode_famCode, he, ho, hl, ne_eq, not_true_eq_false, if_false,
    Bool.true_eq_false, not_false_eq_true, and_self, if_true]

/-- The third check by codes (R62, R70). -/
theorem endianCheck_iff (hfam : cmdFam w = famCode fam) :
    (endOfCode (cmdEnd w) ≠ .bitwise ∧ takesEndian fam = false) ↔
      cmdEnd w ≠ 0 ∧ ¬ (3 ≤ cmdFam w ∧ cmdFam w ≤ 6) := by
  rw [hfam, ← takesEndian_iff, Bool.not_eq_true, ne_eq, endOfCode_eq_bitwise (cmdEnd_lt w)]

/-- The fourth check by codes (R63, R70). -/
theorem opCheck_iff (hfam : cmdFam w = famCode fam) :
    hasOp (opOfCode (cmdOp w)) fam = false ↔
      (cmdOp w = 2 ∧ ¬ (10 ≤ cmdFam w ∧ cmdFam w ≤ 13)) ∨ (cmdOp w = 3 ∧ cmdFam w ≠ 9) := by
  rw [hfam, hasOp_eq_false_iff (cmdOp_lt w)]

/-- A word that passes the five checks selects the instruction of its fields. -/
theorem decode_passed (h : cmdReserved w = 0) (hfam : cmdFam w = famCode fam)
    (he : ¬ (endOfCode (cmdEnd w) ≠ .bitwise ∧ takesEndian fam = false))
    (ho : hasOp (opOfCode (cmdOp w)) fam = true) (hl : ¬ (cmdLp w = 0 ∧ cmdLen w ≠ 0)) :
    ∃ i, decode w = .ok i ∧
      instrFields i = (opOfCode (cmdOp w), fam, endOfCode (cmdEnd w), explicitLen w) := by
  have he' : endOfCode (cmdEnd w) = .bitwise ∨ takesEndian fam = true := by
    simpa [or_iff_not_imp_left] using he
  obtain ⟨i, hi⟩ := exists_instr (explicitLen w) he' ho
  refine ⟨i, ?_, hi⟩
  simp only [decode, h, hfam, famOfCode_famCode, he, ho, hl, instrOf_of_instrFields hi, ne_eq,
    not_true_eq_false, if_false, Bool.true_eq_false]

end word

/-- The decoder answers an instruction exactly on the words that carry its fields (R66, R70). -/
theorem decode_eq_ok_iff {w : CmdWord} {i : Instr} {op : Op} {fam : Family} {e : Endian}
    {len : Option Nat} (hi : instrFields i = (op, fam, e, len)) :
    decode w = .ok i ↔ Carries w op fam e len := by
  constructor
  · intro hd
    have h : cmdReserved w = 0 := by
      by_contra hne; simp [decode_reservedBits hne] at hd
    have hlt : cmdFam w < 14 := by
      by_contra hge; simp [decode_unknownFamily h (not_lt.1 hge)] at hd
    obtain ⟨fam', hfam⟩ := exists_famCode_eq hlt
    have he : ¬ (endOfCode (cmdEnd w) ≠ .bitwise ∧ takesEndian fam' = false) := by
      intro hbad; simp [decode_endianOnFamily h hfam.symm hbad] at hd
    have ho : hasOp (opOfCode (cmdOp w)) fam' = true := by
      by_contra hbad; simp [decode_opOnFamily h hfam.symm he (by simpa using hbad)] at hd
    have hl : ¬ (cmdLp w = 0 ∧ cmdLen w ≠ 0) := by
      intro hbad; simp [decode_lenWithoutLp h hfam.symm he ho hbad] at hd
    obtain ⟨i', hd', hi'⟩ := decode_passed h hfam.symm he ho hl
    cases hd'.symm.trans hd
    cases hi'.symm.trans hi
    obtain ⟨hlp, hlen⟩ := explicitLen_eq_iff.1 ⟨rfl, hl⟩
    exact ⟨h, hfam.symm, (endCode_endOfCode (cmdEnd_lt w)).symm, (opCode_opOfCode (cmdOp_lt w)).symm,
      hlp, hlen⟩
  · intro h
    obtain ⟨he, ho⟩ := legal_of_instrFields hi
    obtain ⟨hlen, hl⟩ := explicitLen_eq_iff.2 ⟨h.lp_eq, h.len_eq⟩
    obtain ⟨i', hd, hi'⟩ := decode_passed (w := w) h.reserved h.fam_eq
      (by rw [h.end_eq, endOfCode_endCode]; rcases he with rfl | he <;> simp [*])
      (by rwa [h.op_eq, opOfCode_opCode]) hl
    rw [h.op_eq, h.end_eq, hlen, opOfCode_opCode, endOfCode_endCode] at hi'
    cases (instrOf_of_instrFields hi').symm.trans (instrOf_of_instrFields hi)
    exact hd

/-- The word of an instruction, from the instruction's fields (R66). -/
theorem encode_eq {i : Instr} {op : Op} {fam : Family} {e : Endian} {len : Option Nat}
    (hi : instrFields i = (op, fam, e, len)) :
    encode i = BitVec.ofNat 64 (packFields op fam e len) := by
  simp only [encode, hi]

/-- The fields a statement reads by `extractLsb'` are the decoder's (R10, R60). -/
theorem extractLsb'_toNat_eq_cmdField (w : CmdWord) (lo k : Nat) (hk : 0 < k) :
    (w.extractLsb' lo k).toNat = cmdField w (lo + k - 1) lo := by
  rw [BitVec.extractLsb'_toNat, Nat.shiftRight_eq_div_pow, cmdField]
  congr 2; omega

theorem answersError_raise (s : State) (k : ErrorKind) : AnswersError s (.next (s.raise k)) k :=
  ⟨_, rfl, rfl, rfl, rfl, rfl, rfl⟩

end Sys2Proof.Machine

/-! ## The statements of the command word -/

namespace Sys2Proof.Proofs

open Sys2Proof.Machine

/-- Settles O1: the word of a well-formed instruction carries its fields. -/
theorem decodeOfEncodeIsTheInstruction : Obligations.DecodeOfEncodeIsTheInstruction := by
  intro i hwf
  rcases hi : instrFields i with ⟨op, fam, e, len⟩
  rw [wellFormed_of_instrFields hi] at hwf
  rw [decode_eq_ok_iff hi, carries_iff]
  exact ⟨hwf, encode_eq hi⟩

/-- Settles O2: a word is the packed number of the fields it carries. -/
theorem encodeOfDecodeIsTheWord : Obligations.EncodeOfDecodeIsTheWord := by
  intro w i hd
  rcases hi : instrFields i with ⟨op, fam, e, len⟩
  rw [decode_eq_ok_iff hi, carries_iff] at hd
  obtain ⟨hfits, rfl⟩ := hd
  exact ⟨(wellFormed_of_instrFields hi).trans hfits, encode_eq hi⟩

/-- Settles O3: the clauses are the decoder's checks, with the fields named by their codes. -/
theorem decoderAnswersTheFirstFailingCheck : Obligations.DecoderAnswersTheFirstFailingCheck := by
  intro s hb
  have hreject : ∀ r, decode s.req.cmd = .error r → AnswersError s (step s) (rejectKind r) :=
    fun r hd => step_reject hb hd ▸ answersError_raise s _
  have hrun : ∀ i, decode s.req.cmd = .ok i → step s = exec i s := fun i hd => step_exec hb hd
  simp only [extractLsb'_toNat_eq_cmdField _ _ _ (Nat.succ_pos _)]
  rw [← cmdFam, ← cmdEnd, ← cmdOp, ← cmdLp, ← cmdReserved, ← cmdLen]
  generalize s.req.cmd = w at *
  refine ⟨fun h => hreject _ (decode_reservedBits h),
    fun h hfam => hreject _ (decode_unknownFamily h hfam), fun h hlt he => ?_,
    fun h hlt he ho => ?_, fun h hlt he ho hl => ?_, fun h hlt he ho hl => ?_⟩ <;>
    obtain ⟨fam, hfam⟩ := exists_famCode_eq hlt <;>
    rw [← endianCheck_iff hfam.symm] at he
  · exact hreject _ (decode_endianOnFamily h hfam.symm he)
  all_goals rw [← opCheck_iff hfam.symm] at ho
  · exact hreject _ (decode_opOnFamily h hfam.symm he ho)
  all_goals rw [Bool.not_eq_false] at ho
  · exact hreject _ (decode_lenWithoutLp h hfam.symm he ho hl)
  · obtain ⟨i, hd, hi⟩ := decode_passed h hfam.symm he ho hl
    exact ⟨i, _, _, _, hi, opCode_opOfCode (cmdOp_lt w), hfam, endCode_endOfCode (cmdEnd_lt w),
      hrun i hd⟩

/-- Settles O6: each token and each word of R82 is run through the assembler and the decoder. -/
theorem workedEncodings : Obligations.WorkedEncodings :=
  ⟨rfl, rfl, rfl, rfl, rfl, rfl, rfl, rfl, rfl, rfl, rfl, rfl, rfl, rfl⟩

end Sys2Proof.Proofs

/-! ## Lemmas of the token grammar: spelling, suffix and digits (R75 to R79) -/

namespace Sys2Proof.Machine

/-! ### The longest spelling (R77) -/

/-- One step of the search for the longest spelling: a spelling at the front of t takes over when it is
longer than the best one so far. -/
def longerSpelling (t : Str) (best : Option (Str × Family)) (sp : Str × Family) :
    Option (Str × Family) :=
  if sp.1.isPrefixOf t then
    match best with
    | none => some sp
    | some b => if b.1.length < sp.1.length then some sp else best
  else best

theorem longestSpelling_eq_foldl (t : Str) :
    longestSpelling t = spellings.foldl (longerSpelling t) none := rfl

/-- The name of the best spelling so far has at least n characters. -/
def ReachesLength (n : Nat) (best : Option (Str × Family)) : Prop :=
  ∃ b ∈ best, n ≤ b.1.length

section search
variable {t : Str} {best : Option (Str × Family)} {sp : Str × Family}

/-- A step answers the best spelling so far, or the one it looks at when t starts with it. -/
theorem longerSpelling_cases :
    longerSpelling t best sp = best ∨ longerSpelling t best sp = some sp ∧ sp.1 <+: t := by
  unfold longerSpelling
  by_cases hp : sp.1.isPrefixOf t
  · have hp' := List.isPrefixOf_iff_prefix.1 hp
    cases best with
    | none => simp [hp, hp']
    | some b => by_cases hlt : b.1.length < sp.1.length <;> simp [hp, hp', hlt]
  · simp [hp]

theorem longerSpelling_keeps {n : Nat} (h : ReachesLength n best) :
    ReachesLength n (longerSpelling t best sp) := by
  obtain ⟨b, rfl, hb⟩ := h
  unfold longerSpelling
  split
  · simp only
    split
    · exact ⟨sp, rfl, by omega⟩
    · exact ⟨b, rfl, hb⟩
  · exact ⟨b, rfl, hb⟩

theorem longerSpelling_reaches (hp : sp.1 <+: t) :
    ReachesLength sp.1.length (longerSpelling t best sp) := by
  unfold longerSpelling
  rw [if_pos (List.isPrefixOf_iff_prefix.2 hp)]
  cases best with
  | none => exact ⟨sp, rfl, le_rfl⟩
  | some b =>
    simp only
    split
    · exact ⟨sp, rfl, le_rfl⟩
    · exact ⟨b, rfl, by omega⟩

theorem foldl_longerSpelling_keeps {n : Nat} (L : List (Str × Family)) (h : ReachesLength n best) :
    ReachesLength n (L.foldl (longerSpelling t) best) := by
  induction L generalizing best with
  | nil => exact h
  | cons x L ih => exact ih (longerSpelling_keeps h)

theorem foldl_longerSpelling_reaches {L : List (Str × Family)} (hm : sp ∈ L) (hp : sp.1 <+: t) :
    ReachesLength sp.1.length (L.foldl (longerSpelling t) best) := by
  induction L generalizing best with
  | nil => simp at hm
  | cons x L ih =>
    rcases List.mem_cons.1 hm with rfl | hm
    · exact foldl_longerSpelling_keeps L (longerSpelling_reaches hp)
    · exact ih hm

theorem foldl_longerSpelling_eq_some {L : List (Str × Family)}
    (h : L.foldl (longerSpelling t) best = some sp) : best = some sp ∨ sp ∈ L ∧ sp.1 <+: t := by
  induction L generalizing best with
  | nil => exact .inl h
  | cons x L ih =>
    rcases ih h with hx | ⟨hm, hp⟩
    · rcases longerSpelling_cases (t := t) (best := best) (sp := x) with hkeep | ⟨htake, hp⟩
      · exact .inl (hkeep.symm.trans hx)
      · cases htake.symm.trans hx
        exact .inr ⟨List.mem_cons_self, hp⟩
    · exact .inr ⟨List.mem_cons_of_mem _ hm, hp⟩

end search

/-- What the search answers is a spelling at the front of the token. -/
theorem longestSpelling_sound {t : Str} {sp : Str × Family} (h : longestSpelling t = some sp) :
    sp ∈ spellings ∧ sp.1 <+: t := by
  rw [longestSpelling_eq_foldl] at h
  simpa using foldl_longerSpelling_eq_some h

/-- The search finds the spelling at the front of the token that is longer than any other there. -/
theorem longestSpelling_eq_some {t : Str} {sp : Str × Family} (hm : sp ∈ spellings) (hp : sp.1 <+: t)
    (hlongest : ∀ sp' ∈ spellings, sp'.1 <+: t → sp' = sp ∨ sp'.1.length < sp.1.length) :
    longestSpelling t = some sp := by
  obtain ⟨sp', hfound, hlen⟩ := foldl_longerSpelling_reaches (best := none) hm hp
  have hfound : longestSpelling t = some sp' := hfound
  obtain ⟨hm', hp'⟩ := longestSpelling_sound hfound
  rcases hlongest sp' hm' hp' with rfl | hlt
  · exact hfound
  · omega

/-! ### Digits (R77) -/

/-- The character of a decimal digit (R75, R77). -/
def digitChar (d : Nat) : Byte := BitVec.ofNat 8 (0x30 + d)

theorem digitChar_toNat {d : Nat} (h : d ≤ 9) : (digitChar d).toNat = 0x30 + d := by
  rw [digitChar, BitVec.toNat_ofNat]; omega

theorem isDigitChar_digitChar {d : Nat} (h : d ≤ 9) : isDigitChar (digitChar d) = true := by
  rw [isDigitChar, decide_eq_true_iff, digitChar_toNat h]; omega

theorem all_isDigitChar {ds : List Nat} (h : ∀ d ∈ ds, d ≤ 9) :
    (ds.map digitChar).all isDigitChar = true := by
  simp only [List.all_map, List.all_eq_true]
  exact fun d hd => isDigitChar_digitChar (h d hd)

/-- A string of digit characters is the text of a list of digits. -/
theorem exists_digits {r : Str} (h : r.all isDigitChar = true) :
    ∃ ds : List Nat, (∀ d ∈ ds, d ≤ 9) ∧ r = ds.map digitChar := by
  have hdigit : ∀ c ∈ r, 0x30 ≤ c.toNat ∧ c.toNat ≤ 0x39 := by
    simpa [List.all_eq_true, isDigitChar] using h
  refine ⟨r.map fun c => c.toNat - 0x30, ?_, ?_⟩
  · intro d hd
    obtain ⟨c, hc, rfl⟩ := List.mem_map.1 hd
    have := hdigit c hc
    omega
  · rw [List.map_map, List.map_congr_left (g := id), List.map_id]
    intro c hc
    have := hdigit c hc
    apply BitVec.eq_of_toNat_eq
    rw [Function.comp_apply, digitChar_toNat (by omega), id]
    omega

/-- The decimal value is the positional one, the last digit least (R77). -/
theorem decimalValue_digits {ds : List Nat} (h : ∀ d ∈ ds, d ≤ 9) :
    decimalValue (ds.map digitChar) = Nat.ofDigits 10 ds.reverse := by
  induction ds using List.reverseRecOn with
  | nil => rfl
  | append_singleton ds d ih =>
    have hd : (digitChar d).toNat = 0x30 + d := digitChar_toNat (h d (by simp))
    have ih := ih fun x hx => h x (by simp [hx])
    rw [decimalValue] at ih ⊢
    rw [List.map_append, List.foldl_append, ih, List.reverse_append, List.reverse_singleton,
      List.singleton_append, Nat.ofDigits_cons, List.map_singleton, List.foldl_cons, List.foldl_nil, hd]
    simp; omega

/-! ### The suffix (R75, R77) -/

theorem dropFront_eq_some {p t r : Str} : dropFront p t = some r ↔ t = p ++ r := by
  unfold dropFront
  constructor
  · intro h
    split at h
    · rename_i hp
      obtain ⟨r', rfl⟩ := List.isPrefixOf_iff_prefix.1 hp
      simpa [eq_comm] using h
    · cases h
  · rintro rfl
    simp [List.isPrefixOf_iff_prefix]

/-- The qualifier of a suffix as the parser writes it: none for no suffix. -/
def suffixOf : Endian → Option Endian
  | .bitwise => none
  | e => some e

@[simp] theorem suffixOf_getD (e : Endian) : (suffixOf e).getD .bitwise = e := by cases e <;> rfl

theorem suffixOf_eq_none {e : Endian} : suffixOf e = none ↔ e = .bitwise := by cases e <;> decide

/-- The suffix text ends where the digits begin. -/
theorem endSuffix_digits (e : Endian) {ds : List Nat} (h : ∀ d ∈ ds, d ≤ 9) :
    endSuffix (suffixText e ++ ds.map digitChar) = (suffixOf e, ds.map digitChar) := by
  cases e with
  | be | le | ne => simp [endSuffix, dropFront, suffixText, suffixOf, ascii]
  | bitwise =>
    cases ds with
    | nil => rfl
    | cons d ds =>
      have hd : (digitChar d).toNat = 0x30 + d := digitChar_toNat (h d (by simp))
      have hd9 : d ≤ 9 := h d (by simp)
      have hne : ∀ c : Byte, 0x3A ≤ c.toNat → ¬ c = digitChar d := by
        rintro c hc rfl; omega
      simp [endSuffix, dropFront, suffixText, suffixOf, ascii, hne]

/-- What the suffix search splits off is a suffix text. -/
theorem endSuffix_sound (r : Str) :
    ∃ e, (endSuffix r).1 = suffixOf e ∧ r = suffixText e ++ (endSuffix r).2 := by
  unfold endSuffix
  split
  next h => exact ⟨.be, rfl, dropFront_eq_some.1 h⟩
  next h => exact ⟨.le, rfl, dropFront_eq_some.1 h⟩
  next h => exact ⟨.ne, rfl, dropFront_eq_some.1 h⟩
  · exact ⟨.bitwise, rfl, rfl⟩

/-! ### The token (R75 to R77) -/

/-- No spelling is empty or ends in a digit (R76). -/
theorem spellings_end : ∀ sp ∈ spellings, ∃ c ∈ sp.1.getLast?, isDigitChar c = false := by decide

/-- A spelling at the front of another one and a suffix is that one, or shorter: a suffix never makes a
longer spelling (R76, R77). -/
theorem spellings_suffix : ∀ sp ∈ spellings, ∀ sp' ∈ spellings,
    ∀ e ∈ [Endian.bitwise, .be, .le, .ne],
      sp'.1 <+: sp.1 ++ suffixText e → sp' = sp ∨ sp'.1.length < sp.1.length := by
  decide +kernel

/-- A text that does not end in a digit and stands at the front of a text with digits after it stands at
the front of that text. -/
theorem prefix_of_prefix_append_digits {x a d : Str} (hx : ∃ c ∈ x.getLast?, isDigitChar c = false)
    (hd : d.all isDigitChar = true) (h : x <+: a ++ d) : x <+: a := by
  rcases List.prefix_or_prefix_of_prefix h (List.prefix_append a d) with h' | ⟨y, rfl⟩
  · exact h'
  · rcases List.eq_nil_or_concat y with rfl | ⟨y, b, rfl⟩
    · simp
    · obtain ⟨c, hc, hdigit⟩ := hx
      have hb : b ∈ d := ((List.prefix_append_right_inj a).1 h).subset (by simp)
      have hbc : b = c := by simpa [← List.append_assoc] using hc
      simp [← hbc, List.all_eq_true.1 hd b hb] at hdigit

/-- The longest spelling of a token of the grammar is its name (R77). -/
theorem longestSpelling_tokenText {name : Str} {fam : Family} {ds : List Nat} (e : Endian)
    (hm : (name, fam) ∈ spellings) (hds : ∀ d ∈ ds, d ≤ 9) :
    longestSpelling (tokenText name e ds) = some (name, fam) := by
  refine longestSpelling_eq_some hm ⟨suffixText e ++ ds.map digitChar, by simp [tokenText, digitChar]⟩ ?_
  intro sp' hm' hp'
  have hfront : sp'.1 <+: name ++ suffixText e :=
    prefix_of_prefix_append_digits (spellings_end sp' hm') (all_isDigitChar hds) hp'
  exact spellings_suffix _ hm _ hm' e (by cases e <;> simp) hfront

/-- The parse of a token of the grammar (R77). -/
theorem parseToken_tokenText {name : Str} {fam : Family} {e : Endian} {ds : List Nat}
    (hm : (name, fam) ∈ spellings) (he : e = .bitwise ∨ takesEndian fam = true)
    (hds : ∀ d ∈ ds, d ≤ 9) :
    parseToken (tokenText name e ds) =
      .ok { fam := fam, endian := e,
            len := if ds = [] then none else some (Nat.ofDigits 10 ds.reverse) } := by
  have hdrop : (tokenText name e ds).drop name.length = suffixText e ++ ds.map digitChar := by
    simp [tokenText, digitChar]
  have he' : ¬ (suffixOf e ≠ none ∧ takesEndian fam = false) := by
    rw [ne_eq, suffixOf_eq_none]; simpa [or_iff_not_imp_left] using he
  simp only [parseToken, longestSpelling_tokenText e hm hds, hdrop, endSuffix_digits e hds,
    all_isDigitChar hds, Bool.true_eq_false, if_false, if_neg he', suffixOf_getD,
    List.map_eq_nil_iff, decimalValue_digits hds]

/-- A text that parses is a token of the grammar (R75, R77). -/
theorem parseToken_sound {t : Str} {p : ParsedToken} (h : parseToken t = .ok p) :
    ∃ name e ds, (name, p.fam) ∈ spellings ∧ (e = .bitwise ∨ takesEndian p.fam = true) ∧
      (∀ d ∈ ds, d ≤ 9) ∧ t = tokenText name e ds := by
  unfold parseToken at h
  split at h
  · cases h
  · rename_i name fam hsp
    obtain ⟨hm, r, rfl⟩ := longestSpelling_sound hsp
    rw [List.drop_left] at h
    obtain ⟨e, hsuffix, hr⟩ := endSuffix_sound r
    by_cases hall : (endSuffix r).2.all isDigitChar = false
    · simp [hall] at h
    by_cases he : (endSuffix r).1 ≠ none ∧ takesEndian fam = false
    · simp [hall, he] at h
    simp only [if_neg hall, if_neg he] at h
    cases h
    obtain ⟨ds, hds, htext⟩ := exists_digits (Bool.eq_true_of_not_eq_false hall)
    refine ⟨name, e, ds, hm, ?_, hds, ?_⟩
    · rw [hsuffix, ne_eq, suffixOf_eq_none] at he
      simpa [or_iff_not_imp_left] using he
    · rw [hr, htext]; simp [tokenText, digitChar]

/-- A parse has a qualifier only where its family takes one (R77). -/
theorem parseToken_endian {t : Str} {p : ParsedToken} (h : parseToken t = .ok p) :
    p.endian = .bitwise ∨ takesEndian p.fam = true := by
  obtain ⟨name, e, ds, hm, he, hds, rfl⟩ := parseToken_sound h
  rw [← Except.ok.inj ((parseToken_tokenText hm he hds).symm.trans h)]
  exact he

/-- The only failure of a parse (R79). -/
theorem parseToken_error {t : Str} {k : ErrorKind} (h : parseToken t = .error k) :
    k = .tokenSyntax := by
  unfold parseToken at h
  split at h
  · cases h; rfl
  · simp only at h
    split_ifs at h <;> cases h <;> rfl

/-- The families of R62, as a statement lists them. -/
theorem mem_suffixFamilies_iff {fam : Family} :
    fam ∈ [Family.uint, .int, .float, .bfloat] ↔ takesEndian fam = true := by
  cases fam <;> decide

end Sys2Proof.Machine

/-! ## The statement of the token grammar -/

namespace Sys2Proof.Proofs

open Sys2Proof.Machine

/-- Settles O7: the parse of a token is computed from its three parts, and a text that parses has them. -/
theorem everyTokenOfTheGrammarParses : Obligations.EveryTokenOfTheGrammarParses := by
  refine ⟨fun name fam e ds hm he hds => ?_, fun t ht => ?_⟩
  · exact parseToken_tokenText hm (he.imp_right mem_suffixFamilies_iff.1) hds
  · cases hparse : parseToken t with
    | error k => rw [parseToken_error hparse]
    | ok p =>
      obtain ⟨name, e, ds, hm, he, hds, htext⟩ := parseToken_sound hparse
      exact absurd htext (ht name p.fam e ds hm (he.imp_right mem_suffixFamilies_iff.2) hds)

end Sys2Proof.Proofs

/-! ## Lemmas of the host reader: the request of `read` and its cursor (R78, R81, R236) -/

namespace Sys2Proof.Machine

/-! ### Stage 1 by the table (R92, R93) -/

/-- Stage 1 refuses the lengths of the table, for every operation and family. -/
theorem resolveLen_eq_error_iff (op : Op) (fam : Family) (len : Option Nat) :
    resolveLen op fam len = .error .invalidLength ↔ LengthRefused op fam len := by
  cases len with
  | none => cases op <;> cases fam <;> simp [resolveLen, lenUse, registryRow, LengthRefused]
  | some n =>
    cases op <;> cases fam <;>
      simp [resolveLen, lenUse, registryRow, lenConstraint, LengthRefused, Nat.dvd_iff_mod_eq_zero,
        Nat.pos_iff_ne_zero, and_assoc]

theorem resolveLen_eq_ok_iff (op : Op) (fam : Family) (len : Option Nat) :
    resolveLen op fam len = .ok () ↔ ¬ LengthRefused op fam len := by
  rw [← resolveLen_eq_error_iff]
  rcases resolveLen_cases op fam len with h | h <;> simp [h]

/-! ### From a parse to a request (R78, R80) -/

theorem tokenCommand_ok {op : Op} {p : ParsedToken} (hfits : lenFits p.len = true)
    (hlen : ¬ LengthRefused op p.fam p.len) :
    tokenCommand op p = .ok (BitVec.ofNat 64 (packFields op p.fam p.endian p.len)) := by
  simp [tokenCommand, hfits, (resolveLen_eq_ok_iff _ _ _).2 hlen, bind, Except.bind]

theorem tokenCommand_refused {op : Op} {p : ParsedToken} (hlen : LengthRefused op p.fam p.len) :
    tokenCommand op p = .error .invalidLength := by
  cases hfits : lenFits p.len <;>
    simp [tokenCommand, hfits, (resolveLen_eq_error_iff _ _ _).2 hlen, bind, Except.bind]

/-- The word of a parse decodes to the instruction of its fields, for an operation its family has. -/
theorem exists_instr_of_parse {token : Str} {op : Op} {p : ParsedToken} (hp : parseToken token = .ok p)
    (hfits : lenFits p.len = true) (ho : hasOp op p.fam = true) :
    ∃ i, instrFields i = (op, p.fam, p.endian, p.len) ∧
      decode (BitVec.ofNat 64 (packFields op p.fam p.endian p.len)) = .ok i := by
  obtain ⟨i, hi⟩ := exists_instr p.len (parseToken_endian hp) ho
  exact ⟨i, hi, (decode_eq_ok_iff hi).2 (carries_packFields hfits)⟩

section line
variable {token : Str} {p : ParsedToken} {op : Op} {b : Bits} (r : Request)

/-- A line with a bit sequence for an operation that reads the view (R80). -/
theorem assembleLine_bits {w : CmdWord} (hp : parseToken token = .ok p)
    (hw : tokenCommand op p = .ok w) (hop : op ≠ .enc) :
    assembleLine r op token (.bits b) = some (.ok { r with cmd := w, view := b }) := by
  cases op with
  | enc => exact absurd rfl hop
  | dec | decs | pad => simp [assembleLine, hp, hw, operandFits, withOperand]

theorem assembleLine_error {k : ErrorKind} {x : AsmOperand} (hp : parseToken token = .ok p)
    (hw : tokenCommand op p = .error k) : assembleLine r op token x = some (.error k) := by
  simp [assembleLine, hp, hw]

end line

/-! ### What `read` presents (R81 (c)) -/

theorem mem_expGolomb_iff {fam : Family} :
    fam ∈ [Family.ue, .se, .uie, .sie] ↔ isExpGolomb fam = true := by
  cases fam <;> decide

theorem readOp_eq (fam : Family) :
    readOp fam = if fam ∈ [Family.ue, .se, .uie, .sie] then .decs else .dec := by
  cases fam <;> rfl

/-- An exp-Golomb family takes no suffix, and its DECS needs no length (R62, R92). -/
theorem expGolomb_row {fam : Family} (h : isExpGolomb fam = true) :
    takesEndian fam = false ∧ ¬ LengthRefused .decs fam none := by
  cases fam <;> simp_all [isExpGolomb, takesEndian, LengthRefused]

theorem hasOp_readOp (fam : Family) : hasOp (readOp fam) fam = true := by cases fam <;> rfl

theorem readOp_ne_enc (fam : Family) : readOp fam ≠ .enc := by cases fam <;> decide

/-- The bits `read` presents: all the rest for an exp-Golomb family, else the next n. -/
theorem slice_rest (v : Bits) (a : Nat) : slice v a v.length = v.drop a := by
  rw [slice, List.take_of_length_le (by simp)]

theorem slice_next (v : Bits) (a n : Nat) : slice v a (a + n) = (v.drop a).take n := by
  rw [slice, Nat.add_sub_cancel_left]

section read
variable {token : Str} {p : ParsedToken} {v : Bits} {cursor : Nat} (r : Request)

theorem readRequest_stream (hp : parseToken token = .ok p) (hg : isExpGolomb p.fam = true)
    (hc : cursor ≤ v.length) :
    readRequest r token v cursor =
      assembleLine r (readOp p.fam) token (.bits (v.drop cursor)) := by
  simp [readRequest, hp, hg, hc, readOp, slice_rest]

theorem readRequest_length {n : Nat} (hp : parseToken token = .ok p)
    (hg : isExpGolomb p.fam = false) (hn : p.len = some n) (hc : cursor + n ≤ v.length) :
    readRequest r token v cursor =
      assembleLine r (readOp p.fam) token (.bits ((v.drop cursor).take n)) := by
  simp [readRequest, hp, hg, hn, hc, readOp, slice_next]

/-- Where `read` presents a command, the word decodes to the instruction of the token's fields. -/
theorem readRequest_presents {b : Bits} (hp : parseToken token = .ok p)
    (hfits : lenFits p.len = true) (hlen : ¬ LengthRefused (readOp p.fam) p.fam p.len)
    (hread : readRequest r token v cursor = assembleLine r (readOp p.fam) token (.bits b)) :
    ∃ q i, readRequest r token v cursor = some (.ok q) ∧ q.view = b ∧ decode q.cmd = .ok i ∧
      instrFields i = (readOp p.fam, p.fam, p.endian, p.len) := by
  obtain ⟨i, hi, hd⟩ := exists_instr_of_parse hp hfits (hasOp_readOp p.fam)
  exact ⟨_, i, hread.trans (assembleLine_bits r hp (tokenCommand_ok hfits hlen) (readOp_ne_enc p.fam)),
    rfl, hd, hi⟩

theorem readToken_accepted (hp : parseToken token = .ok p) (hfits : lenFits p.len = true)
    (hlen : ¬ LengthRefused (readOp p.fam) p.fam p.len)
    (hform : isExpGolomb p.fam = true ∨ p.len ≠ none) : readToken token = some p :=
  readToken_eq_some.2 ⟨hp, hform, _, tokenCommand_ok hfits hlen⟩

/-- With a refused length `read` presents no command (log entry 22). -/
theorem readToken_refused (hp : parseToken token = .ok p)
    (hlen : LengthRefused (readOp p.fam) p.fam p.len) : readToken token = none := by
  rw [Option.eq_none_iff_forall_ne_some]
  intro q hq
  obtain ⟨hq, -, w, hw⟩ := readToken_eq_some.1 hq
  cases hp.symm.trans hq
  cases (tokenCommand_refused hlen).symm.trans hw

end read

/-! ### The code at the front of a stream (R232, R235, R236) -/

theorem ueParse_length {v : Bits} {u n : Nat} (h : ueParse v = some (u, n)) :
    0 < n ∧ n ≤ v.length := by
  unfold ueParse at h
  split at h
  · cases h
  · split at h
    · cases h
    · cases h; omega

/-- The loop stops at a position past the one it began at, within the bits. -/
theorem uieLoop_length {x pos : Nat} {v : Bits} {u n : Nat} (h : uieLoop x pos v = some (u, n)) :
    pos < n ∧ n ≤ pos + v.length := by
  induction x, pos, v using uieLoop.induct with
  | case1 | case3 => cases h
  | case2 => cases h; simp
  | case4 x pos b v ih =>
    have := ih h
    simp only [List.length_cons]; omega

theorem uieParse_length {v : Bits} {u n : Nat} (h : uieParse v = some (u, n)) :
    0 < n ∧ n ≤ v.length := by
  simpa using uieLoop_length h

/-- A DECS runs the stream accessor of one of the two parsers (R239, R242, R245, R248). -/
theorem exec_decs {i : Instr} {fam : Family} {e : Endian} {len : Option Nat}
    (hi : instrFields i = (.decs, fam, e, len)) (s : State) :
    ∃ parse g, (parse = ueParse ∨ parse = uieParse) ∧
      exec i s = runDecs fam len s (streamAccess parse g) := by
  cases i <;> cases hi
  case decsUe => exact ⟨_, _, .inl rfl, rfl⟩
  case decsSe => exact ⟨_, _, .inl rfl, rfl⟩
  case decsUie => exact ⟨_, _, .inr rfl, rfl⟩
  case decsSie => exact ⟨_, _, .inr rfl, rfl⟩

theorem streamAccess_length {parse : Bits → Option (Nat × Nat)} {g : Nat → Int} {v : Bits} {x : Value}
    {n : Nat} (hparse : parse = ueParse ∨ parse = uieParse)
    (h : streamAccess parse g v = .ok (x, n)) : 0 < n ∧ n ≤ v.length := by
  unfold streamAccess at h
  split at h
  · cases h
  · rename_i hcode
    cases h
    rcases hparse with rfl | rfl
    · exact ueParse_length hcode
    · exact uieParse_length hcode

/-- Everything a DECS can answer: an error, or a code of at least one bit of the view (R236). -/
theorem exec_decs_cases {i : Instr} {fam : Family} {e : Endian} {len : Option Nat}
    (hi : instrFields i = (.decs, fam, e, len)) (s : State) :
    (∃ k, exec i s = .next (s.raise k)) ∨
      ∃ x n, exec i s = .next (s.answerStream x n) ∧ 0 < n ∧ n ≤ s.req.view.length := by
  obtain ⟨parse, g, hparse, hexec⟩ := exec_decs hi s
  rw [hexec]
  rcases runDecs_cases fam len s (streamAccess parse g) with
    ⟨hrun, -⟩ | ⟨-, ⟨k, -, hrun⟩ | ⟨x, n, hcode, hrun⟩⟩
  · exact .inl ⟨_, hrun⟩
  · exact .inl ⟨k, hrun⟩
  · exact .inr ⟨x, n, hrun, streamAccess_length hparse hcode⟩

/-- After any response the host reads a STATUS (R308). -/
theorem exists_readStatus_respond (s : State) (r : Except ErrorKind Answer) :
    ∃ st, readStatus (s.respond r) = .ok st := by
  rcases r with k | (v | b | ⟨v, n⟩) <;> exact ⟨_, rfl⟩

/-! ### The cursor once the presented command has completed (R81 (c), R236) -/

section cursor
variable {token : Str} {p : ParsedToken} {i : Instr} {s t : State}

/-- The cursor moves over the code a DECS consumed, or stays after a failure (R236, R280). -/
theorem readCursor_of_exec_decs {fam : Family} {e : Endian} {len : Option Nat}
    (htoken : readToken token = some p) (hg : isExpGolomb p.fam = true) (cursor : Nat)
    (hi : instrFields i = (.decs, fam, e, len)) (hexec : exec i s = .next t) :
    (t.rsp.status = 0 → readCursor token cursor t = .ok (cursor + t.rsp.consumed) ∧
      0 < t.rsp.consumed ∧ t.rsp.consumed ≤ s.req.view.length) ∧
    (t.rsp.status ≠ 0 → readCursor token cursor t = .ok cursor) := by
  obtain ⟨hfailed, hpassed⟩ := readCursor_stream htoken hg cursor s
  rcases exec_decs_cases hi s with ⟨k, hrun⟩ | ⟨x, n, hrun, hpos, hle⟩ <;>
    cases hrun.symm.trans hexec
  · exact ⟨fun h => absurd h (errorCode_ne_ok k), fun _ => hfailed k⟩
  · exact ⟨fun _ => ⟨hpassed x n, hpos, hle⟩, fun h => absurd rfl h⟩

/-- The cursor moves past the bits of an explicit length, whatever the command answered (log entry 22). -/
theorem readCursor_of_exec {n : Nat} (htoken : readToken token = some p)
    (hg : isExpGolomb p.fam = false) (hn : p.len = some n) (cursor : Nat)
    (hexec : exec i s = .next t) : readCursor token cursor t = .ok (cursor + n) := by
  obtain ⟨a, -, hrun⟩ := exec_respond i s
  cases hrun.symm.trans hexec
  obtain ⟨st, hst⟩ := exists_readStatus_respond s a
  rw [readCursor_length htoken hg cursor hst, hn, Option.getD_some]

end cursor

end Sys2Proof.Machine

/-! ## The statement of the host reader -/

namespace Sys2Proof.Proofs

open Sys2Proof.Machine

/-- Settles O59: by what `read` presents for the token, and what the presented command can answer. -/
theorem readMovesTheCursorOverOneCode : Obligations.ReadMovesTheCursorOverOneCode := by
  intro r token p v cursor hp
  refine ⟨fun hfam hnone hc => ?_, fun n hfam hn hlt hok hc => ?_, fun n hn hbad hc => ?_⟩
  · have hg := mem_expGolomb_iff.1 hfam
    have hop : readOp p.fam = .decs := by rw [readOp_eq, if_pos hfam]
    obtain ⟨hsuffix, hok⟩ := expGolomb_row hg
    have hend : p.endian = .bitwise := (parseToken_endian hp).resolve_right (by simp [hsuffix])
    have hfits : lenFits p.len = true := by rw [hnone]; rfl
    have hlen : ¬ LengthRefused (readOp p.fam) p.fam p.len := by rwa [hop, hnone]
    have htoken := readToken_accepted hp hfits hlen (.inl hg)
    obtain ⟨q, i, hq, hview, hd, hi⟩ :=
      readRequest_presents r hp hfits hlen (readRequest_stream r hp hg hc)
    rw [hop, hend, hnone] at hi
    refine ⟨q, i, hq, hview, hd, hi, fun s t hb hreq hstep => ?_⟩
    rw [step_exec hb (hreq ▸ hd)] at hstep
    obtain ⟨hok, hfailed⟩ := readCursor_of_exec_decs htoken hg cursor hi hstep
    rw [hreq, hview, List.length_drop] at hok
    refine ⟨fun h => ?_, hfailed⟩
    obtain ⟨hmoves, hpos, hle⟩ := hok h
    exact ⟨hmoves, hpos, by omega⟩
  · have hg : isExpGolomb p.fam = false :=
      Bool.eq_false_of_not_eq_true (mt mem_expGolomb_iff.2 hfam)
    have hop : readOp p.fam = .dec := by rw [readOp_eq, if_neg hfam]
    have hfits : lenFits p.len = true := by rw [hn]; exact decide_eq_true hlt
    have hlen : ¬ LengthRefused (readOp p.fam) p.fam p.len := by rwa [hop, hn]
    have htoken := readToken_accepted hp hfits hlen (.inr (by simp [hn]))
    obtain ⟨q, i, hq, hview, hd, hi⟩ :=
      readRequest_presents r hp hfits hlen (readRequest_length r hp hg hn hc)
    rw [hop, hn] at hi
    refine ⟨q, i, hq, hview, hd, hi, fun s t hb hreq hstep => ?_⟩
    exact readCursor_of_exec htoken hg hn cursor ((step_exec hb (hreq ▸ hd)).symm.trans hstep)
  · rw [← readOp_eq, ← hn] at hbad
    refine ⟨?_, readCursor_refused (readToken_refused hp hbad) cursor⟩
    have hline : ∀ x, assembleLine r (readOp p.fam) token x = some (.error .invalidLength) :=
      fun x => assembleLine_error r hp (tokenCommand_refused hbad)
    cases hg : isExpGolomb p.fam with
    | true => rw [readRequest_stream r hp hg (by omega), hline]
    | false => rw [readRequest_length r hp hg hn hc, hline]

end Sys2Proof.Proofs

/-! ## Lemmas of the length rule: what each stage of a command can fail with (R93, R100, R277) -/

namespace Sys2Proof.Machine

/-! ### The kinds of stage 2 (R277) -/

/-- A check or codec fails, if at all, with one of the kinds listed. -/
def FailsOnlyWith {α : Type} (ks : List ErrorKind) (x : Except ErrorKind α) : Prop :=
  ∀ k, x = .error k → k ∈ ks

/-- The kinds of an instruction's row of R277 but InvalidLength, which is the kind of stage 1. -/
def stageTwoKinds (op : Op) (fam : Family) (e : Endian) : List ErrorKind :=
  (mayAnswer op fam e).filter (· ≠ .invalidLength)

theorem invalidLength_not_mem_stageTwoKinds (op : Op) (fam : Family) (e : Endian) :
    .invalidLength ∉ stageTwoKinds op fam e := by
  simp [stageTwoKinds]

/-- Every DEC may answer InterpretError. -/
theorem interpret_mem_stageTwoKinds (fam : Family) (e : Endian) :
    .interpret ∈ stageTwoKinds .dec fam e := by
  cases fam <;> cases e <;> decide

section failsOnlyWith
variable {α β : Type} {ks : List ErrorKind}

@[simp] theorem failsOnlyWith_ok (a : α) : FailsOnlyWith ks (.ok a) := nofun

@[simp] theorem failsOnlyWith_error {k : ErrorKind} :
    FailsOnlyWith ks (.error k : Except ErrorKind α) ↔ k ∈ ks := by simp [FailsOnlyWith]

theorem FailsOnlyWith.bind {x : Except ErrorKind α} {f : α → Except ErrorKind β}
    (hx : FailsOnlyWith ks x) (hf : ∀ a, FailsOnlyWith ks (f a)) : FailsOnlyWith ks (x >>= f) := by
  cases x with
  | error k => simpa [Bind.bind, Except.bind] using hx
  | ok a => exact hf a

theorem FailsOnlyWith.ite {p : Prop} [Decidable p] {x y : Except ErrorKind α}
    (hx : FailsOnlyWith ks x) (hy : FailsOnlyWith ks y) :
    FailsOnlyWith ks (if p then x else y) := by
  split <;> assumption

end failsOnlyWith

/-! ### The kinds of each codec -/

section codecs
variable (e : Endian) (h : ByteOrder) (len : Option Nat) (v : Bits)

theorem viewAgrees_fails (fam : Family) : FailsOnlyWith [.interpret] (viewAgrees fam len v) := by
  rcases viewAgrees_cases fam len v with h | h <;> simp [h]

/-- An integer field fails with ValueError for a part of a byte, which a bit-wise field never does. -/
theorem integerField_fails : FailsOnlyWith [.interpret, .value] (integerField e h v) := by
  rw [integerField_eq]; exact .ite (by simp) (.ite (by simp) (by simp))

theorem integerField_bitwise_fails : FailsOnlyWith [.interpret] (integerField .bitwise h v) := by
  rw [integerField_eq]; exact .ite (by simp) (by simp)

@[simp] theorem decodeUint_fails : FailsOnlyWith [.interpret, .value] (decodeUint e h v) :=
  .bind (integerField_fails e h v) fun _ => failsOnlyWith_ok _

@[simp] theorem decodeUint_bitwise_fails : FailsOnlyWith [.interpret] (decodeUint .bitwise h v) :=
  .bind (integerField_bitwise_fails h v) fun _ => failsOnlyWith_ok _

@[simp] theorem decodeInt_fails : FailsOnlyWith [.interpret, .value] (decodeInt e h v) :=
  .bind (integerField_fails e h v) fun _ => failsOnlyWith_ok _

@[simp] theorem decodeInt_bitwise_fails : FailsOnlyWith [.interpret] (decodeInt .bitwise h v) :=
  .bind (integerField_bitwise_fails h v) fun _ => failsOnlyWith_ok _

theorem wholeBytes_fails (n : Nat) : FailsOnlyWith [.value] (wholeBytes e n) := by
  rw [wholeBytes_eq]; exact .ite (by simp) (by simp)

@[simp] theorem encodeUint_fails (x : Int) : FailsOnlyWith [.value] (encodeUint e h len x) :=
  .bind (wholeBytes_fails e _) fun _ => .ite (by simp) (by simp)

@[simp] theorem encodeInt_fails (x : Int) : FailsOnlyWith [.value] (encodeInt e h len x) :=
  .bind (wholeBytes_fails e _) fun _ => .ite (by simp) (.ite (by simp) (by simp))

@[simp] theorem decodeFloat_fails : FailsOnlyWith [.interpret] (decodeFloat e h v) :=
  .ite (by simp) (by simp)

@[simp] theorem encodeFloat_fails (d : Flt64) :
    FailsOnlyWith [.value] (encodeFloat e h len d) := by
  unfold encodeFloat; split <;> simp

@[simp] theorem decodeHex_fails : FailsOnlyWith [.interpret] (decodeHex v) :=
  .ite (by simp) (by simp)

@[simp] theorem decodeOct_fails : FailsOnlyWith [.interpret] (decodeOct v) :=
  .ite (by simp) (by simp)

@[simp] theorem decodeBytes_fails : FailsOnlyWith [.interpret, .value] (decodeBytes v) :=
  .ite (by simp) (by simp)

theorem encodeDigits_fails (w : Nat) (val : Byte → Option Nat) (s : Str) :
    FailsOnlyWith [.value] (encodeDigits w val len s) := by
  rw [encodeDigits_eq]
  cases digitValues val s with
  | none => simp
  | some xs => exact .ite (by simp) (by simp)

@[simp] theorem encodeBin_fails (s : Str) : FailsOnlyWith [.value] (encodeBin len s) :=
  encodeDigits_fails len _ _ s

@[simp] theorem encodeHex_fails (s : Str) : FailsOnlyWith [.value] (encodeHex len s) :=
  encodeDigits_fails len _ _ s

@[simp] theorem encodeOct_fails (s : Str) : FailsOnlyWith [.value] (encodeOct len s) :=
  encodeDigits_fails len _ _ s

@[simp] theorem encodeBytes_fails (b : List Byte) : FailsOnlyWith [.value] (encodeBytes len b) := by
  rw [encodeBytes_eq]; exact .ite (by simp) (by simp)

@[simp] theorem exactAccess_fails (parse : Bits → Option (Nat × Nat)) (g : Nat → Int) :
    FailsOnlyWith [.interpret] (exactAccess parse g v) := by
  unfold exactAccess
  cases parse v with
  | none => simp
  | some r => exact .ite (by simp) (by simp)

@[simp] theorem streamAccess_fails (parse : Bits → Option (Nat × Nat)) (g : Nat → Int) :
    FailsOnlyWith [.interpret] (streamAccess parse g v) := by
  unfold streamAccess; cases parse v <;> simp

@[simp] theorem encodeUnsignedCode_fails (write : Nat → Bits) (n : Int) :
    FailsOnlyWith [.value] (encodeUnsignedCode write n) := .ite (by simp) (by simp)

/-! The codecs that never fail: any bits are a string of binary digits, the exotic floats saturate, and
every integer has a signed code. -/

variable {ks : List ErrorKind}

@[simp] theorem decodeBin_fails : FailsOnlyWith ks (decodeBin v) := failsOnlyWith_ok _

@[simp] theorem decodeBfloat_fails : FailsOnlyWith ks (decodeBfloat e h v) := failsOnlyWith_ok _

@[simp] theorem encodeBfloat_fails (d : Flt64) : FailsOnlyWith ks (encodeBfloat e h d) :=
  failsOnlyWith_ok _

@[simp] theorem decodeMini_fails (F : MiniFormat) : FailsOnlyWith ks (decodeMini F v) :=
  failsOnlyWith_ok _

@[simp] theorem encodeMini_fails (F : MiniFormat) (d : Flt64) : FailsOnlyWith ks (encodeMini F d) :=
  failsOnlyWith_ok _

@[simp] theorem encodeSignedCode_fails (write : Nat → Bits) (n : Int) :
    FailsOnlyWith ks (encodeSignedCode write n) := failsOnlyWith_ok _

end codecs

/-! ### A command is stage 1, then stage 2 (R100) -/

/-- What a command answers, stage by stage: InvalidLength for a length the table refuses, else the
outcome of stage 2, which fails with its own kinds only. -/
def AnswersInStages (op : Op) (fam : Family) (e : Endian) (len : Option Nat) (s : State)
    (o : StepOutcome) : Prop :=
  (LengthRefused op fam len ∧ o = .next (s.raise .invalidLength)) ∨
  (¬ LengthRefused op fam len ∧
    ∃ r, FailsOnlyWith (stageTwoKinds op fam e) r ∧ o = .next (s.respond r))

section shapes
variable {op : Op} {fam : Family} {e : Endian} {len : Option Nat} {s : State}

/-- Whatever follows stage 1 is reached only when the table accepts the length. -/
theorem answersInStages_of_resolveLen {f : Unit → Except ErrorKind Answer}
    (hf : FailsOnlyWith (stageTwoKinds op fam e) (f ())) :
    AnswersInStages op fam e len s (.next (s.respond (resolveLen op fam len >>= f))) := by
  by_cases hlen : LengthRefused op fam len
  · rw [(resolveLen_eq_error_iff op fam len).2 hlen]
    exact .inl ⟨hlen, rfl⟩
  · rw [(resolveLen_eq_ok_iff op fam len).2 hlen]
    exact .inr ⟨hlen, f (), hf, rfl⟩

theorem runDec_answersInStages {codec : Bits → Except ErrorKind Value}
    (hcodec : ∀ v, FailsOnlyWith (stageTwoKinds .dec fam e) (codec v)) :
    AnswersInStages .dec fam e len s (runDec fam len s codec) := by
  have hview : FailsOnlyWith (stageTwoKinds .dec fam e) (viewAgrees fam len s.req.view) :=
    fun k hk => List.mem_singleton.1 (viewAgrees_fails len _ fam k hk) ▸
      interpret_mem_stageTwoKinds fam e
  exact answersInStages_of_resolveLen <|
    hview.bind fun _ => (hcodec _).bind fun _ => failsOnlyWith_ok _

theorem runEnc_answersInStages {codec : Operand → Except ErrorKind Bits}
    (hcodec : ∀ x, FailsOnlyWith (stageTwoKinds .enc fam e) (codec x)) :
    AnswersInStages .enc fam e len s (runEnc fam len s codec) :=
  answersInStages_of_resolveLen <| (hcodec _).bind fun _ => failsOnlyWith_ok _

theorem runDecs_answersInStages {codec : Bits → Except ErrorKind (Value × Nat)}
    (hcodec : ∀ v, FailsOnlyWith (stageTwoKinds .decs fam e) (codec v)) :
    AnswersInStages .decs fam e len s (runDecs fam len s codec) :=
  answersInStages_of_resolveLen <| (hcodec _).bind fun _ => failsOnlyWith_ok _

theorem runPad_answersInStages {codec : Bits → Value} :
    AnswersInStages .pad fam e len s (runPad fam len s codec) :=
  answersInStages_of_resolveLen (failsOnlyWith_ok _)

end shapes

/-- Every instruction answers stage by stage, by its shape and the kinds of its codec. -/
theorem exec_answersInStages (i : Instr) (s : State) :
    AnswersInStages (instrFields i).1 (instrFields i).2.1 (instrFields i).2.2.1
      (instrFields i).2.2.2 s (exec i s) := by
  cases i with
  | decBin | decHex | decOct | decUint | decUintbe | decUintle | decUintne | decInt | decIntbe
  | decIntle | decIntne | decFloat | decFloatbe | decFloatle | decFloatne | decBfloat | decBfloatbe
  | decBfloatle | decBfloatne | decE4m3float | decE5m2float | decBytes | decUe | decSe | decUie
  | decSie =>
    exact runDec_answersInStages (by simp [instrFields, stageTwoKinds, mayAnswer])
  | encBin | encHex | encOct | encUint | encUintbe | encUintle | encUintne | encInt | encIntbe
  | encIntle | encIntne | encFloat | encFloatbe | encFloatle | encFloatne | encBfloat | encBfloatbe
  | encBfloatle | encBfloatne | encE4m3float | encE5m2float | encBytes | encUe | encSe | encUie
  | encSie =>
    simp only [exec]; exact runEnc_answersInStages (by simp [instrFields, stageTwoKinds, mayAnswer])
  | decsUe | decsSe | decsUie | decsSie =>
    exact runDecs_answersInStages (by simp [stageTwoKinds, mayAnswer])
  | padBytes => exact runPad_answersInStages

/-- STATUS is the code of a kind exactly when the outcome is that error (R270, R280). -/
theorem respond_status_eq_errorCode_iff (s : State) (r : Except ErrorKind Answer) (k : ErrorKind) :
    (s.respond r).rsp.status = errorCode k ↔ r = .error k := by
  rcases r with k' | (v | b | ⟨v, n⟩) <;>
    simp [errorCode_injective.eq_iff, (errorCode_ne_ok k).symm]

end Sys2Proof.Machine

/-! ## The statement of the length rule -/

namespace Sys2Proof.Proofs

open Sys2Proof.Machine

/-- Settles O15: stage 1 refuses exactly the lengths of the table, and stage 2 never answers
InvalidLength. -/
theorem invalidLengthExactlyWhenTheLengthRuleFails :
    Obligations.InvalidLengthExactlyWhenTheLengthRuleFails := by
  intro i s
  obtain ⟨hlen, hexec⟩ | ⟨hlen, r, hr, hexec⟩ := exec_answersInStages i s
  · exact ⟨_, hexec, fun _ => hlen, fun _ => rfl⟩
  · refine ⟨_, hexec, fun hstatus => ?_, fun h => absurd h hlen⟩
    have hstage2 := hr _ ((respond_status_eq_errorCode_iff s r _).1 hstatus)
    exact absurd hstage2 (invalidLength_not_mem_stageTwoKinds _ _ _)

end Sys2Proof.Proofs

/-! ## Lemmas of the string statements: digits, groups and the string commands (R92 to R118) -/

namespace Sys2Proof.Machine

/-! ### The words of a row (R60, R67) -/

/-- The words of an instruction are the packed fields of its row. -/
theorem hasWords_of_instrFields {i : Option Nat → Instr} {op : Op} {fam : Family} {e : Endian} {m : Nat}
    (hi : ∀ len, instrFields (i len) = (op, fam, e, len)) (hm : packFields op fam e none = m) :
    HasWords i m := by
  subst hm
  refine ⟨encode_eq (hi none), fun n _ => ?_⟩
  rw [encode_eq (hi (some n))]
  simp [packFields, Nat.add_assoc]

theorem answersValue_answerValue (s : State) (v : Value) :
    AnswersValue s (.next (s.answerValue v)) v :=
  ⟨_, rfl, rfl, rfl, rfl, rfl, rfl, rfl⟩

theorem answersBits_answerBits (s : State) (b : Bits) : AnswersBits s (.next (s.answerBits b)) b :=
  ⟨_, rfl, rfl, rfl, rfl, rfl, rfl, rfl⟩

/-! What an answer says of the state it leads to. -/

theorem AnswersError.status_ne_zero {s t : State} {k : ErrorKind} (h : AnswersError s (.next t) k) :
    t.rsp.status ≠ 0 := by
  obtain ⟨_, ht, hstatus, -⟩ := h
  cases ht
  exact hstatus ▸ errorCode_ne_ok k

theorem AnswersValue.rval_eq {s t : State} {v : Value} (h : AnswersValue s (.next t) v) :
    t.rsp.rval = v := by
  obtain ⟨_, ht, -, -, hrval, -⟩ := h
  cases ht
  exact hrval

theorem AnswersBits.res_eq {s t : State} {b : Bits} (h : AnswersBits s (.next t) b) :
    t.rsp.res = b := by
  obtain ⟨_, ht, -, -, hres, -⟩ := h
  cases ht
  exact hres

/-! ### Digits (R111) -/

theorem digit_toNat {x : Nat} (h : x < 16) :
    (digit x).toNat = if x ≤ 9 then 0x30 + x else 0x61 + (x - 10) := by
  unfold digit; split <;> simp <;> omega

theorem hexAlphabet_getElem? : ∀ x < 16, hexAlphabet[x]? = some (digit x) := by decide

theorem val16_eq_some_iff {c : Byte} {x : Nat} : val16 c = some x ↔ HexDigit c x := by
  unfold val16 HexDigit
  split_ifs <;> simp <;> omega

theorem val8_eq_some_iff {c : Byte} {x : Nat} : val8 c = some x ↔ OctDigit c x := by
  unfold val8 OctDigit
  split <;> simp <;> omega

theorem val2_eq_some_iff {c : Byte} {x : Nat} :
    val2 c = some x ↔ (x = 0 ∧ c = 0x30) ∨ (x = 1 ∧ c = 0x31) := by
  unfold val2
  simp only [← BitVec.toNat_inj]
  split <;> simp <;> omega

/-- The character a hex decode writes for a hex digit: the letters A to F lowered (R118). -/
def lowered (c : Byte) : Byte := if 0x41 ≤ c.toNat ∧ c.toNat ≤ 0x46 then c + 0x20 else c

theorem digit_of_hexDigit {c : Byte} {x : Nat} (h : HexDigit c x) : digit x = lowered c := by
  have hx : x < 16 := by rcases h with h | h | h <;> omega
  apply BitVec.eq_of_toNat_eq
  rw [digit_toNat hx, lowered]
  rcases h with ⟨hle, hc⟩ | ⟨hge, hle, hc⟩ | ⟨hge, hle, hc⟩
  · rw [if_pos hle, if_neg (by omega), hc]
  · rw [if_neg (by omega), if_neg (by omega), hc]
  · rw [if_neg (by omega), if_pos (by omega), BitVec.toNat_add, hc]
    simp; omega

theorem digit_of_octDigit {c : Byte} {x : Nat} (h : OctDigit c x) : digit x = c := by
  obtain ⟨hle, hc⟩ := h
  apply BitVec.eq_of_toNat_eq
  rw [digit_toNat (by omega), if_pos (by omega), hc]

/-- A string of digits has values (R113, R115, R117). -/
theorem exists_digitValues {val : Byte → Option Nat} {S : Str} (h : ∀ c ∈ S, ∃ x, val c = some x) :
    ∃ xs, digitValues val S = some xs := by
  refine Option.ne_none_iff_exists'.1 fun hnone => ?_
  obtain ⟨c, hc, hval⟩ := digitValues_eq_none.1 hnone
  obtain ⟨x, hx⟩ := h c hc
  simp [hx] at hval

/-- Value j of a string is the value of character j. -/
theorem digitValues_getElem? {val : Byte → Option Nat} {S : Str} {xs : List Nat}
    (h : digitValues val S = some xs) (j : Nat) : xs[j]?.map some = S[j]?.map val := by
  rw [← List.getElem?_map, ← List.getElem?_map, digitValues_eq_some.1 h]

theorem digitValues_length {val : Byte → Option Nat} {S : Str} {xs : List Nat}
    (h : digitValues val S = some xs) : xs.length = S.length := by
  simpa using (congrArg List.length (digitValues_eq_some.1 h)).symm

/-- A property of every digit's value is one of every value of a string. -/
theorem forall_mem_digitValues {val : Byte → Option Nat} {S : Str} {xs : List Nat} {P : Nat → Prop}
    (h : digitValues val S = some xs) (hP : ∀ c x, val c = some x → P x) : ∀ x ∈ xs, P x := by
  intro x hx
  have hmem : some x ∈ S.map val := digitValues_eq_some.1 h ▸ List.mem_map_of_mem hx
  obtain ⟨c, -, hc⟩ := List.mem_map.1 hmem
  exact hP c x hc

/-- Writing the values of a string as digits again gives each character its canonical form. -/
theorem map_digit_digitValues {val : Byte → Option Nat} {canon : Byte → Byte} {S : Str} {xs : List Nat}
    (h : digitValues val S = some xs) (hcanon : ∀ c x, val c = some x → digit x = canon c) :
    xs.map digit = S.map canon := by
  induction S generalizing xs with
  | nil => cases xs <;> simp [digitValues] at h ⊢
  | cons c S ih =>
    rw [digitValues_eq_some] at h
    cases xs with
    | nil => simp at h
    | cons x xs =>
      simp only [List.map_cons, List.cons.injEq] at h ⊢
      exact ⟨hcanon c x h.1, ih (digitValues_eq_some.2 h.2)⟩

/-! ### Strings of digits of w bits (R114 to R117) -/

/-- The bits a string encoder writes for the values of its digits, w bits each. -/
def digitBits (w : Nat) (xs : List Nat) : Bits := (xs.map (toBits w)).flatten

theorem length_of_mem_map_toBits {w : Nat} {xs : List Nat} : ∀ g ∈ xs.map (toBits w), g.length = w := by
  simp

@[simp] theorem digitBits_length (w : Nat) (xs : List Nat) : (digitBits w xs).length = w * xs.length := by
  rw [digitBits, length_flatten_of_width length_of_mem_map_toBits, List.length_map]

@[simp] theorem digitString_length (w : Nat) (v : Bits) : (digitString w v).length = v.length / w := by
  simp [digitString]

theorem bigValue_groupAt_digitBits {w j x : Nat} {xs : List Nat} (hj : xs[j]? = some x)
    (hx : x < 2 ^ w) : bigValue (groupAt w j (digitBits w xs)) = x := by
  obtain ⟨hlt, rfl⟩ := List.getElem?_eq_some_iff.1 hj
  rw [digitBits, groupAt_flatten length_of_mem_map_toBits (by simpa using hlt), List.getElem_map,
    ← mag_eq_bigValue, mag_toBits hx]

theorem digitString_getElem? {w j : Nat} {v : Bits} (h : j < (digitString w v).length) :
    (digitString w v)[j]? = some (digit (bigValue (groupAt w j v))) := by
  rw [List.getElem?_eq_getElem h]
  simp [digitString, groups_getElem, mag_eq_bigValue]

/-- Reading the groups of a written string gives its digits back. -/
theorem digitString_digitBits {w : Nat} {xs : List Nat} (hw : 0 < w) (hxs : ∀ x ∈ xs, x < 2 ^ w) :
    digitString w (digitBits w xs) = xs.map digit := by
  rw [digitString, digitBits, groups_flatten hw length_of_mem_map_toBits, List.map_map]
  exact List.map_congr_left fun x hx => congrArg digit (mag_toBits (hxs x hx))

/-- Writing the magnitudes of the groups of a sequence gives the sequence back. -/
theorem digitBits_mag_groups {w : Nat} {v : Bits} (hv : v.length % w = 0) :
    digitBits w ((groups w v).map mag) = v := by
  have hgroup : ∀ g ∈ groups w v, toBits w (mag g) = g := fun g hg => by
    rw [← groups_width hg, toBits_mag]
  rw [digitBits, List.map_map, List.map_congr_left (g := id) (by simpa using hgroup), List.map_id,
    flatten_groups hv]

/-- The values of a decoded string are the magnitudes of the groups. -/
theorem digitValues_digitString {w : Nat} {val : Byte → Option Nat}
    (hval : ∀ x < 2 ^ w, val (digit x) = some x) (v : Bits) :
    digitValues val (digitString w v) = some ((groups w v).map mag) := by
  rw [digitValues_eq_some, digitString, List.map_map, List.map_map]
  refine List.map_congr_left fun g hg => hval _ ?_
  rw [← groups_width hg]
  exact mag_lt g

/-! ### Digits of one bit (R112, R113) -/

/-- With one bit a digit, the values of the bits are written as the bits. -/
theorem digitBits_one (v : Bits) : digitBits 1 (v.map Bool.toNat) = v := by
  induction v with
  | nil => rfl
  | cons b v ih =>
    have hb : toBits 1 b.toNat = [b] := by cases b <;> rfl
    simpa [digitBits, hb] using ih

/-- With one bit a digit, a sequence is read bit by bit. -/
theorem digitString_one (v : Bits) : digitString 1 v = v.map fun b => digit b.toNat := by
  have hbits : ∀ x ∈ v.map Bool.toNat, x < 2 ^ 1 := by
    rw [List.forall_mem_map]
    exact fun b _ => b.toNat_lt
  have h := digitString_digitBits Nat.one_pos hbits
  rwa [digitBits_one, List.map_map] at h

/-- The values of a string of 0 and 1. -/
theorem digitValues_val2 {S : Str} (h : ∀ c ∈ S, c = 0x30 ∨ c = 0x31) :
    digitValues val2 S = some ((S.map (· == 0x31)).map Bool.toNat) := by
  rw [digitValues_eq_some, List.map_map, List.map_map]
  refine List.map_congr_left fun c hc => ?_
  obtain rfl | rfl := h c hc <;> rfl

/-! ### The commands of the three string families (R92, R96, R112 to R117) -/

/-- A string decoder of w bits a digit (R112, R114, R116). -/
def decodeDigits (w : Nat) (v : Bits) : Except ErrorKind Value :=
  if v.length % w ≠ 0 then .error .interpret else .ok (.str (digitString w v))

theorem decodeBin_eq_decodeDigits : decodeBin = decodeDigits 1 := by
  funext v
  rw [decodeDigits, if_neg (by simp [Nat.mod_one]), digitString_one, decodeBin]

/-- What the three string families share: a digit has w bits, an explicit length is a number of whole
digits, and DEC and ENC are the string converters of that width. -/
structure StringFamily (fam : Family) (w : Nat) (val : Byte → Option Nat)
    (dec enc : Option Nat → Instr) : Prop where
  pos : 0 < w := by decide
  le_four : w ≤ 4 := by decide
  lenUse_dec : lenUse .dec fam = .opt := by rfl
  lenUse_enc : lenUse .enc fam = .opt := by rfl
  lenConstraint_iff : ∀ n, lenConstraint fam n = true ↔ n % w = 0
  fixedLen_eq : fixedLen fam = none := by rfl
  exec_dec : ∀ len s, exec (dec len) s = runDec fam len s (decodeDigits w)
  exec_enc : ∀ len s, exec (enc len) s = runEnc fam len s fun x => encodeDigits w val len x.str
  val_digit : ∀ x < 2 ^ w, val (digit x) = some x := by decide
  val_lt : ∀ c x, val c = some x → x < 2 ^ w

theorem stringFamily_bin : StringFamily .bin 1 val2 .decBin .encBin where
  lenConstraint_iff n := by simp [lenConstraint, Nat.mod_one]
  exec_dec len s := decodeBin_eq_decodeDigits ▸ rfl
  exec_enc _ _ := rfl
  val_lt c x h := by obtain ⟨rfl, -⟩ | ⟨rfl, -⟩ := val2_eq_some_iff.1 h <;> decide

theorem stringFamily_oct : StringFamily .oct 3 val8 .decOct .encOct where
  lenConstraint_iff n := by simp [lenConstraint]
  exec_dec _ _ := rfl
  exec_enc _ _ := rfl
  val_lt c x h := by obtain ⟨hx, -⟩ := val8_eq_some_iff.1 h; omega

theorem stringFamily_hex : StringFamily .hex 4 val16 .decHex .encHex where
  lenConstraint_iff n := by simp [lenConstraint]
  exec_dec _ _ := rfl
  exec_enc _ _ := rfl
  val_lt c x h := by rcases val16_eq_some_iff.1 h with hx | hx | hx <;> omega

/-- An explicit length, if any, is one of whole digits of w bits (R92). -/
def WholeDigits (w : Nat) (len : Option Nat) : Prop := ∀ n, len = some n → n % w = 0

theorem wholeDigits_none (w : Nat) : WholeDigits w none := fun _ h => nomatch h

theorem wholeDigits_of_lenFor {w n : Nat} {len : Option Nat} (h : LenFor len n) (hn : n % w = 0) :
    WholeDigits w len := by
  rintro m rfl
  obtain h | h := h
  · nomatch h
  · rwa [Option.some.inj h]

namespace StringFamily

variable {fam : Family} {w : Nat} {val : Byte → Option Nat} {dec enc : Option Nat → Instr}
  {len : Option Nat} {s : State}

/-- Stage 1 accepts the lengths of whole digits (R93). -/
theorem resolveLen_ok (F : StringFamily fam w val dec enc) {op : Op} (hop : lenUse op fam = .opt)
    (h : WholeDigits w len) : resolveLen op fam len = .ok () := by
  cases len with
  | none => simp [resolveLen_none, hop]
  | some n => simp [resolveLen_some, hop, F.lenConstraint_iff, h n rfl]

/-- Stage 1 refuses any other length (R93). -/
theorem resolveLen_error (F : StringFamily fam w val dec enc) {op : Op} {n : Nat} (h : n % w ≠ 0) :
    resolveLen op fam (some n) = .error .invalidLength := by
  simp [resolveLen_some, F.lenConstraint_iff, h]

theorem dec_invalidLength (F : StringFamily fam w val dec enc) {n : Nat} (h : n % w ≠ 0) (s : State) :
    AnswersError s (exec (dec (some n)) s) .invalidLength := by
  rw [F.exec_dec, runDec_invalid _ _ _ (F.resolveLen_error h)]
  exact answersError_raise s _

/-- DEC of a view that agrees answers the string of its digits (R112, R114, R116). -/
theorem dec_answers (F : StringFamily fam w val dec enc) (hview : s.req.view.length % w = 0)
    (hlen : LenFor len s.req.view.length) :
    AnswersValue s (exec (dec len) s) (.str (digitString w s.req.view)) := by
  have hstage1 := F.resolveLen_ok F.lenUse_dec (wholeDigits_of_lenFor hlen hview)
  have hagrees : viewAgrees fam len s.req.view = .ok () := by
    rw [viewAgrees_eq, if_pos ⟨hlen, .inl F.fixedLen_eq⟩]
  rw [F.exec_dec, runDec_eq _ _ _ hstage1 hagrees, decodeDigits, if_neg (not_not.2 hview)]
  exact answersValue_answerValue s _

/-- DEC of a view of another length answers InterpretError (R96). -/
theorem dec_disagrees (F : StringFamily fam w val dec enc) (hwhole : WholeDigits w len)
    (hlen : ¬ LenFor len s.req.view.length) : AnswersError s (exec (dec len) s) .interpret := by
  have hdisagrees : viewAgrees fam len s.req.view = .error .interpret := by
    rw [viewAgrees_eq, if_neg fun h => hlen h.1]
  rw [F.exec_dec, runDec_disagree _ _ _ (F.resolveLen_ok F.lenUse_dec hwhole) hdisagrees]
  exact answersError_raise s _

/-- DEC of a view with a part of a digit answers InterpretError (R114, R116). -/
theorem dec_partialDigit (F : StringFamily fam w val dec enc) (hview : s.req.view.length % w ≠ 0) :
    AnswersError s (exec (dec none) s) .interpret := by
  have hagrees : viewAgrees fam none s.req.view = .ok () := by
    rw [viewAgrees_eq, if_pos ⟨.inl rfl, .inl F.fixedLen_eq⟩]
  rw [F.exec_dec, runDec_eq _ _ _ (F.resolveLen_ok F.lenUse_dec (wholeDigits_none w)) hagrees,
    decodeDigits, if_pos hview]
  exact answersError_raise s _

theorem enc_invalidLength (F : StringFamily fam w val dec enc) {n : Nat} (h : n % w ≠ 0) (s : State) :
    AnswersError s (exec (enc (some n)) s) .invalidLength := by
  rw [F.exec_enc, runEnc_invalid _ _ _ (F.resolveLen_error h)]
  exact answersError_raise s _

/-- ENC of a string of digits whose length agrees answers their bits (R113, R115, R117). -/
theorem enc_answers (F : StringFamily fam w val dec enc) {xs : List Nat}
    (hxs : digitValues val s.req.val.str = some xs) (hlen : LenFor len (w * s.req.val.str.length)) :
    AnswersBits s (exec (enc len) s) (digitBits w xs) := by
  have hstage1 := F.resolveLen_ok F.lenUse_enc (wholeDigits_of_lenFor hlen (Nat.mul_mod_right w _))
  have hcodec : encodeDigits w val len s.req.val.str = .ok (digitBits w xs) := by
    rw [encodeDigits_eq, hxs]; exact if_pos hlen
  rw [F.exec_enc, runEnc_eq _ _ _ hstage1, hcodec]
  exact answersBits_answerBits s _

/-- ENC whose codec fails answers ValueError. -/
theorem enc_valueError (F : StringFamily fam w val dec enc) (hwhole : WholeDigits w len)
    (hcodec : encodeDigits w val len s.req.val.str = .error .value) :
    AnswersError s (exec (enc len) s) .value := by
  rw [F.exec_enc, runEnc_eq _ _ _ (F.resolveLen_ok F.lenUse_enc hwhole), hcodec]
  exact answersError_raise s _

/-- ENC of a string with a bad character answers ValueError (R113, R115, R117). -/
theorem enc_badDigit (F : StringFamily fam w val dec enc) (hwhole : WholeDigits w len)
    (hbad : ∃ c ∈ s.req.val.str, val c = none) : AnswersError s (exec (enc len) s) .value :=
  F.enc_valueError hwhole (by rw [encodeDigits_eq, digitValues_eq_none.2 hbad])

/-- ENC of a string of digits of another length answers ValueError (R96). -/
theorem enc_disagrees (F : StringFamily fam w val dec enc) (hwhole : WholeDigits w len) {xs : List Nat}
    (hxs : digitValues val s.req.val.str = some xs)
    (hlen : ¬ LenFor len (w * s.req.val.str.length)) : AnswersError s (exec (enc len) s) .value :=
  F.enc_valueError hwhole (by rw [encodeDigits_eq, hxs]; exact if_neg hlen)

/-! ### What DEC reads and ENC writes, digit by digit (R114 to R117) -/

/-- Every clause of a string decoder of w bits a digit: the digits of the groups, and the three
failures told apart. -/
theorem dec_reads (F : StringFamily fam w val dec enc) (s : State) (len : Option Nat) :
    (s.req.view.length % w = 0 → LenFor len s.req.view.length →
      ∃ S : Str, AnswersValue s (exec (dec len) s) (.str S) ∧ w * S.length = s.req.view.length ∧
        ∀ j, j < S.length → S[j]? = hexAlphabet[bigValue (groupAt w j s.req.view)]?) ∧
    (∀ n, len = some n → n % w ≠ 0 → AnswersError s (exec (dec len) s) .invalidLength) ∧
    (∀ n, len = some n → n % w = 0 → n ≠ s.req.view.length →
      AnswersError s (exec (dec len) s) .interpret) ∧
    (len = none → s.req.view.length % w ≠ 0 → AnswersError s (exec (dec len) s) .interpret) := by
  refine ⟨fun hview hlen => ⟨_, F.dec_answers hview hlen, ?_, fun j hj => ?_⟩, ?_, ?_, ?_⟩
  · rw [digitString_length, Nat.mul_div_cancel' (Nat.dvd_of_mod_eq_zero hview)]
  · have hgroup : bigValue (groupAt w j s.req.view) < 2 ^ 4 := by
      rw [← mag_eq_bigValue]
      exact (mag_lt _).trans_le
        (Nat.pow_le_pow_right Nat.two_pos ((List.length_take_le _ _).trans F.le_four))
    rw [digitString_getElem? hj, hexAlphabet_getElem? _ hgroup]
  · rintro n rfl hn
    exact F.dec_invalidLength hn s
  · rintro n rfl hn hne
    refine F.dec_disagrees (fun m hm => Option.some.inj hm ▸ hn) ?_
    simpa [LenFor] using hne
  · rintro rfl hview
    exact F.dec_partialDigit hview

/-- Every clause of a string encoder of w bits a digit, for the reading `Digit` of its digits: the bits
of each digit, and the failures in the order of R100. -/
theorem enc_writes (F : StringFamily fam w val dec enc) {Digit : Byte → Nat → Prop}
    (hval : ∀ c x, val c = some x ↔ Digit c x) (s : State) (len : Option Nat) :
    ((∀ c ∈ s.req.val.str, ∃ x, Digit c x) → LenFor len (w * s.req.val.str.length) →
      ∃ b : Bits, AnswersBits s (exec (enc len) s) b ∧ b.length = w * s.req.val.str.length ∧
        ∀ j c x, s.req.val.str[j]? = some c → Digit c x → bigValue (groupAt w j b) = x) ∧
    (∀ n, len = some n → n % w ≠ 0 → AnswersError s (exec (enc len) s) .invalidLength) ∧
    ((∀ n, len = some n → n % w = 0) → (∃ c ∈ s.req.val.str, ∀ x, ¬ Digit c x) →
      AnswersError s (exec (enc len) s) .value) ∧
    ((∀ n, len = some n → n % w = 0) → (∀ c ∈ s.req.val.str, ∃ x, Digit c x) →
      ¬ LenFor len (w * s.req.val.str.length) → AnswersError s (exec (enc len) s) .value) := by
  simp only [← hval]
  refine ⟨fun hdigits hlen => ?_, ?_, fun hwhole hbad => ?_, fun hwhole hdigits hlen => ?_⟩
  · obtain ⟨xs, hxs⟩ := exists_digitValues hdigits
    refine ⟨_, F.enc_answers hxs hlen, by rw [digitBits_length, digitValues_length hxs], ?_⟩
    intro j c x hc hx
    have hj : xs[j]? = some x := by simpa [hc, hx] using digitValues_getElem? hxs j
    exact bigValue_groupAt_digitBits hj (F.val_lt c x hx)
  · rintro n rfl hn
    exact F.enc_invalidLength hn s
  · exact F.enc_badDigit hwhole (by simpa only [Option.eq_none_iff_forall_ne_some] using hbad)
  · obtain ⟨xs, hxs⟩ := exists_digitValues hdigits
    exact F.enc_disagrees hwhole hxs hlen

/-! ### DEC and ENC undo each other (R118) -/

/-- DEC of what ENC wrote is the string with each character in its canonical form. -/
theorem dec_of_enc (F : StringFamily fam w val dec enc) {canon : Byte → Byte}
    (hcanon : ∀ c x, val c = some x → digit x = canon c) {t s' : State}
    (hview : s'.req.view = t.rsp.res) (hok : t.rsp.status = 0) (henc : exec (enc none) s = .next t) :
    AnswersValue s' (exec (dec none) s') (.str (s.req.val.str.map canon)) := by
  cases hxs : digitValues val s.req.val.str with
  | none =>
    have herr := F.enc_badDigit (wholeDigits_none w) (digitValues_eq_none.1 hxs)
    exact absurd hok (henc ▸ herr).status_ne_zero
  | some xs =>
    have hres : t.rsp.res = digitBits w xs := (henc ▸ F.enc_answers hxs (.inl rfl)).res_eq
    rw [hres] at hview
    have hwhole : s'.req.view.length % w = 0 := by rw [hview, digitBits_length, Nat.mul_mod_right]
    have hdec := F.dec_answers hwhole (.inl rfl)
    rwa [hview, digitString_digitBits F.pos (forall_mem_digitValues hxs F.val_lt),
      map_digit_digitValues hxs hcanon] at hdec

/-- ENC of what DEC read is the view. -/
theorem enc_of_dec (F : StringFamily fam w val dec enc) {u s' : State}
    (hstr : .str s'.req.val.str = u.rsp.rval) (hok : u.rsp.status = 0)
    (hdec : exec (dec none) s = .next u) :
    AnswersBits s' (exec (enc none) s') s.req.view := by
  by_cases hwhole : s.req.view.length % w = 0
  · have hrval : u.rsp.rval = .str (digitString w s.req.view) :=
      (hdec ▸ F.dec_answers hwhole (.inl rfl)).rval_eq
    have hdigits : s'.req.val.str = digitString w s.req.view := Value.str.inj (hstr.trans hrval)
    have hxs := digitValues_digitString F.val_digit s.req.view
    rw [← hdigits] at hxs
    have henc := F.enc_answers hxs (.inl rfl)
    rwa [digitBits_mag_groups hwhole] at henc
  · exact absurd hok (hdec ▸ F.dec_partialDigit hwhole).status_ne_zero

end StringFamily

end Sys2Proof.Machine

/-! ## The string statements -/

namespace Sys2Proof.Proofs

open Sys2Proof.Machine

/-- Settles O22: a view is read as the string of its bits, and every length is one of whole digits. -/
theorem decBinReadsEachBit : Obligations.DecBinReadsEachBit := by
  refine ⟨hasWords_of_instrFields (fun _ => rfl) rfl, fun s len => ⟨fun hlen => ?_, fun hlen => ?_⟩⟩
  · have hdec := stringFamily_bin.dec_answers (Nat.mod_one _) hlen
    rw [digitString_one] at hdec
    refine ⟨_, hdec, List.length_map _, fun i _ => ?_⟩
    rw [List.getElem?_map]
    congr 1
    funext b
    cases b <;> rfl
  · exact stringFamily_bin.dec_disagrees (fun n _ => Nat.mod_one n) hlen

/-- Settles O23: the values of a string of 0 and 1 are written as the string's bits. -/
theorem encBinWritesEachCharacter : Obligations.EncBinWritesEachCharacter := by
  have hwhole (len : Option Nat) : WholeDigits 1 len := fun n _ => Nat.mod_one n
  refine ⟨hasWords_of_instrFields (fun _ => rfl) rfl, fun s len => ⟨fun hdigits hlen => ?_, ?_,
    fun hdigits hlen => stringFamily_bin.enc_disagrees (hwhole len) (digitValues_val2 hdigits)
      (by rwa [Nat.one_mul])⟩⟩
  · have henc := stringFamily_bin.enc_answers (digitValues_val2 hdigits) (by rwa [Nat.one_mul])
    rw [digitBits_one] at henc
    refine ⟨_, henc, List.length_map _, fun i _ => ?_⟩
    simp
  · rintro ⟨c, hc, hzero, hone⟩
    refine stringFamily_bin.enc_badDigit (hwhole len) ⟨c, hc, ?_⟩
    refine Option.eq_none_iff_forall_ne_some.2 fun x hx => ?_
    obtain ⟨-, hc0⟩ | ⟨-, hc1⟩ := val2_eq_some_iff.1 hx
    · exact hzero hc0
    · exact hone hc1

/-- Settles O24: the clauses of a string decoder at 4 bits a digit. -/
theorem decHexReadsGroupsOfFour : Obligations.DecHexReadsGroupsOfFour :=
  ⟨hasWords_of_instrFields (fun _ => rfl) rfl, stringFamily_hex.dec_reads⟩

/-- Settles O25: the clauses of a string encoder at 4 bits a digit. -/
theorem encHexWritesFourBitsADigit : Obligations.EncHexWritesFourBitsADigit :=
  ⟨hasWords_of_instrFields (fun _ => rfl) rfl,
    stringFamily_hex.enc_writes fun _ _ => val16_eq_some_iff⟩

/-- Settles O26: the clauses of a string decoder at 3 bits a digit. -/
theorem decOctReadsGroupsOfThree : Obligations.DecOctReadsGroupsOfThree :=
  ⟨hasWords_of_instrFields (fun _ => rfl) rfl, stringFamily_oct.dec_reads⟩

/-- Settles O27: the clauses of a string encoder at 3 bits a digit. -/
theorem encOctWritesThreeBitsADigit : Obligations.EncOctWritesThreeBitsADigit :=
  ⟨hasWords_of_instrFields (fun _ => rfl) rfl,
    stringFamily_oct.enc_writes fun _ _ => val8_eq_some_iff⟩

/-- Settles O28: the values of a string are written and read back without loss, and a group is the bits of
its magnitude; only a hex digit has a second spelling. -/
theorem stringCodecsRoundTrip : Obligations.StringCodecsRoundTrip := by
  intro s t s' hview hok
  have hbin : ∀ c x, val2 c = some x → digit x = id c := fun c x h => by
    obtain ⟨rfl, rfl⟩ | ⟨rfl, rfl⟩ := val2_eq_some_iff.1 h <;> rfl
  have hoct : ∀ c x, val8 c = some x → digit x = id c := fun c x h =>
    digit_of_octDigit (val8_eq_some_iff.1 h)
  have hhex : ∀ c x, val16 c = some x → digit x = lowered c := fun c x h =>
    digit_of_hexDigit (val16_eq_some_iff.1 h)
  refine ⟨fun h => ?_, fun h => ?_, stringFamily_hex.dec_of_enc hhex hview hok, fun s'' u hstr hok' =>
    ⟨stringFamily_bin.enc_of_dec hstr hok', stringFamily_oct.enc_of_dec hstr hok',
      stringFamily_hex.enc_of_dec hstr hok'⟩⟩
  · simpa using stringFamily_bin.dec_of_enc hbin hview hok h
  · simpa using stringFamily_oct.dec_of_enc hoct hview hok h

end Sys2Proof.Proofs

/-! ## Lemmas of the integer statements: fields, values and the integer commands (R92 to R136) -/

namespace Sys2Proof.Machine

/-! ### The field under a qualifier (R42, R95, R99) -/

/-- The magnitude of blocks of w bits put together in reverse order: block j weighs `2^w` to the j. -/
theorem mag_flatten_reverse_range {w m : Nat} {f : Nat → Bits} (hf : ∀ j < m, (f j).length = w) :
    mag ((List.range m).map f).reverse.flatten = ∑ j ∈ Finset.range m, mag (f j) * (2 ^ w) ^ j := by
  induction m with
  | zero => rfl
  | succ m ih =>
    have hlow : ∀ j < m, (f j).length = w := fun j hj => hf j (hj.trans m.lt_succ_self)
    have hwidth : ∀ g ∈ ((List.range m).map f).reverse, g.length = w := by simpa using hlow
    rw [List.range_succ, List.map_append, List.reverse_append, List.flatten_append, mag_append,
      length_flatten_of_width hwidth, ih hlow, Finset.sum_range_succ, ← pow_mul]
    simp [Nat.add_comm]

/-- The bytes reversed, most significant first, are the bytes read least significant first (R42). -/
theorem mag_byteRev (v : Bits) : mag (byteRev v) = littleValue v := by
  have hbyte : ∀ j < v.length / 8, (groupAt 8 j v).length = 8 := by
    intro j hj
    rw [groupAt, List.length_take, List.length_drop]
    omega
  have hgroups : groups 8 v = (List.range (v.length / 8)).map (groupAt 8 · v) := by
    simp only [groups, slice_eq_groupAt]
  rw [byteRev, hgroups, mag_flatten_reverse_range hbyte]
  simp only [littleValue, mag_eq_bigValue]
  rfl

/-- The magnitude of the ordered field is the value the statements read (R42, R99). -/
theorem mag_order (e : Endian) (h : ByteOrder) (v : Bits) : mag (order e h v) = fieldValue e h v := by
  cases e with
  | bitwise => exact mag_eq_bigValue v
  | be => exact mag_eq_bigValue v
  | le => exact mag_byteRev v
  | ne => cases h with
    | big => exact mag_eq_bigValue v
    | little => exact mag_byteRev v

/-- A field of n bits has whole bytes where the qualifier asks for them (R95). -/
def WholeField (e : Endian) (n : Nat) : Prop := e ≠ .bitwise → n % 8 = 0

theorem wholeField_iff {e : Endian} {n : Nat} : WholeField e n ↔ e = .bitwise ∨ n % 8 = 0 :=
  or_iff_not_imp_left.symm

section order
variable {e : Endian} {h : ByteOrder} {v : Bits}

/-- Where the byte order reverses anything, the field has whole bytes. -/
theorem WholeField.of_little (hv : WholeField e v.length) (hlittle : effEnd e h = .little) :
    v.length % 8 = 0 :=
  hv fun he => by subst he; cases hlittle

theorem order_length (hv : WholeField e v.length) : (order e h v).length = v.length := by
  rw [order_eq]
  split
  next hlittle => exact byteRev_length (hv.of_little hlittle)
  next => rfl

/-- Ordering a field twice gives it back (R99). -/
theorem order_order (hv : WholeField e v.length) : order e h (order e h v) = v := by
  rw [order_eq e h v]
  split
  next hlittle => rw [order_eq, if_pos hlittle, byteRev_byteRev (hv.of_little hlittle)]
  next hbig => rw [order_eq, if_neg hbig]

theorem fieldValue_lt (hv : WholeField e v.length) : fieldValue e h v < 2 ^ v.length := by
  have hlt := mag_lt (order e h v)
  rwa [mag_order, order_length hv] at hlt

/-- A field is determined by its length and its value (R12, R99). -/
theorem fieldValue_injective {u : Bits} (hl : u.length = v.length) (hv : WholeField e v.length)
    (hval : fieldValue e h u = fieldValue e h v) : u = v := by
  have hu : WholeField e u.length := hl ▸ hv
  rw [← mag_order, ← mag_order] at hval
  have hordered : order e h u = order e h v :=
    mag_injective (by rw [order_length hu, order_length hv, hl]) hval
  rw [← order_order hu, hordered, order_order hv]

theorem integerField_empty : integerField e h [] = .error .interpret := rfl

theorem integerField_ok (hne : v ≠ []) (hv : WholeField e v.length) :
    integerField e h v = .ok (order e h v) := by
  rw [integerField_eq, if_neg hne, if_pos (wholeField_iff.1 hv)]

theorem integerField_partialByte (hne : v ≠ []) (hv : ¬ WholeField e v.length) :
    integerField e h v = .error .value := by
  rw [integerField_eq, if_neg hne, if_neg (mt wholeField_iff.2 hv)]

end order

/-! ### Two's complement (R14, R134, R135) -/

/-- The reading by the sign bit is the reading by the magnitude. -/
theorem signedMag_eq_signedOf (w : Bits) : signedMag w = signedOf w.length (mag w) := by
  cases w with
  | nil => rfl
  | cons b w =>
    have hlt := mag_lt w
    rw [signedMag, signedOf, mag_cons]
    cases b <;> simp; omega

/-- The magnitude of an n-bit two's-complement field of value x (R135). -/
def twosComplement (n : Nat) (x : Int) : Nat := (if 0 ≤ x then x else x + 2 ^ n).toNat

section twosComplement
variable {n : Nat}

theorem two_pow_eq_double (hn : 0 < n) : 2 ^ n = 2 * 2 ^ (n - 1) := by
  rw [← pow_succ', Nat.sub_add_cancel hn]

theorem twosComplement_lt {x : Int} (hn : 0 < n) (hlo : -2 ^ (n - 1) ≤ x) (hhi : x < 2 ^ (n - 1)) :
    twosComplement n x < 2 ^ n := by
  have hpow := two_pow_eq_double hn
  unfold twosComplement
  split <;> zify at * <;> omega

theorem signedOf_twosComplement {x : Int} (hn : 0 < n) (hlo : -2 ^ (n - 1) ≤ x)
    (hhi : x < 2 ^ (n - 1)) : signedOf n (twosComplement n x) = x := by
  have hpow := two_pow_eq_double hn
  unfold signedOf twosComplement
  split <;> zify at * <;> split <;> omega

theorem signedOf_bounds {m : Nat} (hn : 0 < n) (hm : m < 2 ^ n) :
    -2 ^ (n - 1) ≤ signedOf n m ∧ signedOf n m < 2 ^ (n - 1) := by
  have hpow := two_pow_eq_double hn
  unfold signedOf
  split <;> zify at * <;> omega

theorem signedOf_injective {m m' : Nat} (hm : m < 2 ^ n) (hm' : m' < 2 ^ n)
    (h : signedOf n m = signedOf n m') : m = m' := by
  unfold signedOf at h
  zify at *
  split at h <;> split at h <;> omega

end twosComplement

/-- The agreeing length of a non-empty view is not 0. -/
theorem LenFor.ne_some_zero {len : Option Nat} {v : Bits} (h : LenFor len v.length) (hv : v ≠ []) :
    len ≠ some 0 := by
  obtain rfl | rfl := h
  · nofun
  · simpa using hv

/-! ### The commands of the two integer families (R92, R96, R100, R132 to R135) -/

/-- An integer decoder: the value its family gives the magnitude of the ordered field (R132, R134). -/
def decodeInteger (value : Nat → Nat → Int) (e : Endian) (h : ByteOrder) (v : Bits) :
    Except ErrorKind Value := do
  let w ← integerField e h v
  .ok (.int (value w.length (mag w)))

theorem decodeInt_eq_decodeInteger : decodeInt = decodeInteger signedOf := by
  funext e h v
  simp only [decodeInt, signedMag_eq_signedOf]
  rfl

section decodeInteger
variable {value : Nat → Nat → Int} {e : Endian} {h : ByteOrder} {v : Bits}

theorem decodeInteger_empty : decodeInteger value e h [] = .error .interpret := by
  rw [decodeInteger, integerField_empty]; rfl

theorem decodeInteger_ok (hne : v ≠ []) (hv : WholeField e v.length) :
    decodeInteger value e h v = .ok (.int (value v.length (fieldValue e h v))) := by
  rw [decodeInteger, integerField_ok hne hv, ← mag_order, ← order_length (h := h) hv]; rfl

theorem decodeInteger_partialByte (hne : v ≠ []) (hv : ¬ WholeField e v.length) :
    decodeInteger value e h v = .error .value := by
  rw [decodeInteger, integerField_partialByte hne hv]; rfl

end decodeInteger

/-- What the two integer families share. `value n m` is the number that a field of n bits and magnitude m
stands for; these numbers are the ones from `lo n` up to, not including, `hi n`, each of one field only. -/
structure IntegerFamily (fam : Family) (dec enc : Endian → Option Nat → Instr)
    (encode : Endian → ByteOrder → Option Nat → Int → Except ErrorKind Bits)
    (value : Nat → Nat → Int) (lo hi : Nat → Int) : Prop where
  lenUse_dec : lenUse .dec fam = .opt := by rfl
  lenUse_enc : lenUse .enc fam = .req := by rfl
  lenConstraint_eq : ∀ n, lenConstraint fam n = decide (0 < n) := by intro n; rfl
  fixedLen_eq : fixedLen fam = none := by rfl
  exec_dec : ∀ e len s,
    exec (dec e len) s = runDec fam len s (decodeInteger value e s.cfg.hostEndian)
  exec_enc : ∀ e len s,
    exec (enc e len) s = runEnc fam len s fun x => encode e s.cfg.hostEndian len x.int
  encode_ok : ∀ {e h n x}, 0 < n → WholeField e n → lo n ≤ x → x < hi n →
    ∃ w : Bits, w.length = n ∧ value n (mag w) = x ∧ encode e h (some n) x = .ok (order e h w)
  encode_error : ∀ {e h n x}, ¬ (WholeField e n ∧ lo n ≤ x ∧ x < hi n) →
    encode e h (some n) x = .error .value
  value_bounds : ∀ {n m}, 0 < n → m < 2 ^ n → lo n ≤ value n m ∧ value n m < hi n
  value_injective : ∀ {n m m'}, m < 2 ^ n → m' < 2 ^ n → value n m = value n m' → m = m'

theorem integerFamily_uint :
    IntegerFamily .uint decUintOf encUintOf encodeUint (fun _ m => m) (fun _ => 0) (2 ^ ·) where
  exec_dec e _ _ := by cases e <;> rfl
  exec_enc e _ _ := by cases e <;> rfl
  encode_ok {e h n x} _ hwhole hlo hhi := by
    have hlt : x.toNat < 2 ^ n := by zify; omega
    refine ⟨toBits n x.toNat, toBits_length _ _, ?_, ?_⟩
    · rw [mag_toBits hlt, Int.toNat_of_nonneg hlo]
    · rw [encodeUint_eq, if_pos ⟨wholeField_iff.1 hwhole, hlo, hhi⟩]
  encode_error hrefused := by
    rw [encodeUint_eq, if_neg (by rwa [← wholeField_iff])]
  value_bounds _ hm := ⟨Int.natCast_nonneg _, by zify at hm; exact hm⟩
  value_injective _ _ h := Int.natCast_inj.1 h

theorem integerFamily_int :
    IntegerFamily .int decIntOf encIntOf encodeInt signedOf (fun n => -2 ^ (n - 1))
      (fun n => 2 ^ (n - 1)) where
  exec_dec e _ _ := by rw [← decodeInt_eq_decodeInteger]; cases e <;> rfl
  exec_enc e _ _ := by cases e <;> rfl
  encode_ok {e h n x} hn hwhole hlo hhi := by
    refine ⟨toBits n (twosComplement n x), toBits_length _ _, ?_, ?_⟩
    · rw [mag_toBits (twosComplement_lt hn hlo hhi), signedOf_twosComplement hn hlo hhi]
    · rw [encodeInt_eq, if_pos ⟨wholeField_iff.1 hwhole, hlo, hhi⟩, twosComplement]
  encode_error hrefused := by
    rw [encodeInt_eq, if_neg (by rwa [← wholeField_iff])]
  value_bounds := signedOf_bounds
  value_injective := signedOf_injective

namespace IntegerFamily

variable {fam : Family} {dec enc : Endian → Option Nat → Instr}
  {encode : Endian → ByteOrder → Option Nat → Int → Except ErrorKind Bits}
  {value : Nat → Nat → Int} {lo hi : Nat → Int}
  (F : IntegerFamily fam dec enc encode value lo hi) {e : Endian} {len : Option Nat} {s : State}
include F

/-! Stage 1: DEC takes a positive length or none, ENC a positive length (R92, R93). -/

theorem resolveLen_pos {op : Op} {n : Nat} (hop : lenUse op fam ≠ .forb) (hn : 0 < n) :
    resolveLen op fam (some n) = .ok () := by
  simp [resolveLen_some, hop, F.lenConstraint_eq, hn]

theorem resolveLen_zero (op : Op) : resolveLen op fam (some 0) = .error .invalidLength := by
  simp [resolveLen_some, F.lenConstraint_eq]

theorem resolveLen_dec_ok (hlen : len ≠ some 0) : resolveLen .dec fam len = .ok () := by
  cases len with
  | none => simp [resolveLen_none, F.lenUse_dec]
  | some n =>
    have hn : 0 < n := Nat.pos_of_ne_zero fun h0 => hlen (congrArg some h0)
    exact F.resolveLen_pos (by simp [F.lenUse_dec]) hn

theorem resolveLen_enc_error (hlen : len = none ∨ len = some 0) :
    resolveLen .enc fam len = .error .invalidLength := by
  obtain rfl | rfl := hlen
  · simp [resolveLen_none, F.lenUse_enc]
  · exact F.resolveLen_zero .enc

theorem viewAgrees_ok (hlen : LenFor len s.req.view.length) : viewAgrees fam len s.req.view = .ok () := by
  rw [viewAgrees_eq, if_pos ⟨hlen, .inl F.fixedLen_eq⟩]

/-! DEC, in the order of its checks (R100, R131). -/

theorem dec_invalidLength : AnswersError s (exec (dec e (some 0)) s) .invalidLength := by
  rw [F.exec_dec, runDec_invalid _ _ _ (F.resolveLen_zero .dec)]
  exact answersError_raise s _

/-- DEC of a view of another length answers InterpretError (R96). -/
theorem dec_disagrees (hlen : len ≠ some 0) (hne : ¬ LenFor len s.req.view.length) :
    AnswersError s (exec (dec e len) s) .interpret := by
  have hdisagrees : viewAgrees fam len s.req.view = .error .interpret := by
    rw [viewAgrees_eq, if_neg fun h => hne h.1]
  rw [F.exec_dec, runDec_disagree _ _ _ (F.resolveLen_dec_ok hlen) hdisagrees]
  exact answersError_raise s _

theorem dec_emptyView (hview : s.req.view = []) : AnswersError s (exec (dec e none) s) .interpret := by
  rw [F.exec_dec, runDec_eq _ _ _ (F.resolveLen_dec_ok (Option.some_ne_none 0).symm)
    (F.viewAgrees_ok (.inl rfl)), hview, decodeInteger_empty]
  exact answersError_raise s _

theorem dec_partialByte (hview : s.req.view ≠ []) (hlen : LenFor len s.req.view.length)
    (hpart : ¬ WholeField e s.req.view.length) : AnswersError s (exec (dec e len) s) .value := by
  rw [F.exec_dec, runDec_eq _ _ _ (F.resolveLen_dec_ok (hlen.ne_some_zero hview))
    (F.viewAgrees_ok hlen), decodeInteger_partialByte hview hpart]
  exact answersError_raise s _

theorem dec_answers (hview : s.req.view ≠ []) (hwhole : WholeField e s.req.view.length)
    (hlen : LenFor len s.req.view.length) :
    AnswersValue s (exec (dec e len) s)
      (.int (value s.req.view.length (fieldValue e s.cfg.hostEndian s.req.view))) := by
  rw [F.exec_dec, runDec_eq _ _ _ (F.resolveLen_dec_ok (hlen.ne_some_zero hview))
    (F.viewAgrees_ok hlen), decodeInteger_ok hview hwhole]
  exact answersValue_answerValue s _

/-- A DEC that succeeds had a non-empty view, of whole bytes where asked, of the length asked for. -/
theorem of_dec_ok {t : State} (hdec : exec (dec e len) s = .next t) (hok : t.rsp.status = 0) :
    s.req.view ≠ [] ∧ WholeField e s.req.view.length ∧ LenFor len s.req.view.length := by
  have hno {k : ErrorKind} : ¬ AnswersError s (exec (dec e len) s) k := fun herr =>
    (hdec ▸ herr).status_ne_zero hok
  have hzero : len ≠ some 0 := by rintro rfl; exact hno F.dec_invalidLength
  have hlen : LenFor len s.req.view.length := by_contra fun h => hno (F.dec_disagrees hzero h)
  have hview : s.req.view ≠ [] := by
    intro hempty
    obtain rfl | rfl := hlen
    · exact hno (F.dec_emptyView hempty)
    · exact hzero (by rw [hempty]; rfl)
  exact ⟨hview, by_contra fun h => hno (F.dec_partialByte hview hlen h), hlen⟩

/-- Every clause of an integer decoder: the value of the field, and the failing lengths told apart. -/
theorem dec_reads (e : Endian) (s : State) (len : Option Nat) :
    (s.req.view ≠ [] → (e ≠ .bitwise → s.req.view.length % 8 = 0) →
      LenFor len s.req.view.length →
      AnswersValue s (exec (dec e len) s)
        (.int (value s.req.view.length (fieldValue e s.cfg.hostEndian s.req.view)))) ∧
    (len = some 0 → AnswersError s (exec (dec e len) s) .invalidLength) ∧
    (∀ n, len = some n → 0 < n → n ≠ s.req.view.length →
      AnswersError s (exec (dec e len) s) .interpret) ∧
    (len = none → s.req.view = [] → AnswersError s (exec (dec e len) s) .interpret) ∧
    (s.req.view ≠ [] → LenFor len s.req.view.length → e ≠ .bitwise →
      s.req.view.length % 8 ≠ 0 → AnswersError s (exec (dec e len) s) .value) := by
  refine ⟨F.dec_answers, ?_, ?_, ?_, fun hview hlen he hpart => ?_⟩
  · rintro rfl
    exact F.dec_invalidLength
  · rintro n rfl hn hne
    exact F.dec_disagrees (by simpa using hn.ne') (by simpa [LenFor] using hne)
  · rintro rfl hview
    exact F.dec_emptyView hview
  · exact F.dec_partialByte hview hlen fun hwhole => hpart (hwhole he)

/-! ENC, in the order of its checks (R100, R133, R135). -/

theorem enc_invalidLength (hlen : len = none ∨ len = some 0) :
    AnswersError s (exec (enc e len) s) .invalidLength := by
  rw [F.exec_enc, runEnc_invalid _ _ _ (F.resolveLen_enc_error hlen)]
  exact answersError_raise s _

theorem enc_valueError {n : Nat} (hn : 0 < n)
    (hrefused : ¬ (WholeField e n ∧ lo n ≤ s.req.val.int ∧ s.req.val.int < hi n)) :
    AnswersError s (exec (enc e (some n)) s) .value := by
  rw [F.exec_enc, runEnc_eq _ _ _ (F.resolveLen_pos (by simp [F.lenUse_enc]) hn),
    F.encode_error hrefused]
  exact answersError_raise s _

/-- ENC of a number in range answers a field of n bits that stands for it. -/
theorem enc_answers {n : Nat} (hn : 0 < n) (hwhole : WholeField e n) (hlo : lo n ≤ s.req.val.int)
    (hhi : s.req.val.int < hi n) :
    ∃ b : Bits, AnswersBits s (exec (enc e (some n)) s) b ∧ b.length = n ∧
      value n (fieldValue e s.cfg.hostEndian b) = s.req.val.int := by
  obtain ⟨w, rfl, hvalue, hencode⟩ := F.encode_ok (h := s.cfg.hostEndian) hn hwhole hlo hhi
  refine ⟨order e s.cfg.hostEndian w, ?_, order_length hwhole, ?_⟩
  · rw [F.exec_enc, runEnc_eq _ _ _ (F.resolveLen_pos (by simp [F.lenUse_enc]) hn), hencode]
    exact answersBits_answerBits s _
  · rw [← mag_order, order_order hwhole, hvalue]

/-- An ENC of n bits that succeeds had n positive, of whole bytes where asked, and a number in range. -/
theorem of_enc_ok {n : Nat} {t : State} (henc : exec (enc e (some n)) s = .next t)
    (hok : t.rsp.status = 0) :
    0 < n ∧ WholeField e n ∧ lo n ≤ s.req.val.int ∧ s.req.val.int < hi n := by
  have hno {k : ErrorKind} : ¬ AnswersError s (exec (enc e (some n)) s) k := fun herr =>
    (henc ▸ herr).status_ne_zero hok
  have hn : 0 < n := Nat.pos_of_ne_zero fun h0 => hno (F.enc_invalidLength (.inr (congrArg some h0)))
  exact ⟨hn, by_contra fun h => hno (F.enc_valueError hn h)⟩

/-- Every clause of an integer encoder: the field of a number in range, and the failures told apart. -/
theorem enc_writes (e : Endian) (s : State) (len : Option Nat) :
    (∀ n, len = some n → 0 < n → (e ≠ .bitwise → n % 8 = 0) →
      lo n ≤ s.req.val.int → s.req.val.int < hi n →
      ∃ b : Bits, AnswersBits s (exec (enc e len) s) b ∧ b.length = n ∧
        value n (fieldValue e s.cfg.hostEndian b) = s.req.val.int) ∧
    (len = none ∨ len = some 0 → AnswersError s (exec (enc e len) s) .invalidLength) ∧
    (∀ n, len = some n → 0 < n →
      (e ≠ .bitwise ∧ n % 8 ≠ 0) ∨ s.req.val.int < lo n ∨ hi n ≤ s.req.val.int →
      AnswersError s (exec (enc e len) s) .value) := by
  refine ⟨?_, F.enc_invalidLength, ?_⟩
  · rintro n rfl hn hwhole hlo hhi
    exact F.enc_answers hn hwhole hlo hhi
  · rintro n rfl hn hrefused
    refine F.enc_valueError hn fun ⟨hwhole, hlo, hhi⟩ => ?_
    obtain ⟨he, hpart⟩ | hlt | hge := hrefused
    · exact hpart (hwhole he)
    · exact hlt.not_ge hlo
    · exact hge.not_gt hhi

/-! ### DEC and ENC undo each other (R136) -/

section roundTrip
variable {t s' : State}

/-- DEC of what ENC wrote is the number. -/
theorem dec_of_enc {n : Nat} (hcfg : s'.cfg = s.cfg) (hview : s'.req.view = t.rsp.res)
    (hlen : LenFor len n) (hok : t.rsp.status = 0) (henc : exec (enc e (some n)) s = .next t) :
    AnswersValue s' (exec (dec e len) s') (.int s.req.val.int) := by
  obtain ⟨hn, hwhole, hlo, hhi⟩ := F.of_enc_ok henc hok
  obtain ⟨b, hb, rfl, hvalue⟩ := F.enc_answers hn hwhole hlo hhi
  rw [henc] at hb
  rw [hb.res_eq] at hview
  have hne : s'.req.view ≠ [] := by rw [hview]; exact List.ne_nil_of_length_pos hn
  have hdec := F.dec_answers (s := s') hne (by rwa [hview]) (by rwa [hview])
  rwa [hcfg, hview, hvalue] at hdec

/-- ENC of what DEC read is the view: no other field of its length stands for the number. -/
theorem enc_of_dec (hcfg : s'.cfg = s.cfg) (hval : .int s'.req.val.int = t.rsp.rval)
    (hok : t.rsp.status = 0) (hdec : exec (dec e len) s = .next t) :
    AnswersBits s' (exec (enc e (some s.req.view.length)) s') s.req.view := by
  obtain ⟨hview, hwhole, hlen⟩ := F.of_dec_ok hdec hok
  have hn : 0 < s.req.view.length := List.length_pos_iff.2 hview
  have hrval := (hdec ▸ F.dec_answers hview hwhole hlen).rval_eq
  have hint := Value.int.inj (hval.trans hrval)
  obtain ⟨hlo, hhi⟩ := F.value_bounds hn (fieldValue_lt (h := s.cfg.hostEndian) hwhole)
  rw [← hint] at hlo hhi
  obtain ⟨b, hb, hblen, hvalue⟩ := F.enc_answers hn hwhole hlo hhi
  rw [hint, hcfg] at hvalue
  have hfield := F.value_injective (hblen ▸ fieldValue_lt (hblen ▸ hwhole)) (fieldValue_lt hwhole) hvalue
  rwa [fieldValue_injective hblen hwhole hfield] at hb

end roundTrip

/-! ### Decoders without an explicit length (R136) -/

/-- A DEC of whole bytes without a length answers exactly the number of the field of a non-empty view. -/
theorem dec_answers_iff {v : Value} (hwhole : WholeField e s.req.view.length) :
    AnswersValue s (exec (dec e none) s) v ↔
      s.req.view ≠ [] ∧
        v = .int (value s.req.view.length (fieldValue e s.cfg.hostEndian s.req.view)) := by
  constructor
  · rintro ⟨t, hdec, hok, -, rfl, -⟩
    obtain ⟨hview, -, hlen⟩ := F.of_dec_ok hdec hok
    exact ⟨hview, (hdec ▸ F.dec_answers hview hwhole hlen).rval_eq⟩
  · rintro ⟨hview, rfl⟩
    exact F.dec_answers hview hwhole (.inl rfl)

/-- Two decodes of views of whole bytes whose fields have one length and one value answer the same. -/
theorem dec_answers_congr {v : Value} {e' : Endian} {s' : State}
    (hwhole : s.req.view.length % 8 = 0) (hlen : s'.req.view.length = s.req.view.length)
    (hfield : fieldValue e s.cfg.hostEndian s.req.view = fieldValue e' s'.cfg.hostEndian s'.req.view) :
    AnswersValue s (exec (dec e none) s) v ↔ AnswersValue s' (exec (dec e' none) s') v := by
  rw [F.dec_answers_iff fun _ => hwhole, F.dec_answers_iff fun _ => hlen ▸ hwhole, hfield, hlen,
    ← List.length_pos_iff, ← List.length_pos_iff, hlen]

end IntegerFamily

/-- The decoders of both families answer the same for two fields of whole bytes, one length and one
value. -/
theorem integerDecoders_congr {e e' : Endian} {s s' : State} (v : Value)
    (hwhole : s.req.view.length % 8 = 0) (hlen : s'.req.view.length = s.req.view.length)
    (hfield : fieldValue e s.cfg.hostEndian s.req.view = fieldValue e' s'.cfg.hostEndian s'.req.view) :
    (AnswersValue s (exec (decUintOf e none) s) v ↔ AnswersValue s' (exec (decUintOf e' none) s') v) ∧
    (AnswersValue s (exec (decIntOf e none) s) v ↔ AnswersValue s' (exec (decIntOf e' none) s') v) :=
  ⟨integerFamily_uint.dec_answers_congr hwhole hlen hfield,
    integerFamily_int.dec_answers_congr hwhole hlen hfield⟩

/-- A big-endian field is the little-endian field of the reversed bytes (R13, R42). -/
theorem littleValue_byteRev {v : Bits} (h : v.length % 8 = 0) : littleValue (byteRev v) = bigValue v := by
  rw [← mag_byteRev, byteRev_byteRev h, mag_eq_bigValue]

end Sys2Proof.Machine

/-! ## The integer statements -/

namespace Sys2Proof.Proofs

open Sys2Proof.Machine

/-- Settles O29: the clauses of an integer decoder whose numbers are the magnitudes. -/
theorem decUintReadsTheMagnitude : Obligations.DecUintReadsTheMagnitude := fun e =>
  ⟨hasWords_of_instrFields (fam := .uint) (e := e) (fun _ => by cases e <;> rfl) (by cases e <;> rfl),
    integerFamily_uint.dec_reads e⟩

/-- Settles O30: the clauses of an integer encoder whose numbers are the magnitudes. -/
theorem encUintWritesTheMagnitude : Obligations.EncUintWritesTheMagnitude := fun e =>
  ⟨hasWords_of_instrFields (fam := .uint) (e := e) (fun _ => by cases e <;> rfl) (by cases e <;> rfl),
    integerFamily_uint.enc_writes e⟩

/-- Settles O31: the clauses of an integer decoder whose numbers are the two's-complement readings. -/
theorem decIntReadsTwosComplement : Obligations.DecIntReadsTwosComplement := fun e =>
  ⟨hasWords_of_instrFields (fam := .int) (e := e) (fun _ => by cases e <;> rfl) (by cases e <;> rfl),
    integerFamily_int.dec_reads e⟩

/-- Settles O32: the clauses of an integer encoder whose numbers are the two's-complement readings. -/
theorem encIntWritesTwosComplement : Obligations.EncIntWritesTwosComplement := fun e =>
  ⟨hasWords_of_instrFields (fam := .int) (e := e) (fun _ => by cases e <;> rfl) (by cases e <;> rfl),
    integerFamily_int.enc_writes e⟩

/-- Settles O33: the encoder's field stands for the number, and a number in range has one field of each
length. -/
theorem integerCodecsRoundTrip : Obligations.IntegerCodecsRoundTrip :=
  fun _ _ _ _ hcfg hok =>
    ⟨fun _ _ hview hlen => ⟨integerFamily_uint.dec_of_enc hcfg hview hlen hok,
        integerFamily_int.dec_of_enc hcfg hview hlen hok⟩,
      fun _ hval => ⟨integerFamily_uint.enc_of_dec hcfg hval hok,
        integerFamily_int.enc_of_dec hcfg hval hok⟩⟩

/-- Settles O34: in each pair the two decoders read fields of one length and one value. -/
theorem byteOrdersAgreeUpToReversal : Obligations.ByteOrdersAgreeUpToReversal := by
  intro s s' v hwhole
  obtain ⟨huint, hint⟩ := integerDecoders_congr (e := .be) (e' := .bitwise) v hwhole rfl rfl
  refine ⟨fun hrev => ?_, huint, hint, fun hbig => ?_, fun hlittle => ?_⟩
  · have hlen : s'.req.view.length = s.req.view.length := by rw [hrev, byteRev_length hwhole]
    refine integerDecoders_congr (e := .be) (e' := .le) v hwhole hlen ?_
    rw [hrev]
    exact (littleValue_byteRev hwhole).symm
  · refine integerDecoders_congr (e := .ne) (e' := .be) v hwhole rfl ?_
    rw [hbig]; rfl
  · refine integerDecoders_congr (e := .ne) (e' := .le) v hwhole rfl ?_
    rw [hlittle]; rfl

end Sys2Proof.Proofs

/-! ## Lemmas of the IEEE float statements: words, values and rounding (R150 to R156) -/

namespace Sys2Proof.Machine

/-! ### Formats (R151) -/

/-- A format at most as wide as binary64 in each field, with an exponent field of two bits or more and a
mantissa (R151, R154). -/
structure IeeeFormat (E M : Nat) : Prop where
  two_le_exp : 2 ≤ E := by decide
  exp_le : E ≤ 11 := by decide
  one_le_man : 1 ≤ M := by decide
  man_le : M ≤ 52 := by decide

theorem ieeeFormat_binary16 : IeeeFormat 5 10 := {}

theorem ieeeFormat_binary32 : IeeeFormat 8 23 := {}

theorem ieeeFormat_binary64 : IeeeFormat 11 52 := {}

namespace IeeeFormat

variable {E M : Nat} (F : IeeeFormat E M)
include F

theorem exp_ne_zero : E ≠ 0 := by have := F.two_le_exp; omega

theorem two_pow_exp : ((2 ^ E : ℕ) : ℤ) = 2 * ieeeBias E + 2 := by
  have hE : 2 ^ E = 2 * 2 ^ (E - 1) := two_pow_eq_double (Nat.pos_of_ne_zero F.exp_ne_zero)
  rw [hE, ieeeBias]
  push_cast
  ring

theorem one_le_bias : 1 ≤ ieeeBias E := by
  have h : 2 ^ 1 ≤ (2 : ℤ) ^ (E - 1) :=
    pow_le_pow_right₀ (by norm_num) (by have := F.two_le_exp; omega)
  rw [ieeeBias]
  omega

theorem bias_le : ieeeBias E ≤ 1023 := by
  have h : (2 : ℤ) ^ (E - 1) ≤ 2 ^ 10 :=
    pow_le_pow_right₀ (by norm_num) (by have := F.exp_le; omega)
  rw [ieeeBias]
  omega

/-- The threshold of R158 is half a unit below `2^(M+1)` units at the greatest exponent. -/
theorem overflowBound_eq :
    overflowBound E M = (2 ^ (M + 1) - 1 / 2) * (2 : ℚ) ^ (ieeeBias E - M) := by
  have hexp : ((2 ^ E - 2 : ℤ) - ieeeBias E) = M + (ieeeBias E - M) := by
    have h := F.two_pow_exp
    push_cast at h
    omega
  rw [overflowBound, hexp, zpow_add₀ two_ne_zero, zpow_neg, ← mul_assoc]
  congr 1
  norm_cast
  rw [pow_succ]
  push_cast
  field_simp

end IeeeFormat

/-! ### Words and their fields (R152) -/

section fields
variable {E M p : Nat}

theorem wordSign_lt (E M p : Nat) : wordSign E M p < 2 := Nat.mod_lt _ two_pos

theorem wordExp_lt (E M p : Nat) : wordExp E M p < 2 ^ E := Nat.mod_lt _ (Nat.two_pow_pos E)

theorem wordMan_lt (M p : Nat) : wordMan M p < 2 ^ M := Nat.mod_lt _ (Nat.two_pow_pos M)

/-- A word of the format is its three fields put together. -/
theorem wordOf_wordFields (hp : p < 2 ^ (1 + E + M)) :
    wordOf E M (wordSign E M p) (wordExp E M p) (wordMan M p) = p := by
  have hsign : p / 2 ^ (E + M) < 2 := by
    rw [Nat.div_lt_iff_lt_mul (Nat.two_pow_pos _)]
    calc p < 2 ^ (1 + E + M) := hp
      _ = 2 * 2 ^ (E + M) := by ring
  have hhigh : p / 2 ^ (E + M) = p / 2 ^ M / 2 ^ E := by
    rw [Nat.div_div_eq_div_mul, ← pow_add, Nat.add_comm]
  calc wordOf E M (wordSign E M p) (wordExp E M p) (wordMan M p)
      = 2 ^ M * (2 ^ E * (p / 2 ^ M / 2 ^ E) + p / 2 ^ M % 2 ^ E) + p % 2 ^ M := by
        rw [wordOf, wordSign, wordExp, wordMan, Nat.mod_eq_of_lt hsign, hhigh]
        ring
    _ = p := by rw [Nat.div_add_mod, Nat.div_add_mod]

theorem wordOf_lt {s e m : Nat} (hs : s < 2) (he : e < 2 ^ E) (hm : m < 2 ^ M) :
    wordOf E M s e m < 2 ^ (1 + E + M) := by
  have hlow : e * 2 ^ M + m < 2 ^ (E + M) := by
    calc e * 2 ^ M + m < (e + 1) * 2 ^ M := by linarith
      _ ≤ 2 ^ E * 2 ^ M := Nat.mul_le_mul_right _ he
      _ = 2 ^ (E + M) := (pow_add 2 E M).symm
  calc wordOf E M s e m = s * 2 ^ (E + M) + (e * 2 ^ M + m) := by rw [wordOf, Nat.add_assoc]
    _ < (s + 1) * 2 ^ (E + M) := by linarith
    _ ≤ 2 * 2 ^ (E + M) := Nat.mul_le_mul_right _ hs
    _ = 2 ^ (1 + E + M) := by ring

/-- Two words of a format with the same fields are one word. -/
theorem word_ext {q : Nat} (hp : p < 2 ^ (1 + E + M)) (hq : q < 2 ^ (1 + E + M))
    (hs : wordSign E M p = wordSign E M q) (he : wordExp E M p = wordExp E M q)
    (hm : wordMan M p = wordMan M q) : p = q := by
  rw [← wordOf_wordFields hp, hs, he, hm, wordOf_wordFields hq]

/-- A word has the parity of its mantissa. -/
theorem wordOf_mod_two (hM : 1 ≤ M) (s e m : Nat) : wordOf E M s e m % 2 = m % 2 := by
  have hpow : 2 ^ M = 2 * 2 ^ (M - 1) := two_pow_eq_double hM
  have h : wordOf E M s e m = 2 * (2 ^ (M - 1) * (s * 2 ^ E + e)) + m := by
    rw [wordOf, pow_add, hpow]
    ring
  rw [h, Nat.mul_add_mod]

/-- A word is a NaN, an infinity or finite (R152). -/
theorem word_cases (hp : p < 2 ^ (1 + E + M)) :
    NanWord E M p ∨ InfiniteWord E M p ∨ FiniteWord E M p := by
  have he := wordExp_lt E M p
  by_cases hfin : wordExp E M p < 2 ^ E - 1
  · exact .inr (.inr ⟨hp, hfin⟩)
  · have htop : wordExp E M p = 2 ^ E - 1 := by omega
    by_cases hm : wordMan M p = 0
    · exact .inr (.inl ⟨hp, htop, hm⟩)
    · exact .inl ⟨hp, htop, hm⟩

theorem NanWord.not_infinite (h : NanWord E M p) : ¬ InfiniteWord E M p :=
  fun ⟨_, _, hm⟩ => h.2.2 hm

theorem NanWord.not_finite (h : NanWord E M p) : ¬ FiniteWord E M p := by
  obtain ⟨-, he, -⟩ := h
  rintro ⟨-, hlt⟩
  omega

theorem InfiniteWord.not_finite (h : InfiniteWord E M p) : ¬ FiniteWord E M p := by
  obtain ⟨-, he, -⟩ := h
  rintro ⟨-, hlt⟩
  omega

/-- The classes of R152 and the words the statements name. -/
theorem classOf_eq_nan_iff (hE : E ≠ 0) (hp : p < 2 ^ (1 + E + M)) :
    classOf E M p = .nan ↔ NanWord E M p := by
  rw [classOf_nan hE, NanWord, and_iff_right hp]

theorem classOf_eq_infinite_iff (hE : E ≠ 0) (hp : p < 2 ^ (1 + E + M)) :
    classOf E M p = .infinite ↔ InfiniteWord E M p := by
  rw [classOf_infinite hE, InfiniteWord, and_iff_right hp]

/-- The infinity of a sign is an infinity of that sign (R154, R155). -/
theorem infinityWord_spec {s : Nat} (hs : s < 2) :
    InfiniteWord E M (infinityWord E M s) ∧ wordSign E M (infinityWord E M s) = s := by
  have he : 2 ^ E - 1 < 2 ^ E := Nat.sub_lt (Nat.two_pow_pos E) one_pos
  obtain ⟨hsign, hexp, hman⟩ := wordOf_fields (M := M) hs he (Nat.two_pow_pos M)
  exact ⟨⟨wordOf_lt hs he (Nat.two_pow_pos M), hexp, hman⟩, hsign⟩

/-- An infinity is the infinity of its sign. -/
theorem InfiniteWord.eq_infinityWord (h : InfiniteWord E M p) :
    p = infinityWord E M (wordSign E M p) := by
  obtain ⟨hp, hexp, hman⟩ := h
  obtain ⟨⟨hq, hexp', hman'⟩, hsign'⟩ := infinityWord_spec (E := E) (M := M) (wordSign_lt E M p)
  exact word_ext hp hq hsign'.symm (hexp.trans hexp'.symm) (hman.trans hman'.symm)

end fields

/-! ### The value of a finite word (R152) -/

/-- The significand of a finite word: its mantissa, with the leading 1 of a normal word. -/
def wordSig (E M p : Nat) : Nat := if wordExp E M p = 0 then wordMan M p else 2 ^ M + wordMan M p

/-- The exponent of a finite word: a subnormal word has that of the least normal one. -/
def wordScale (E M p : Nat) : ℤ := max (wordExp E M p : ℤ) 1 - ieeeBias E

/-- `2^M` units at the exponent x make up `2^x`. -/
theorem two_pow_mul_unit (M : Nat) (x : ℤ) : (2 : ℚ) ^ M * 2 ^ (x - M) = 2 ^ x := by
  rw [← zpow_natCast, ← zpow_add₀ two_ne_zero, add_sub_cancel]

theorem two_pow_succ_mul_unit (M : Nat) (x : ℤ) : (2 : ℚ) ^ (M + 1) * 2 ^ (x - M) = 2 ^ (x + 1) := by
  rw [pow_succ', mul_assoc, two_pow_mul_unit, zpow_add_one₀ two_ne_zero, mul_comm]

section values
variable {E M p q : Nat}

/-- The value of a finite word is its significand in units of the last place. -/
theorem floatAbs_eq (E M p : Nat) :
    floatAbs E M p = (wordSig E M p : ℚ) * (2 : ℚ) ^ (wordScale E M p - M) := by
  unfold floatAbs wordSig wordScale
  split
  next hzero => simp [hzero, ieeeEmin]
  next hpos =>
    have hmax : max (wordExp E M p : ℤ) 1 = wordExp E M p := max_eq_left (by omega)
    rw [hmax]
    push_cast
    rfl

/-- The model's rational is the value the statements read (R152). -/
theorem absOf_toRat (E M p : Nat) : (absOf E M p).toRat = floatAbs E M p := by
  unfold absOf floatAbs
  split
  next => exact scaled_toRat _ _
  next => rw [scaled_toRat]; push_cast; rfl

theorem wordSig_lt (E M p : Nat) : wordSig E M p < 2 ^ (M + 1) := by
  have hm := wordMan_lt M p
  rw [wordSig, pow_succ]
  split <;> omega

theorem emin_le_wordScale (E M p : Nat) : ieeeEmin E ≤ wordScale E M p := by
  rw [ieeeEmin, wordScale]
  omega

theorem FiniteWord.wordScale_le (h : FiniteWord E M p) (F : IeeeFormat E M) :
    wordScale E M p ≤ ieeeBias E := by
  obtain ⟨-, he⟩ := h
  have hpow := F.two_pow_exp
  have hbias := F.one_le_bias
  rw [wordScale]
  omega

/-- A finite word lies below the threshold of its format (R158). -/
theorem FiniteWord.floatAbs_lt_overflowBound (h : FiniteWord E M p) (F : IeeeFormat E M) :
    floatAbs E M p < overflowBound E M := by
  have hsig : (wordSig E M p : ℚ) + 1 ≤ 2 ^ (M + 1) := by exact_mod_cast wordSig_lt E M p
  rw [floatAbs_eq, F.overflowBound_eq]
  calc (wordSig E M p : ℚ) * (2 : ℚ) ^ (wordScale E M p - M)
      ≤ (wordSig E M p : ℚ) * (2 : ℚ) ^ (ieeeBias E - M) := by
        gcongr
        · norm_num
        · exact h.wordScale_le F
    _ < (2 ^ (M + 1) - 1 / 2) * (2 : ℚ) ^ (ieeeBias E - M) := by
        gcongr
        linarith

/-- A finite value lies below the end of its binade. -/
theorem floatAbs_lt_binade (E M p : Nat) : floatAbs E M p < 2 ^ (wordScale E M p + 1) := by
  rw [floatAbs_eq, ← two_pow_succ_mul_unit M]
  gcongr
  exact_mod_cast wordSig_lt E M p

theorem floatAbs_lt_two_zpow {n : Nat} (h : wordExp E M p < n) :
    floatAbs E M p < (2 : ℚ) ^ (n - ieeeBias E) := by
  by_cases hzero : wordExp E M p = 0
  · have hscale : wordScale E M p ≤ n - ieeeBias E := by rw [wordScale]; omega
    refine lt_of_lt_of_le ?_ (zpow_le_zpow_right₀ one_le_two hscale)
    rw [floatAbs_eq, wordSig, if_pos hzero, ← two_pow_mul_unit M (wordScale E M p)]
    gcongr
    exact_mod_cast wordMan_lt M p
  · have hscale : wordScale E M p + 1 ≤ n - ieeeBias E := by rw [wordScale]; omega
    exact (floatAbs_lt_binade E M p).trans_le (zpow_le_zpow_right₀ one_le_two hscale)

theorem two_zpow_le_floatAbs (h : wordExp E M p ≠ 0) :
    (2 : ℚ) ^ (wordExp E M p - ieeeBias E) ≤ floatAbs E M p := by
  rw [floatAbs, if_neg h, ← two_pow_mul_unit M]
  gcongr
  simp

/-- A greater exponent field gives a greater value. -/
theorem floatAbs_lt_of_wordExp_lt (h : wordExp E M p < wordExp E M q) :
    floatAbs E M p < floatAbs E M q :=
  (floatAbs_lt_two_zpow h).trans_le (two_zpow_le_floatAbs (by omega))

/-- A finite word is determined by its sign and its value. -/
theorem FiniteWord.eq_of_floatAbs_eq (hp : FiniteWord E M p) (hq : FiniteWord E M q)
    (hsign : wordSign E M p = wordSign E M q) (hval : floatAbs E M p = floatAbs E M q) : p = q := by
  have hexp : wordExp E M p = wordExp E M q := by
    rcases lt_trichotomy (wordExp E M p) (wordExp E M q) with hlt | heq | hgt
    · exact absurd hval (floatAbs_lt_of_wordExp_lt hlt).ne
    · exact heq
    · exact absurd hval (floatAbs_lt_of_wordExp_lt hgt).ne'
  have hsig : wordSig E M p = wordSig E M q := by
    rw [floatAbs_eq, floatAbs_eq, wordScale, wordScale, hexp] at hval
    exact_mod_cast mul_right_cancel₀ (by positivity) hval
  have hman : wordMan M p = wordMan M q := by
    rw [wordSig, wordSig, hexp] at hsig
    split at hsig <;> omega
  exact word_ext hp.1 hq.1 hsign hexp hman

/-- A finite value is a number of units at the exponent x, or lies below the binade of x. -/
theorem floatAbs_units_or_lt (E M q : Nat) (x : ℤ) :
    (∃ j : ℕ, floatAbs E M q = j * (2 : ℚ) ^ (x - M)) ∨
      (ieeeEmin E < x ∧ floatAbs E M q < 2 ^ x) := by
  by_cases hx : x ≤ wordScale E M q
  · obtain ⟨n, hn⟩ := Int.le.dest hx
    refine .inl ⟨wordSig E M q * 2 ^ n, ?_⟩
    rw [floatAbs_eq, ← hn, add_sub_right_comm, zpow_add₀ two_ne_zero]
    push_cast
    rw [zpow_natCast]
    ring
  · have hmin := emin_le_wordScale E M q
    refine .inr ⟨by omega, ?_⟩
    exact (floatAbs_lt_binade E M q).trans_le (zpow_le_zpow_right₀ one_le_two (by omega))

end values

theorem IeeeFormat.two_zpow_bias_le_overflowBound {E M : Nat} (F : IeeeFormat E M) :
    (2 : ℚ) ^ ieeeBias E ≤ overflowBound E M := by
  have hone : (1 : ℚ) ≤ 2 ^ M := one_le_pow₀ one_le_two
  rw [F.overflowBound_eq, ← two_pow_mul_unit M (ieeeBias E)]
  gcongr
  rw [pow_succ]
  linarith

/-! ### Words from a significand and an exponent (R153) -/

/-- p is the finite word of sign s whose value is k units at the exponent x, with the parity of k. -/
structure WordOfUnits (E M s k : Nat) (x : ℤ) (p : Nat) : Prop where
  finite : FiniteWord E M p
  sign : wordSign E M p = s
  value : floatAbs E M p = k * (2 : ℚ) ^ (x - M)
  parity : p % 2 = k % 2

/-- The last steps of `RoundFin` (R153): the word of a significand k at the exponent x. -/
def finishWord (E M s : Nat) (x : ℤ) (k : Nat) : Option Nat :=
  if k < 2 ^ M then some (wordOf E M s 0 k)
  else if 2 ^ E - 1 ≤ x + ieeeBias E then none
  else some (wordOf E M s (x + ieeeBias E).toNat (k - 2 ^ M))

section finishWord
variable {E M s k : Nat} {x : ℤ}

theorem finishWord_overflow (F : IeeeFormat E M) (hk : 2 ^ M ≤ k) (hx : ieeeBias E < x) :
    finishWord E M s x k = none := by
  have hpow := F.two_pow_exp
  push_cast at hpow
  rw [finishWord, if_neg (by omega), if_pos (by omega)]

/-- A significand of M + 1 bits at an exponent of the format, with its leading 1 unless the exponent is the
least, makes a word. -/
theorem exists_finishWord (F : IeeeFormat E M) (hs : s < 2) (hk : k < 2 ^ (M + 1))
    (hsub : k < 2 ^ M → x = ieeeEmin E) (hlo : ieeeEmin E ≤ x) (hhi : x ≤ ieeeBias E) :
    ∃ p, finishWord E M s x k = some p ∧ WordOfUnits E M s k x p := by
  have hpow := F.two_pow_exp
  have hbias := F.one_le_bias
  have hemin : ieeeEmin E = 1 - ieeeBias E := rfl
  rw [pow_succ] at hk
  by_cases hlt : k < 2 ^ M
  · obtain ⟨hsign, hexp, hman⟩ := wordOf_fields hs (Nat.two_pow_pos E) hlt
    refine ⟨_, if_pos hlt, ⟨⟨wordOf_lt hs (Nat.two_pow_pos E) hlt, ?_⟩, hsign, ?_,
      wordOf_mod_two F.one_le_man _ _ _⟩⟩
    · rw [hexp]
      omega
    · rw [floatAbs, if_pos hexp, hman, hsub hlt]
  · have he : (x + ieeeBias E).toNat < 2 ^ E := by omega
    have hm : k - 2 ^ M < 2 ^ M := by omega
    obtain ⟨hsign, hexp, hman⟩ := wordOf_fields hs he hm
    refine ⟨_, ?_, ⟨⟨wordOf_lt hs he hm, ?_⟩, hsign, ?_, ?_⟩⟩
    · push_cast at hpow
      rw [finishWord, if_neg hlt, if_neg (by omega)]
    · rw [hexp]
      omega
    · have hsig : (2 : ℚ) ^ M + (k - 2 ^ M : ℕ) = k := by
        rw [Nat.cast_sub (not_lt.1 hlt)]
        push_cast
        ring
      have hx : ((x + ieeeBias E).toNat : ℤ) - ieeeBias E = x := by omega
      rw [floatAbs, hexp, if_neg (by omega), hman, hsig, hx]
    · have hM : 2 ^ M = 2 * 2 ^ (M - 1) := two_pow_eq_double F.one_le_man
      rw [wordOf_mod_two F.one_le_man]
      omega

end finishWord

/-- Any significand of M + 1 bits at an exponent of the format is the value of a finite word: without its
leading 1 it is doubled, one exponent lower. -/
theorem exists_word_of_units {E M s : Nat} (F : IeeeFormat E M) (hs : s < 2) {k : Nat} {x : ℤ}
    (hk : k < 2 ^ (M + 1)) (hlo : ieeeEmin E ≤ x) (hhi : x ≤ ieeeBias E) :
    ∃ p, FiniteWord E M p ∧ wordSign E M p = s ∧ floatAbs E M p = k * (2 : ℚ) ^ (x - M) := by
  obtain ⟨n, rfl⟩ := Int.le.dest hlo
  induction n generalizing k with
  | zero =>
    obtain ⟨p, -, hp⟩ := exists_finishWord F hs hk (fun _ => by simp) hlo hhi
    exact ⟨p, hp.finite, hp.sign, hp.value⟩
  | succ n ih =>
    by_cases hlt : k < 2 ^ M
    · obtain ⟨p, hp, hsign, hval⟩ :=
        ih (k := 2 * k) (by rw [pow_succ]; omega) (by omega) (by push_cast at hhi; omega)
      refine ⟨p, hp, hsign, hval.trans ?_⟩
      have hexp : ieeeEmin E + ↑(n + 1) - M = ieeeEmin E + n - M + 1 := by push_cast; ring
      rw [hexp, zpow_add_one₀ two_ne_zero]
      push_cast
      ring
    · obtain ⟨p, -, hp⟩ := exists_finishWord F hs hk (fun h => absurd h hlt) hlo hhi
      exact ⟨p, hp.finite, hp.sign, hp.value⟩

/-- A finite value of a format is one of binary64 (R155). -/
theorem exists_binary64_word {E M p s : Nat} (F : IeeeFormat E M) (hs : s < 2)
    (hp : FiniteWord E M p) :
    ∃ d, FiniteWord 11 52 d ∧ wordSign 11 52 d = s ∧ floatAbs 11 52 d = floatAbs E M p := by
  have hbias : ieeeBias 11 = 1023 := rfl
  have hle := F.bias_le
  have hmin := emin_le_wordScale E M p
  have hmax := hp.wordScale_le F
  unfold ieeeEmin at hmin
  have hsig : wordSig E M p * 2 ^ (52 - M) < 2 ^ (52 + 1) := by
    calc wordSig E M p * 2 ^ (52 - M) < 2 ^ (M + 1) * 2 ^ (52 - M) := by
          gcongr
          exact wordSig_lt E M p
      _ = 2 ^ (52 + 1) := by
        rw [← pow_add]
        congr 1
        have := F.man_le
        omega
  obtain ⟨d, hd, hsign, hval⟩ := exists_word_of_units ieeeFormat_binary64 hs hsig
    (x := wordScale E M p) (by rw [ieeeEmin]; omega) (by omega)
  refine ⟨d, hd, hsign, ?_⟩
  have hexp : wordScale E M p - M = (52 - M : ℕ) + (wordScale E M p - (52 : ℕ)) := by
    have := F.man_le
    omega
  rw [hval, floatAbs_eq, hexp, zpow_add₀ two_ne_zero, zpow_natCast]
  push_cast
  ring

/-! ### Rounding (R153) -/

/-- The exponent at which `RoundFin` rounds. -/
def roundExp (E : Nat) (a : Ratio) : ℤ := max (floorLog2 a) (ieeeEmin E)

/-- The significand to which `RoundFin` rounds, before its carry. -/
def roundSig (E M : Nat) (a : Ratio) : Nat := roundEven (divPow2 a (roundExp E a - M))

theorem roundFin_zero {E M s : Nat} {a : Ratio} (ha : a.num = 0) :
    roundFin E M s a = some (wordOf E M s 0 0) := if_pos ha

/-- `RoundFin` finishes the rounded significand, or its carry into the next binade. -/
theorem roundFin_eq {E M s : Nat} {a : Ratio} (ha : a.num ≠ 0) :
    roundFin E M s a =
      if roundSig E M a = 2 ^ (M + 1) then finishWord E M s (roundExp E a + 1) (2 ^ M)
      else finishWord E M s (roundExp E a) (roundSig E M a) := by
  calc roundFin E M s a
      = finishWord E M s
          (if roundSig E M a = 2 ^ (M + 1) then roundExp E a + 1 else roundExp E a)
          (if roundSig E M a = 2 ^ (M + 1) then 2 ^ M else roundSig E M a) := if_neg ha
    _ = _ := by split <;> rfl

section rounding
variable {E M s : Nat} {a : Ratio}

/-- The significand is the number of units nearest to a, even when two are equally near. -/
theorem roundSig_spec (ha : 0 < a.den) :
    |(roundSig E M a : ℚ) - a.toRat / 2 ^ (roundExp E a - M)| ≤ 1 / 2 ∧
      (|(roundSig E M a : ℚ) - a.toRat / 2 ^ (roundExp E a - M)| = 1 / 2 →
        roundSig E M a % 2 = 0) := by
  rw [← divPow2_toRat]
  exact roundEven_spec (divPow2_den_pos ha _)

/-- Above the least exponent the value lies in the binade of that exponent. -/
theorem two_zpow_roundExp_le (hn : a.num ≠ 0) (hd : 0 < a.den) (hx : roundExp E a ≠ ieeeEmin E) :
    (2 : ℚ) ^ roundExp E a ≤ a.toRat := by
  have hfloor : roundExp E a = floorLog2 a := by unfold roundExp at hx ⊢; omega
  rw [hfloor]
  exact (floorLog2_spec (Nat.pos_of_ne_zero hn) hd).1

theorem le_roundExp {x : ℤ} (hn : a.num ≠ 0) (hd : 0 < a.den) (hle : (2 : ℚ) ^ x ≤ a.toRat) :
    x ≤ roundExp E a := by
  have hpow := hle.trans_lt (floorLog2_spec (Nat.pos_of_ne_zero hn) hd).2
  exact (Int.lt_add_one_iff.1 ((zpow_lt_zpow_iff_right₀ one_lt_two).1 hpow)).trans (le_max_left _ _)

/-- Above the least exponent the significand has its leading 1. -/
theorem two_pow_le_roundSig (hn : a.num ≠ 0) (hd : 0 < a.den) (hx : roundExp E a ≠ ieeeEmin E) :
    2 ^ M ≤ roundSig E M a := by
  have hlo : (2 : ℚ) ^ M ≤ a.toRat / 2 ^ (roundExp E a - M) := by
    rw [le_div_iff₀ (by positivity), two_pow_mul_unit]
    exact two_zpow_roundExp_le hn hd hx
  have hround := (abs_le.1 (roundSig_spec (E := E) (M := M) hd).1).1
  have hlt : (2 : ℚ) ^ M < roundSig E M a + 1 := by linarith
  exact Nat.lt_succ_iff.1 (by exact_mod_cast hlt)

/-- A value below the threshold (R158) is rounded at an exponent of the format, without a carry at the
greatest one. -/
theorem roundExp_le (F : IeeeFormat E M) (hn : a.num ≠ 0) (hd : 0 < a.den)
    (hlt : a.toRat < overflowBound E M) :
    roundExp E a ≤ ieeeBias E ∧ (roundExp E a = ieeeBias E → roundSig E M a < 2 ^ (M + 1)) := by
  rw [F.overflowBound_eq] at hlt
  refine ⟨max_le ?_ (by have := F.one_le_bias; rw [ieeeEmin]; omega), fun hx => ?_⟩
  · have hpow : (2 : ℚ) ^ floorLog2 a < 2 ^ (ieeeBias E + 1) := by
      calc (2 : ℚ) ^ floorLog2 a ≤ a.toRat := (floorLog2_spec (Nat.pos_of_ne_zero hn) hd).1
        _ < (2 ^ (M + 1) - 1 / 2) * 2 ^ (ieeeBias E - M) := hlt
        _ ≤ 2 ^ (M + 1) * 2 ^ (ieeeBias E - M) := by gcongr; linarith
        _ = 2 ^ (ieeeBias E + 1) := two_pow_succ_mul_unit M _
    exact Int.lt_add_one_iff.1 ((zpow_lt_zpow_iff_right₀ one_lt_two).1 hpow)
  · rw [← div_lt_iff₀ (by positivity)] at hlt
    have hround := (abs_le.1 (roundSig_spec (E := E) (M := M) hd).1).2
    rw [hx] at hround
    have hsig : (roundSig E M a : ℚ) < 2 ^ (M + 1) := by linarith
    exact_mod_cast hsig

/-- Below the threshold (R158) `RoundFin` answers the word of the rounded significand. -/
theorem exists_roundFin (F : IeeeFormat E M) (hs : s < 2) (hn : a.num ≠ 0) (hd : 0 < a.den)
    (hlt : a.toRat < overflowBound E M) :
    ∃ p, roundFin E M s a = some p ∧ WordOfUnits E M s (roundSig E M a) (roundExp E a) p := by
  obtain ⟨hhi, htop⟩ := roundExp_le F hn hd hlt
  have hlo : ieeeEmin E ≤ roundExp E a := le_max_right _ _
  have hmax : roundSig E M a ≤ 2 ^ (M + 1) := roundFin_significand (Nat.pos_of_ne_zero hn) hd
  rw [roundFin_eq hn]
  by_cases hcarry : roundSig E M a = 2 ^ (M + 1)
  · have hnext : roundExp E a ≠ ieeeBias E := fun hx => (htop hx).ne hcarry
    obtain ⟨p, hp, hword⟩ := exists_finishWord F hs (x := roundExp E a + 1)
      (Nat.pow_lt_pow_right one_lt_two M.lt_succ_self) (fun h => absurd h (lt_irrefl _))
      (by omega) (by omega)
    refine ⟨p, by rw [if_pos hcarry, hp], ⟨hword.finite, hword.sign, ?_, ?_⟩⟩
    · rw [hword.value, hcarry]
      push_cast
      rw [two_pow_mul_unit, two_pow_succ_mul_unit]
    · have hM : 2 ^ M = 2 * 2 ^ (M - 1) := two_pow_eq_double F.one_le_man
      rw [hword.parity, hcarry, pow_succ]
      omega
  · rw [if_neg hcarry]
    refine exists_finishWord F hs (by omega) (fun hsub => ?_) hlo hhi
    by_contra hx
    exact (two_pow_le_roundSig hn hd hx).not_gt hsub

/-- At the threshold and beyond it the significand carries out of the greatest exponent: half a unit below
`2^(M+1)` units is a tie, and the significand below the carry is odd. -/
theorem roundSig_carries (F : IeeeFormat E M) (hn : a.num ≠ 0) (hd : 0 < a.den)
    (hge : overflowBound E M ≤ a.toRat) (hx : roundExp E a = ieeeBias E) :
    roundSig E M a = 2 ^ (M + 1) := by
  have hmax : roundSig E M a ≤ 2 ^ (M + 1) := roundFin_significand (Nat.pos_of_ne_zero hn) hd
  obtain ⟨hnear, heven⟩ := roundSig_spec (E := E) (M := M) hd
  rw [F.overflowBound_eq, ← hx, ← le_div_iff₀ (by positivity)] at hge
  have hclose : 2 ^ (M + 1) ≤ roundSig E M a + 1 := by
    have hq : (2 : ℚ) ^ (M + 1) ≤ roundSig E M a + 1 := by
      have := (abs_le.1 hnear).1
      linarith
    exact_mod_cast hq
  have hnotLast : roundSig E M a + 1 ≠ 2 ^ (M + 1) := by
    intro hlast
    have hcast : (roundSig E M a : ℚ) + 1 = 2 ^ (M + 1) := by exact_mod_cast hlast
    have htie : |(roundSig E M a : ℚ) - a.toRat / 2 ^ (roundExp E a - M)| = 1 / 2 := by
      refine le_antisymm hnear ?_
      rw [abs_sub_comm]
      exact le_trans (by linarith) (le_abs_self _)
    have := heven htie
    rw [pow_succ] at hlast
    omega
  omega

/-- At the threshold and beyond it (R158) `RoundFin` overflows. -/
theorem roundFin_overflow (F : IeeeFormat E M) (hd : 0 < a.den)
    (hge : overflowBound E M ≤ a.toRat) : roundFin E M s a = none := by
  have hbig := F.two_zpow_bias_le_overflowBound.trans hge
  have hn : a.num ≠ 0 := by
    intro h0
    have hpos : (0 : ℚ) < 2 ^ ieeeBias E := by positivity
    rw [Ratio.toRat, h0, Nat.cast_zero, zero_div] at hbig
    linarith
  have hx : ieeeBias E ≤ roundExp E a := le_roundExp hn hd hbig
  have hemin : ieeeEmin E < ieeeBias E := by
    have := F.one_le_bias
    rw [ieeeEmin]
    omega
  rw [roundFin_eq hn]
  split
  next hcarry => exact finishWord_overflow F le_rfl (by omega)
  next hcarry =>
    have hne : ieeeBias E ≠ roundExp E a := fun h => hcarry (roundSig_carries F hn hd hge h.symm)
    exact finishWord_overflow F (two_pow_le_roundSig hn hd (hemin.trans_le hx).ne')
      (lt_of_le_of_ne hx hne)

end rounding

/-! ### The nearest word (R153) -/

/-- A natural number within one half of y is nearest to y among all of them, and another one is equally
near only at one half. -/
theorem abs_sub_le_of_half {k : ℕ} {y : ℚ} (hk : |k - y| ≤ 1 / 2) (j : ℕ) :
    |k - y| ≤ |j - y| ∧ (j ≠ k → |k - y| = |j - y| → |k - y| = 1 / 2) := by
  by_cases hj : j = k
  · rw [hj]
    exact ⟨le_rfl, fun h => absurd rfl h⟩
  · have hone : (1 : ℚ) ≤ |(j : ℚ) - k| := by
      have : (1 : ℤ) ≤ |(j : ℤ) - k| := Int.one_le_abs (by omega)
      exact_mod_cast this
    have htri : |(j : ℚ) - k| ≤ |j - y| + |k - y| := by
      rw [abs_sub_comm (k : ℚ) y]
      exact abs_sub_le _ _ _
    exact ⟨by linarith, fun _ h => by linarith⟩

/-- Distances in units of the last place. -/
theorem abs_units_sub {M : Nat} {x : ℤ} (j : ℕ) (a : ℚ) :
    |j * (2 : ℚ) ^ (x - M) - a| = |j - a / 2 ^ (x - M)| * 2 ^ (x - M) := by
  have hu : (0 : ℚ) < 2 ^ (x - M) := by positivity
  rw [← abs_of_pos hu, ← abs_mul, abs_of_pos hu, sub_mul, div_mul_cancel₀ _ hu.ne']

/-- The word of the significand nearest to a, even on a tie, is the word nearest to a: a finite value is a
number of units too, or lies below the binade in which a stands. -/
theorem WordOfUnits.nearestWord {E M s k p : Nat} {x : ℤ} {a : ℚ} (h : WordOfUnits E M s k x p)
    (hk : |k - a / (2 : ℚ) ^ (x - M)| ≤ 1 / 2)
    (heven : |k - a / (2 : ℚ) ^ (x - M)| = 1 / 2 → k % 2 = 0)
    (hbinade : x ≠ ieeeEmin E → (2 : ℚ) ^ x ≤ a) : NearestWord E M a p := by
  have hu : (0 : ℚ) < 2 ^ (x - M) := by positivity
  have hunits (j : ℕ) : |floatAbs E M p - a| ≤ |j * (2 : ℚ) ^ (x - M) - a| := by
    rw [h.value, abs_units_sub, abs_units_sub]
    exact mul_le_mul_of_nonneg_right (abs_sub_le_of_half hk j).1 hu.le
  refine ⟨h.finite, fun q _ => ?_⟩
  obtain ⟨j, hj⟩ | ⟨hx, hlt⟩ := floatAbs_units_or_lt E M q x
  · refine ⟨hj ▸ hunits j, fun hne htie => ?_⟩
    have hjk : j ≠ k := by
      rintro rfl
      exact hne (hj.trans h.value.symm)
    rw [h.value, hj, abs_units_sub, abs_units_sub] at htie
    rw [h.parity]
    exact heven ((abs_sub_le_of_half hk j).2 hjk (mul_right_cancel₀ hu.ne' htie))
  · have hle := hbinade hx.ne'
    have hfar : |floatAbs E M p - a| < |floatAbs E M q - a| := by
      calc |floatAbs E M p - a| ≤ |(2 ^ M : ℕ) * (2 : ℚ) ^ (x - M) - a| := hunits (2 ^ M)
        _ = a - 2 ^ x := by
          push_cast
          rw [two_pow_mul_unit, abs_of_nonpos (by linarith), neg_sub]
        _ < a - floatAbs E M q := by linarith
        _ = |floatAbs E M q - a| := by rw [abs_of_neg (by linarith), neg_sub]
    exact ⟨hfar.le, fun _ htie => absurd htie hfar.ne⟩

section nearest
variable {E M s : Nat} {a : Ratio}

/-- Zero is rounded to the zero of the sign. -/
theorem wordOf_zero_spec (F : IeeeFormat E M) (hs : s < 2) :
    NearestWord E M 0 (wordOf E M s 0 0) ∧ wordSign E M (wordOf E M s 0 0) = s := by
  obtain ⟨p, hp, hword⟩ := exists_finishWord (k := 0) F hs (Nat.two_pow_pos _) (fun _ => rfl) le_rfl
    (by have := F.one_le_bias; rw [ieeeEmin]; omega)
  obtain rfl : wordOf E M s 0 0 = p := by simpa [finishWord] using hp
  refine ⟨hword.nearestWord (by simp) (by simp) (fun h => absurd rfl h), hword.sign⟩

/-- `RoundFin` below the threshold (R153, R158): the finite word of the sign nearest to a. -/
theorem roundFin_nearest (F : IeeeFormat E M) (hs : s < 2) (hd : 0 < a.den)
    (hlt : a.toRat < overflowBound E M) :
    ∃ p, roundFin E M s a = some p ∧ NearestWord E M a.toRat p ∧ wordSign E M p = s := by
  by_cases hn : a.num = 0
  · have hzero : a.toRat = 0 := by simp [Ratio.toRat, hn]
    exact ⟨_, roundFin_zero hn, hzero ▸ wordOf_zero_spec F hs⟩
  · obtain ⟨p, hp, hword⟩ := exists_roundFin F hs hn hd hlt
    obtain ⟨hnear, heven⟩ := roundSig_spec (E := E) (M := M) hd
    exact ⟨p, hp, hword.nearestWord hnear heven (two_zpow_roundExp_le hn hd), hword.sign⟩

/-- A word nearest to the value of a finite word has that value. -/
theorem NearestWord.floatAbs_eq {p q : Nat} (h : NearestWord E M (floatAbs E M q) p)
    (hq : FiniteWord E M q) : floatAbs E M p = floatAbs E M q := by
  have hle := (h.2 q hq).1
  rw [sub_self, abs_zero, abs_nonpos_iff] at hle
  exact sub_eq_zero.1 hle

/-- `RoundFin` does not change the value of a finite word (R155). -/
theorem roundFin_of_finiteWord {q : Nat} (F : IeeeFormat E M) (hd : 0 < a.den)
    (hq : FiniteWord E M q) (ha : a.toRat = floatAbs E M q) :
    roundFin E M (wordSign E M q) a = some q := by
  obtain ⟨p, hp, hnear, hsign⟩ := roundFin_nearest F (wordSign_lt E M q) hd
    (ha ▸ hq.floatAbs_lt_overflowBound F)
  rw [ha] at hnear
  rw [hp, hnear.1.eq_of_floatAbs_eq hq hsign (hnear.floatAbs_eq hq)]

end nearest

/-! ### The open NaN conversions (R156) -/

/-- The leading mantissa bits with the quiet bit set fit the mantissa and are at least the quiet bit. -/
theorem quietMan_bounds {x M : Nat} (hM : 1 ≤ M) (hx : x < 2 ^ M) :
    2 ^ (M - 1) ≤ x ||| 2 ^ (M - 1) ∧ x ||| 2 ^ (M - 1) < 2 ^ M :=
  ⟨Nat.right_le_or, Nat.or_lt_two_pow hx (Nat.pow_lt_pow_right one_lt_two (by omega))⟩

/-- A word with all exponent bits and a mantissa that is not zero is a NaN. -/
theorem nanWord_wordOf {E M s m : Nat} (hs : s < 2) (hm : m < 2 ^ M) (hpos : m ≠ 0) :
    NanWord E M (wordOf E M s (2 ^ E - 1) m) := by
  have he : 2 ^ E - 1 < 2 ^ E := Nat.sub_lt (Nat.two_pow_pos E) one_pos
  obtain ⟨-, hexp, hman⟩ := wordOf_fields hs he hm
  exact ⟨wordOf_lt hs he hm, hexp, hman.symm ▸ hpos⟩

/-- Cutting low mantissa bits off a word leaves the word of the shorter format (R190, R193). -/
theorem wordOf_div_two_pow (E M k s e m : Nat) :
    wordOf E (M + k) s e m / 2 ^ k = wordOf E M s e (m / 2 ^ k) := by
  have h : wordOf E (M + k) s e m = m + (s * 2 ^ (E + M) + e * 2 ^ M) * 2 ^ k := by
    rw [wordOf, ← Nat.add_assoc, pow_add 2 (E + M), pow_add 2 M]
    ring
  rw [h, Nat.add_mul_div_right _ _ (Nat.two_pow_pos k), Nat.add_comm, wordOf]

theorem nanNarrowLaw_iff {E M p : Nat} (hE : E ≠ 0) :
    nanNarrowLaw E M p = true ↔
      NanWord E M p ∧ (E = 8 ∧ M = 23 → classOf 8 7 (p / 2 ^ 16) = .nan) := by
  rw [nanNarrowLaw, NanWord, ← classOf_nan hE]
  simp only [Bool.and_eq_true, Bool.or_eq_true, Bool.not_eq_true', decide_eq_true_eq, beq_iff_eq,
    Bool.and_eq_false_iff, beq_eq_false_iff_ne]
  tauto

theorem nanWidenLaw_iff {p : Nat} : nanWidenLaw p = true ↔ NanWord 11 52 p := by
  rw [nanWidenLaw, NanWord, ← classOf_nan (by decide)]
  simp

/-- The default `NaNNarrow` keeps the law of R156. -/
theorem nanNarrowLaw_default {E M : Nat} (F : IeeeFormat E M) (d : Nat) :
    nanNarrowLaw E M (defaultNanNarrow E M d) = true := by
  have hlead : wordMan 52 d / 2 ^ (52 - M) < 2 ^ M := by
    rw [Nat.div_lt_iff_lt_mul (Nat.two_pow_pos _), ← pow_add, Nat.add_sub_cancel' F.man_le]
    exact wordMan_lt 52 d
  obtain ⟨hquiet, hlt⟩ := quietMan_bounds F.one_le_man hlead
  have hsign := wordSign_lt 11 52 d
  refine (nanNarrowLaw_iff F.exp_ne_zero).2 ⟨nanWord_wordOf hsign hlt
    (Nat.two_pow_pos _ |>.trans_le hquiet).ne', ?_⟩
  rintro ⟨rfl, rfl⟩
  rw [defaultNanNarrow, wordOf_div_two_pow 8 7 16]
  obtain ⟨hp, hnan⟩ := nanWord_wordOf (E := 8) (M := 7) hsign
    (m := (wordMan 52 d / 2 ^ (52 - 23) ||| 2 ^ (23 - 1)) / 2 ^ 16) (by omega) (by omega)
  exact (classOf_nan (by decide)).2 hnan

/-- The default `NaNWiden` keeps the law of R156. -/
theorem nanWidenLaw_default {E M : Nat} (F : IeeeFormat E M) (p : Nat) :
    nanWidenLaw (defaultNanWiden E M p) = true := by
  have hlead : wordMan M p * 2 ^ (52 - M) < 2 ^ 52 := by
    calc wordMan M p * 2 ^ (52 - M) < 2 ^ M * 2 ^ (52 - M) := by
          gcongr
          exact wordMan_lt M p
      _ = 2 ^ 52 := by rw [← pow_add, Nat.add_sub_cancel' F.man_le]
  obtain ⟨hquiet, hlt⟩ := quietMan_bounds (M := 52) (by decide) hlead
  exact nanWidenLaw_iff.2 (nanWord_wordOf (E := 11) (wordSign_lt E M p) hlt
    (Nat.two_pow_pos _ |>.trans_le hquiet).ne')

/-- `NaNNarrow` in force keeps the law of R156. -/
theorem nanNarrow_lawful {E M : Nat} (F : IeeeFormat E M) (d : Nat) :
    nanNarrowLaw E M (nanNarrow E M d) = true := by
  obtain ⟨heq, hlaw⟩ | heq := nanNarrow_cases E M d
  · rw [heq, hlaw]
  · rw [heq, nanNarrowLaw_default F]

theorem nanNarrow_nan {E M : Nat} (F : IeeeFormat E M) (d : Nat) : NanWord E M (nanNarrow E M d) :=
  ((nanNarrowLaw_iff F.exp_ne_zero).1 (nanNarrow_lawful F d)).1

/-- The upper half of a binary32 `NaNNarrow` is a NaN of the 16-bit truncated layout (R193, log entry 12). -/
theorem nanNarrow_upperHalf_nan (d : Nat) : NanWord 8 7 (nanNarrow 8 23 d / 2 ^ 16) := by
  obtain ⟨⟨hlt, -⟩, hupper⟩ :=
    (nanNarrowLaw_iff (by decide)).1 (nanNarrow_lawful ieeeFormat_binary32 d)
  exact (classOf_eq_nan_iff (by decide) (by omega)).1 (hupper ⟨rfl, rfl⟩)

/-- `NaNWiden` in force gives a NaN of binary64 (R156). -/
theorem nanWiden_nan {E M : Nat} (F : IeeeFormat E M) (p : Nat) : NanWord 11 52 (nanWiden E M p) := by
  rw [← nanWidenLaw_iff]
  obtain ⟨heq, hlaw⟩ | heq := nanWiden_cases E M p
  · rw [heq, hlaw]
  · rw [heq, nanWidenLaw_default F]

/-! ### The formats in force (R205, R206) -/

theorem fmtA_cases :
    (miniLaw 4 3 fmtA = true ∧ noInfinity fmtA = true) ∨ fmtA = defaultA := by
  unfold fmtA
  split
  next h => exact .inl (by simpa using h)
  next => exact .inr rfl

theorem fmtB_cases : miniLaw 5 2 fmtB = true ∨ fmtB = defaultB := by
  unfold fmtB
  split
  next h => exact .inl h
  next => exact .inr rfl

theorem defaultA_lawful : miniLaw 4 3 defaultA = true ∧ noInfinity defaultA = true := by decide

theorem defaultB_lawful : miniLaw 5 2 defaultB = true := by decide

theorem alternativeA_lawful : miniLaw 4 3 alternativeA = true ∧ noInfinity alternativeA = true := by
  decide

theorem alternativeB_lawful : miniLaw 5 2 alternativeB = true := by decide

theorem fmtA_lawful : miniLaw 4 3 fmtA = true ∧ noInfinity fmtA = true :=
  fmtA_cases.elim id fun h => h.symm ▸ defaultA_lawful

theorem fmtB_lawful : miniLaw 5 2 fmtB = true :=
  fmtB_cases.elim id fun h => h.symm ▸ defaultB_lawful

/-! ### Narrowing (R154) -/

section narrow
variable {E M d : Nat}

theorem narrow_of_nan (hd : NanWord 11 52 d) : narrow E M d = some (nanNarrow E M d) := by
  rw [narrow, (classOf_eq_nan_iff (by decide) hd.1).2 hd]

theorem narrow_of_infinite (hd : InfiniteWord 11 52 d) :
    narrow E M d = some (infinityWord E M (wordSign 11 52 d)) := by
  rw [narrow, (classOf_eq_infinite_iff (by decide) hd.1).2 hd]

theorem narrow_of_finite (hd : FiniteWord 11 52 d) :
    narrow E M d = roundFin E M (wordSign 11 52 d) (absOf 11 52 d) := by
  have hnan := mt (classOf_eq_nan_iff (by decide) hd.1).1 fun h => h.not_finite hd
  have hinf := mt (classOf_eq_infinite_iff (by decide) hd.1).1 fun h => h.not_finite hd
  unfold narrow
  split
  next h => exact absurd h hnan
  next h => exact absurd h hinf
  next => rfl

/-- A finite word at the threshold or beyond it does not narrow (R158). -/
theorem narrow_overflow (F : IeeeFormat E M) (hd : FiniteWord 11 52 d)
    (hge : overflowBound E M ≤ floatAbs 11 52 d) : narrow E M d = none := by
  rw [narrow_of_finite hd]
  exact roundFin_overflow F (absOf_den_pos 11 52 d) (by rwa [absOf_toRat])

/-- Any other word narrows as the statements say (R153, R154, R156), to a word of the format. -/
theorem exists_narrow (F : IeeeFormat E M) (hd : d < 2 ^ (1 + 11 + 52))
    (hfits : ¬ (FiniteWord 11 52 d ∧ overflowBound E M ≤ floatAbs 11 52 d)) :
    ∃ p, narrow E M d = some p ∧ p < 2 ^ (1 + E + M) ∧ NarrowsTo E M d p := by
  obtain hnan | hinf | hfin := word_cases hd
  · have hp := nanNarrow_nan F d
    exact ⟨_, narrow_of_nan hnan, hp.1, fun _ => hp, fun h => absurd h hnan.not_infinite,
      fun h => absurd h hnan.not_finite⟩
  · have hp := infinityWord_spec (E := E) (M := M) (wordSign_lt 11 52 d)
    exact ⟨_, narrow_of_infinite hinf, hp.1.1, fun h => absurd hinf h.not_infinite, fun _ => hp,
      fun h => absurd h hinf.not_finite⟩
  · have hlt : floatAbs 11 52 d < overflowBound E M := not_le.1 fun hge => hfits ⟨hfin, hge⟩
    rw [narrow_of_finite hfin]
    obtain ⟨p, hp, hnear⟩ := roundFin_nearest F (wordSign_lt 11 52 d) (absOf_den_pos 11 52 d)
      (by rwa [absOf_toRat])
    rw [absOf_toRat] at hnear
    exact ⟨p, hp, hnear.1.1.1, fun h => absurd hfin h.not_finite, fun h => absurd hfin h.not_finite,
      fun _ => hnear⟩

end narrow

/-! ### Widening (R155) -/

section widen
variable {E M p : Nat}

theorem widen_of_nan (hE : E ≠ 0) (hp : NanWord E M p) : widen E M p = nanWiden E M p := by
  rw [widen, (classOf_eq_nan_iff hE hp.1).2 hp]

theorem widen_of_infinite (hE : E ≠ 0) (hp : InfiniteWord E M p) :
    widen E M p = infinityWord 11 52 (wordSign E M p) := by
  rw [widen, (classOf_eq_infinite_iff hE hp.1).2 hp]

theorem widen_of_finite (hE : E ≠ 0) (hp : FiniteWord E M p) :
    widen E M p = exactDouble (wordSign E M p) (absOf E M p) := by
  have hnan := mt (classOf_eq_nan_iff hE hp.1).1 fun h => h.not_finite hp
  have hinf := mt (classOf_eq_infinite_iff hE hp.1).1 fun h => h.not_finite hp
  unfold widen
  split
  next h => exact absurd h hnan
  next h => exact absurd h hinf
  next => rfl

/-- Widening a finite word is exact (R155): `RoundFin` finds the binary64 word of the same value. -/
theorem widen_finite_spec (F : IeeeFormat E M) (hp : FiniteWord E M p) :
    FiniteWord 11 52 (widen E M p) ∧ wordSign 11 52 (widen E M p) = wordSign E M p ∧
      floatAbs 11 52 (widen E M p) = floatAbs E M p := by
  obtain ⟨d, hd, hsign, hval⟩ := exists_binary64_word F (wordSign_lt E M p) hp
  have hround : roundFin 11 52 (wordSign E M p) (absOf E M p) = some d := by
    rw [← hsign]
    exact roundFin_of_finiteWord ieeeFormat_binary64 (absOf_den_pos E M p) hd
      (by rw [absOf_toRat, hval])
  rw [widen_of_finite F.exp_ne_zero hp, exactDouble, hround]
  exact ⟨hd, hsign, hval⟩

theorem widen_widensTo (F : IeeeFormat E M) (p : Nat) : WidensTo E M p (widen E M p) := by
  refine ⟨fun hnan => ?_, fun hinf => ?_, widen_finite_spec F⟩
  · rw [widen_of_nan F.exp_ne_zero hnan]
    exact nanWiden_nan F p
  · rw [widen_of_infinite F.exp_ne_zero hinf]
    exact infinityWord_spec (wordSign_lt E M p)

/-- A word widens to a binary64 word. -/
theorem widen_lt (F : IeeeFormat E M) (hp : p < 2 ^ (1 + E + M)) : widen E M p < 2 ^ 64 := by
  obtain ⟨hnan, hinf, hfin⟩ := widen_widensTo F p
  obtain h | h | h := word_cases hp
  · exact (hnan h).1
  · exact (hinf h).1.1
  · exact (hfin h).1.1

/-- Narrowing undoes widening (R155, R159). -/
theorem narrow_widen (F : IeeeFormat E M) (hp : p < 2 ^ (1 + E + M)) (hnan : ¬ NanWord E M p) :
    narrow E M (widen E M p) = some p := by
  obtain ⟨-, hinf, hfin⟩ := widen_widensTo F p
  obtain h | h | h := word_cases hp
  · exact absurd h hnan
  · obtain ⟨hd, hsign⟩ := hinf h
    rw [narrow_of_infinite hd, hsign, ← h.eq_infinityWord]
  · obtain ⟨hd, hsign, hval⟩ := hfin h
    rw [narrow_of_finite hd, hsign]
    exact roundFin_of_finiteWord F (absOf_den_pos _ _ _) h (by rw [absOf_toRat, hval])

end widen

/-! ### The commands of the IEEE family (R92, R96, R157, R158) -/

/-- The three lengths of the family (R92). -/
def FloatLen (n : Nat) : Prop := n = 16 ∨ n = 32 ∨ n = 64

theorem FloatLen.wholeField {n : Nat} (hn : FloatLen n) (e : Endian) : WholeField e n := fun _ => by
  obtain rfl | rfl | rfl := hn <;> rfl

theorem floatValue_lt {n p : Nat} (hn : FloatLen n) (hp : p < 2 ^ n) : floatValue n p < 2 ^ 64 := by
  obtain rfl | rfl | rfl := hn
  · exact widen_lt ieeeFormat_binary16 hp
  · exact widen_lt ieeeFormat_binary32 hp
  · exact hp

/-- The word of the value of a word is the word (R159). -/
theorem floatWord_floatValue {n p : Nat} (hn : FloatLen n) (hp : p < 2 ^ n)
    (h16 : n = 16 → ¬ NanWord 5 10 p) (h32 : n = 32 → ¬ NanWord 8 23 p) :
    floatWord n (floatValue n p) = some p := by
  obtain rfl | rfl | rfl := hn
  · exact narrow_widen ieeeFormat_binary16 hp (h16 rfl)
  · exact narrow_widen ieeeFormat_binary32 hp (h32 rfl)
  · rfl

theorem exec_decFloatOf (e : Endian) (len : Option Nat) (s : State) :
    exec (decFloatOf e len) s = runDec .float len s (decodeFloat e s.cfg.hostEndian) := by
  cases e <;> rfl

theorem exec_encFloatOf (e : Endian) (len : Option Nat) (s : State) :
    exec (encFloatOf e len) s =
      runEnc .float len s fun val => encodeFloat e s.cfg.hostEndian len val.flt := by
  cases e <;> rfl

section commands
variable {e : Endian} {len : Option Nat} {s : State}

theorem resolveLen_float_some {op : Op} {n : Nat} (hop : lenUse op .float ≠ .forb) (hn : FloatLen n) :
    resolveLen op .float (some n) = .ok () := by
  obtain rfl | rfl | rfl := hn <;> simp [resolveLen_some, hop, lenConstraint]

theorem resolveLen_dec_float (h : ∀ n, len = some n → FloatLen n) :
    resolveLen .dec .float len = .ok () := by
  cases len with
  | none => rfl
  | some n => exact resolveLen_float_some (by decide) (h n rfl)

/-- DEC with another length than the three answers InvalidLength (R92, R93). -/
theorem decFloat_invalidLength {n : Nat} (hn : ¬ FloatLen n) :
    AnswersError s (exec (decFloatOf e (some n)) s) .invalidLength := by
  have hrefused : resolveLen .dec .float (some n) = .error .invalidLength :=
    (resolveLen_eq_error_iff _ _ _).2 (by simpa [FloatLen, LengthRefused, not_or] using hn)
  rw [exec_decFloatOf, runDec_invalid _ _ _ hrefused]
  exact answersError_raise s _

/-- DEC of a view of another length than asked for answers InterpretError (R96). -/
theorem decFloat_disagrees {n : Nat} (hn : FloatLen n) (hne : n ≠ s.req.view.length) :
    AnswersError s (exec (decFloatOf e (some n)) s) .interpret := by
  have hdisagrees : viewAgrees .float (some n) s.req.view = .error .interpret := by
    rw [viewAgrees_eq, if_neg (by simp [hne])]
  rw [exec_decFloatOf, runDec_disagree _ _ _ (resolveLen_float_some (by decide) hn) hdisagrees]
  exact answersError_raise s _

/-- DEC of a view of another length than the three answers InterpretError (R157). -/
theorem decFloat_badView (hview : ¬ FloatLen s.req.view.length) :
    AnswersError s (exec (decFloatOf e none) s) .interpret := by
  have hcodec : decodeFloat e s.cfg.hostEndian s.req.view = .error .interpret := if_neg hview
  rw [exec_decFloatOf, runDec_eq _ _ _ rfl rfl, hcodec]
  exact answersError_raise s _

/-- DEC of an agreeing view answers the value of its word (R157). -/
theorem decFloat_answers (hview : FloatLen s.req.view.length) (hlen : LenFor len s.req.view.length) :
    AnswersValue s (exec (decFloatOf e len) s)
      (fltOf (floatValue s.req.view.length (fieldValue e s.cfg.hostEndian s.req.view))) := by
  have hstage1 : resolveLen .dec .float len = .ok () := resolveLen_dec_float fun n hn => by
    obtain rfl | rfl := hlen
    · nomatch hn
    · exact Option.some.inj hn ▸ hview
  have hagrees : viewAgrees .float len s.req.view = .ok () := by
    rw [viewAgrees_eq, if_pos ⟨hlen, .inl rfl⟩]
  have hcodec : decodeFloat e s.cfg.hostEndian s.req.view =
      .ok (fltOf (floatValue s.req.view.length (fieldValue e s.cfg.hostEndian s.req.view))) := by
    rw [← mag_order]
    exact if_pos hview
  rw [exec_decFloatOf, runDec_eq _ _ _ hstage1 hagrees, hcodec]
  exact answersValue_answerValue s _

/-- ENC without one of the three lengths answers InvalidLength (R92, R93). -/
theorem encFloat_invalidLength (hlen : ∀ n, len = some n → ¬ FloatLen n) :
    AnswersError s (exec (encFloatOf e len) s) .invalidLength := by
  have hrefused : resolveLen .enc .float len = .error .invalidLength := by
    cases len with
    | none => rfl
    | some n =>
      exact (resolveLen_eq_error_iff _ _ _).2
        (by simpa [FloatLen, LengthRefused, not_or] using hlen n rfl)
  rw [exec_encFloatOf, runEnc_invalid _ _ _ hrefused]
  exact answersError_raise s _

/-- ENC of a value that does not fit answers ValueError (R158). -/
theorem encFloat_valueError {n : Nat} (hn : FloatLen n) (hword : floatWord n s.req.val.flt.toNat = none) :
    AnswersError s (exec (encFloatOf e (some n)) s) .value := by
  have hcodec : encodeFloat e s.cfg.hostEndian (some n) s.req.val.flt = .error .value := by
    rw [encodeFloat, encodeWidth, Option.getD_some, hword]
  rw [exec_encFloatOf, runEnc_eq _ _ _ (resolveLen_float_some (by decide) hn), hcodec]
  exact answersError_raise s _

/-- ENC of a value that fits answers the ordered bits of its word (R158). -/
theorem encFloat_answers {n p : Nat} (hn : FloatLen n)
    (hword : floatWord n s.req.val.flt.toNat = some p) :
    AnswersBits s (exec (encFloatOf e (some n)) s) (order e s.cfg.hostEndian (toBits n p)) := by
  have hcodec : encodeFloat e s.cfg.hostEndian (some n) s.req.val.flt =
      .ok (order e s.cfg.hostEndian (toBits n p)) := by
    rw [encodeFloat, encodeWidth, Option.getD_some, hword]
  rw [exec_encFloatOf, runEnc_eq _ _ _ (resolveLen_float_some (by decide) hn), hcodec]
  exact answersBits_answerBits s _

/-- ENC of a value that fits answers a field of n bits whose value is its word. -/
theorem exists_encFloat_field {n p : Nat} (hn : FloatLen n)
    (hword : floatWord n s.req.val.flt.toNat = some p) (hp : p < 2 ^ n) :
    ∃ b : Bits, AnswersBits s (exec (encFloatOf e (some n)) s) b ∧ b.length = n ∧
      fieldValue e s.cfg.hostEndian b = p := by
  have hwhole : WholeField e (toBits n p).length := (toBits_length n p).symm ▸ hn.wholeField e
  refine ⟨_, encFloat_answers hn hword, by rw [order_length hwhole, toBits_length], ?_⟩
  rw [← mag_order, order_order hwhole, mag_toBits hp]

/-- ENC at a width below 64 answers the narrowed word of a value that fits its format (R154, R158). -/
theorem encFloat_narrows {n E M : Nat} (F : IeeeFormat E M) (hn : FloatLen n) (hwidth : n = 1 + E + M)
    (hword : ∀ d, floatWord n d = narrow E M d)
    (hfits : ¬ (FiniteWord 11 52 s.req.val.flt.toNat ∧
      overflowBound E M ≤ floatAbs 11 52 s.req.val.flt.toNat)) :
    ∃ b : Bits, AnswersBits s (exec (encFloatOf e (some n)) s) b ∧ b.length = n ∧
      NarrowsTo E M s.req.val.flt.toNat (fieldValue e s.cfg.hostEndian b) := by
  obtain ⟨p, hp, hlt, hnarrow⟩ := exists_narrow F s.req.val.flt.isLt hfits
  obtain ⟨b, hb, hblen, rfl⟩ :=
    exists_encFloat_field (e := e) hn ((hword _).trans hp) (hwidth ▸ hlt)
  exact ⟨b, hb, hblen, hnarrow⟩

/-- A DEC that succeeds had a view of one of the three lengths. -/
theorem floatLen_of_decFloat_ok {t : State} (hdec : exec (decFloatOf e none) s = .next t)
    (hok : t.rsp.status = 0) : FloatLen s.req.view.length := by
  by_contra hview
  exact (hdec ▸ decFloat_badView hview).status_ne_zero hok

/-- A view is the ordered bits of its field's value. -/
theorem order_toBits_fieldValue {h : ByteOrder} {v : Bits} (hv : WholeField e v.length) :
    order e h (toBits v.length (fieldValue e h v)) = v := by
  rw [← mag_order, ← order_length (h := h) hv, toBits_mag, order_order hv]

end commands

end Sys2Proof.Machine

/-! ## The IEEE float statements -/

namespace Sys2Proof.Proofs

open Sys2Proof.Machine

/-- Settles O37: narrowing undoes widening, and a view is the bits of its word in its byte order. -/
theorem floatCodecsRoundTrip : Obligations.FloatCodecsRoundTrip := by
  intro e s t s' hdec hval hok hcfg h16 h32
  have hview := floatLen_of_decFloat_ok hdec hok
  have hwhole := hview.wholeField e
  have hfield : fieldValue e s.cfg.hostEndian s.req.view < 2 ^ s.req.view.length := fieldValue_lt hwhole
  have hrval := (hdec ▸ decFloat_answers hview (.inl rfl)).rval_eq
  have hflt := Value.flt.inj (hval.symm.trans hrval)
  have hword := floatWord_floatValue hview hfield h16 h32
  rw [← Nat.mod_eq_of_lt (floatValue_lt hview hfield), ← BitVec.toNat_ofNat, ← hflt] at hword
  have henc := encFloat_answers (e := e) hview hword
  rwa [hcfg, order_toBits_fieldValue hwhole] at henc

/-- Settles O35: the value of a word is the word itself at 64 bits and an exact widening below. -/
theorem decFloatWidensExactly : Obligations.DecFloatWidensExactly := by
  refine fun e => ⟨hasWords_of_instrFields (fam := .float) (e := e) (fun _ => by cases e <;> rfl)
    (by cases e <;> rfl), fun s len => ⟨fun hview hlen => ?_, ?_, ?_, ?_⟩⟩
  · refine ⟨_, decFloat_answers hview hlen, ?_⟩
    have hfield := fieldValue_lt (h := s.cfg.hostEndian) (FloatLen.wholeField hview e)
    rw [BitVec.toNat_ofNat, Nat.mod_eq_of_lt (floatValue_lt hview hfield)]
    refine ⟨fun h64 => ?_, fun h32 => ?_, fun h16 => ?_⟩
    · rw [h64]; rfl
    · rw [h32]; exact widen_widensTo ieeeFormat_binary32 _
    · rw [h16]; exact widen_widensTo ieeeFormat_binary16 _
  · rintro n rfl ⟨h16, h32, h64⟩
    exact decFloat_invalidLength (by simp [FloatLen, h16, h32, h64])
  · rintro n rfl hn hne
    exact decFloat_disagrees hn hne
  · rintro rfl ⟨h16, h32, h64⟩
    exact decFloat_badView (by simp [FloatLen, h16, h32, h64])

/-- Settles O36: at 64 bits the word is the operand, and below it a value under the threshold is rounded to
the nearest word and no other value fits. -/
theorem encFloatRoundsToNearest : Obligations.EncFloatRoundsToNearest := by
  refine fun e => ⟨hasWords_of_instrFields (fam := .float) (e := e) (fun _ => by cases e <;> rfl)
    (by cases e <;> rfl), fun s len => ?_⟩
  refine ⟨?_, ?_, ?_, ?_, ?_, ?_⟩
  · rintro rfl
    exact exists_encFloat_field (.inr (.inr rfl)) rfl s.req.val.flt.isLt
  · rintro rfl hfits
    exact encFloat_narrows ieeeFormat_binary32 (.inr (.inl rfl)) rfl (fun _ => rfl) hfits
  · rintro rfl hfits
    exact encFloat_narrows ieeeFormat_binary16 (.inl rfl) rfl (fun _ => rfl) hfits
  · rintro rfl hfin hge
    exact encFloat_valueError (.inr (.inl rfl)) (narrow_overflow ieeeFormat_binary32 hfin hge)
  · rintro rfl hfin hge
    exact encFloat_valueError (.inl rfl) (narrow_overflow ieeeFormat_binary16 hfin hge)
  · rintro ⟨h16, h32, h64⟩
    refine encFloat_invalidLength ?_
    rintro n rfl (rfl | rfl | rfl)
    · exact h16 rfl
    · exact h32 rfl
    · exact h64 rfl

/-- Settles O38: the parameters are used where they keep the laws, and the defaults keep them. -/
theorem openParametersKeepTheirLaws : Obligations.OpenParametersKeepTheirLaws :=
  ⟨fun d _ => ⟨nanNarrow_nan ieeeFormat_binary16 d, nanNarrow_nan ieeeFormat_binary32 d,
      nanNarrow_upperHalf_nan d⟩,
    fun p _ => nanWiden_nan ieeeFormat_binary16 p, fun p _ => nanWiden_nan ieeeFormat_binary32 p,
    fmtA_lawful.1, fmtA_lawful.2, fmtB_lawful, defaultA_lawful.1, defaultA_lawful.2, defaultB_lawful,
    alternativeA_lawful.1, alternativeA_lawful.2, alternativeB_lawful⟩

end Sys2Proof.Proofs

/-! ## Lemmas of the bytes statements: bytes, their bits and the bytes commands (R92 to R100, R180 to R183) -/

namespace Sys2Proof.Machine

/-! ### The bits of a byte sequence (R41, R181) -/

/-- The bits of a byte sequence, eight a byte, byte 0 first (R181). -/
def byteBits (B : List Byte) : Bits := digitBits 8 (B.map BitVec.toNat)

/-- What ENC.bytes writes is the bits of its operand. -/
theorem encodeBytes_eq_byteBits {len : Option Nat} {B : List Byte} (h : LenFor len (8 * B.length)) :
    encodeBytes len B = .ok (byteBits B) := by
  rw [encodeBytes_eq, byteBits, digitBits, List.map_map]
  exact if_pos h

@[simp] theorem byteBits_length (B : List Byte) : (byteBits B).length = 8 * B.length := by
  simp [byteBits]

theorem byteBits_length_mod (B : List Byte) : (byteBits B).length % 8 = 0 := by simp

/-- Group j of the bits of a byte sequence is byte j. -/
theorem bigValue_groupAt_byteBits {B : List Byte} {j : Nat} {x : Byte} (h : B[j]? = some x) :
    bigValue (groupAt 8 j (byteBits B)) = x.toNat :=
  bigValue_groupAt_digitBits (by rw [List.getElem?_map, h, Option.map_some]) x.isLt

/-- The bytes of the bits of a byte sequence are the sequence (R183). -/
theorem bytesOf_byteBits (B : List Byte) : bytesOf (byteBits B) = B := by
  have hbyte : ∀ x ∈ B, BitVec.ofNat 8 (mag (toBits 8 x.toNat)) = x := fun x _ => by
    rw [mag_toBits x.isLt, BitVec.ofNat_toNat, BitVec.setWidth_eq]
  rw [bytesOf, byteBits, digitBits, groups_flatten (by decide) length_of_mem_map_toBits, List.map_map,
    List.map_map]
  exact (List.map_congr_left hbyte).trans B.map_id

/-- The numbers of the bytes of a sequence are the magnitudes of its groups (R180). -/
theorem map_toNat_bytesOf (v : Bits) : (bytesOf v).map BitVec.toNat = (groups 8 v).map mag := by
  rw [bytesOf, List.map_map]
  refine List.map_congr_left fun g hg => ?_
  have hlt : mag g < 2 ^ 8 := groups_width hg ▸ mag_lt g
  rw [Function.comp_apply, BitVec.toNat_ofNat, Nat.mod_eq_of_lt hlt]

/-- The bits of the bytes of a sequence of whole bytes are the sequence (R183). -/
theorem byteBits_bytesOf {v : Bits} (hv : v.length % 8 = 0) : byteBits (bytesOf v) = v := by
  rw [byteBits, map_toNat_bytesOf, digitBits_mag_groups hv]

/-- Byte j of a sequence of whole bytes is the magnitude of its group j (R180). -/
theorem toNat_of_bytesOf_getElem? {v : Bits} {j : Nat} {x : Byte} (hv : v.length % 8 = 0)
    (h : (bytesOf v)[j]? = some x) : x.toNat = bigValue (groupAt 8 j v) := by
  rw [← bigValue_groupAt_byteBits h, byteBits_bytesOf hv]

/-- The view with the zeros PAD puts at its end (R182). -/
def padded (v : Bits) : Bits := v ++ zeros (padCount v.length)

theorem padBytes_eq (v : Bits) : padBytes v = .byt (bytesOf (padded v)) := rfl

@[simp] theorem padded_length (v : Bits) : (padded v).length = v.length + padCount v.length := by
  simp [padded]

theorem padded_length_mod (v : Bits) : (padded v).length % 8 = 0 := by
  rw [padded_length]
  exact (padCount_spec v.length).2

/-- Whole bytes are not padded (R183). -/
theorem padded_of_whole {v : Bits} (hv : v.length % 8 = 0) : padded v = v := by
  simp [padded, padCount, hv]

/-! ### Bytes as hex digits and as the digits of a number (R183) -/

theorem groupAt_length {w j : Nat} {v : Bits} (h : w * (j + 1) ≤ v.length) :
    (groupAt w j v).length = w := by
  rw [Nat.mul_succ] at h
  rw [groupAt, List.length_take, List.length_drop]
  omega

/-- A group of 2 * w bits is two groups of w bits. -/
theorem groupAt_two_mul (w j : Nat) (v : Bits) :
    groupAt (2 * w) j v = groupAt w (2 * j) v ++ groupAt w (2 * j + 1) v := by
  have hskip : 2 * w * j = w * (2 * j) := by ring
  rw [groupAt, groupAt, groupAt, two_mul, List.take_add, List.drop_drop, ← two_mul, hskip, Nat.mul_succ]

/-- The halves of a group of 2 * w bits are the quotient and the remainder of its magnitude by 2^w. -/
theorem bigValue_groupAt_halves {w j : Nat} {v : Bits} (h : 2 * w * (j + 1) ≤ v.length) :
    bigValue (groupAt w (2 * j) v) = bigValue (groupAt (2 * w) j v) / 2 ^ w ∧
      bigValue (groupAt w (2 * j + 1) v) = bigValue (groupAt (2 * w) j v) % 2 ^ w := by
  have hlen : (groupAt w (2 * j + 1) v).length = w := groupAt_length (by linarith)
  have hlow : mag (groupAt w (2 * j + 1) v) < 2 ^ w := by
    have hlt := mag_lt (groupAt w (2 * j + 1) v)
    rwa [hlen] at hlt
  simp only [← mag_eq_bigValue, groupAt_two_mul, mag_append, hlen]
  refine ⟨?_, (Nat.mul_add_mod_of_lt hlow).symm⟩
  rw [Nat.mul_comm (mag _), Nat.mul_add_div (by positivity), Nat.div_eq_of_lt hlow, Nat.add_zero]

/-- The hex digits of byte j of whole bytes: digit 2j is its high half, digit 2j + 1 its low half. -/
theorem digitString_four_of_byte {v : Bits} {j : Nat} {x : Byte} (hv : v.length % 8 = 0)
    (h : (bytesOf v)[j]? = some x) :
    (digitString 4 v)[2 * j]? = hexAlphabet[x.toNat / 16]? ∧
      (digitString 4 v)[2 * j + 1]? = hexAlphabet[x.toNat % 16]? := by
  have hj : j < v.length / 8 := by
    rw [← bytesOf_length]
    exact (List.getElem?_eq_some_iff.1 h).1
  obtain ⟨hhigh, hlow⟩ := bigValue_groupAt_halves (w := 4) (j := j) (v := v) (by omega)
  rw [← toNat_of_bytesOf_getElem? hv h] at hhigh hlow
  have hx := x.isLt
  rw [digitString_getElem? (by rw [digitString_length]; omega),
    digitString_getElem? (by rw [digitString_length]; omega), hhigh, hlow,
    hexAlphabet_getElem? _ (by omega), hexAlphabet_getElem? _ (by omega)]
  exact ⟨rfl, rfl⟩

/-- The magnitude of digits of w bits put together is their number to base 2^w, digit 0 most
significant. -/
theorem mag_digitBits {w : Nat} {xs : List Nat} (hxs : ∀ x ∈ xs, x < 2 ^ w) :
    mag (digitBits w xs) = Nat.ofDigits (2 ^ w) xs.reverse := by
  induction xs with
  | nil => rfl
  | cons x xs ih =>
    obtain ⟨hx, htail⟩ := List.forall_mem_cons.1 hxs
    have hsplit : digitBits w (x :: xs) = toBits w x ++ digitBits w xs := rfl
    rw [hsplit, mag_append, mag_toBits hx, ih htail, List.reverse_cons, Nat.ofDigits_append,
      Nat.ofDigits_singleton, List.length_reverse, digitBits_length, ← pow_mul]
    ring

/-- The magnitude of whole bytes is their number to base 256, byte 0 most significant. -/
theorem bigValue_eq_ofDigits_bytesOf {v : Bits} (hv : v.length % 8 = 0) :
    bigValue v = Nat.ofDigits 256 ((bytesOf v).reverse.map BitVec.toNat) := by
  have hlt : ∀ x ∈ (bytesOf v).map BitVec.toNat, x < 2 ^ 8 := by
    rw [List.forall_mem_map]
    exact fun x _ => x.isLt
  have hmag := mag_digitBits hlt
  rwa [← byteBits, byteBits_bytesOf hv, mag_eq_bigValue, ← List.map_reverse] at hmag

/-! ### The commands of the bytes family (R92, R96, R180 to R182) -/

/-- Stage 1 of DEC and ENC accepts the lengths of whole bytes (R93). -/
theorem resolveLen_bytes_ok {op : Op} {len : Option Nat} (hop : lenUse op .bytes = .opt)
    (h : WholeDigits 8 len) : resolveLen op .bytes len = .ok () := by
  cases len with
  | none => simp [resolveLen_none, hop]
  | some n => simp [resolveLen_some, hop, lenConstraint, h n rfl]

/-- Stage 1 refuses any other length (R93). -/
theorem resolveLen_bytes_error {op : Op} {n : Nat} (h : n % 8 ≠ 0) :
    resolveLen op .bytes (some n) = .error .invalidLength := by
  simp [resolveLen_some, lenConstraint, h]

theorem exec_decBytes (len : Option Nat) (s : State) :
    exec (.decBytes len) s = runDec .bytes len s decodeBytes := rfl

theorem exec_encBytes (len : Option Nat) (s : State) :
    exec (.encBytes len) s = runEnc .bytes len s fun x => encodeBytes len x.byt := rfl

theorem exec_padBytes (len : Option Nat) (s : State) :
    exec (.padBytes len) s = runPad .bytes len s padBytes := rfl

section bytesCommands
variable {len : Option Nat} {s : State}

/-! DEC, in the order of its checks (R100, R180). -/

theorem decBytes_invalidLength {n : Nat} (h : n % 8 ≠ 0) (s : State) :
    AnswersError s (exec (.decBytes (some n)) s) .invalidLength := by
  rw [exec_decBytes, runDec_invalid _ _ _ (resolveLen_bytes_error h)]
  exact answersError_raise s _

/-- DEC of a view of another length answers InterpretError (R96). -/
theorem decBytes_disagrees (hwhole : WholeDigits 8 len) (hlen : ¬ LenFor len s.req.view.length) :
    AnswersError s (exec (.decBytes len) s) .interpret := by
  have hdisagrees : viewAgrees .bytes len s.req.view = .error .interpret := by
    rw [viewAgrees_eq, if_neg fun h => hlen h.1]
  rw [exec_decBytes, runDec_disagree _ _ _ (resolveLen_bytes_ok rfl hwhole) hdisagrees]
  exact answersError_raise s _

/-- DEC of a view with a part of a byte answers ValueError (R180). -/
theorem decBytes_partialByte (hview : s.req.view.length % 8 ≠ 0) :
    AnswersError s (exec (.decBytes none) s) .value := by
  rw [exec_decBytes, runDec_eq _ _ _ rfl rfl, decodeBytes, if_pos hview]
  exact answersError_raise s _

/-- DEC of whole bytes that agree answers them (R180). -/
theorem decBytes_answers (hview : s.req.view.length % 8 = 0) (hlen : LenFor len s.req.view.length) :
    AnswersValue s (exec (.decBytes len) s) (.byt (bytesOf s.req.view)) := by
  have hstage1 : resolveLen .dec .bytes len = .ok () :=
    resolveLen_bytes_ok rfl (wholeDigits_of_lenFor hlen hview)
  have hagrees : viewAgrees .bytes len s.req.view = .ok () := by
    rw [viewAgrees_eq, if_pos ⟨hlen, .inl rfl⟩]
  rw [exec_decBytes, runDec_eq _ _ _ hstage1 hagrees, decodeBytes, if_neg (not_not.2 hview)]
  exact answersValue_answerValue s _

/-- A DEC without a length that succeeds had a view of whole bytes. -/
theorem whole_of_decBytes_ok {t : State} (hdec : exec (.decBytes none) s = .next t)
    (hok : t.rsp.status = 0) : s.req.view.length % 8 = 0 := by
  by_contra hview
  exact (hdec ▸ decBytes_partialByte hview).status_ne_zero hok

/-! ENC, in the order of its checks (R100, R181). -/

theorem encBytes_invalidLength {n : Nat} (h : n % 8 ≠ 0) (s : State) :
    AnswersError s (exec (.encBytes (some n)) s) .invalidLength := by
  rw [exec_encBytes, runEnc_invalid _ _ _ (resolveLen_bytes_error h)]
  exact answersError_raise s _

/-- ENC of a byte sequence of another length answers ValueError (R181). -/
theorem encBytes_disagrees (hwhole : WholeDigits 8 len) (hlen : ¬ LenFor len (8 * s.req.val.byt.length)) :
    AnswersError s (exec (.encBytes len) s) .value := by
  have hcodec : encodeBytes len s.req.val.byt = .error .value := by
    rw [encodeBytes_eq]
    exact if_neg hlen
  rw [exec_encBytes, runEnc_eq _ _ _ (resolveLen_bytes_ok rfl hwhole), hcodec]
  exact answersError_raise s _

/-- ENC of a byte sequence whose length agrees answers its bits (R181). -/
theorem encBytes_answers (hlen : LenFor len (8 * s.req.val.byt.length)) :
    AnswersBits s (exec (.encBytes len) s) (byteBits s.req.val.byt) := by
  have hstage1 : resolveLen .enc .bytes len = .ok () :=
    resolveLen_bytes_ok rfl (wholeDigits_of_lenFor hlen (Nat.mul_mod_right 8 _))
  rw [exec_encBytes, runEnc_eq _ _ _ hstage1, encodeBytes_eq_byteBits hlen]
  exact answersBits_answerBits s _

/-! PAD (R182). -/

/-- PAD with an explicit length answers InvalidLength (R92, R182). -/
theorem padBytes_invalidLength (n : Nat) (s : State) :
    AnswersError s (exec (.padBytes (some n)) s) .invalidLength := by
  obtain ⟨hexec, -⟩ | ⟨-, hstage1⟩ := runPad_cases .bytes (some n) s padBytes
  · rw [exec_padBytes, hexec]
    exact answersError_raise s _
  · nomatch hstage1

/-- PAD answers the bytes of the padded view (R182). -/
theorem padBytes_answers (s : State) :
    AnswersValue s (exec (.padBytes none) s) (.byt (bytesOf (padded s.req.view))) := by
  obtain ⟨-, hstage1⟩ | ⟨hexec, -⟩ := runPad_cases .bytes none s padBytes
  · nomatch hstage1
  · rw [exec_padBytes, hexec, padBytes_eq]
    exact answersValue_answerValue s _

/-! ### DEC, ENC and PAD together (R183) -/

/-- DEC of the bits of a byte sequence answers the sequence. -/
theorem decBytes_answers_of_byteBits {B : List Byte} (hview : s.req.view = byteBits B) :
    AnswersValue s (exec (.decBytes none) s) (.byt B) := by
  have hwhole : s.req.view.length % 8 = 0 := hview ▸ byteBits_length_mod B
  have hdec := decBytes_answers hwhole (.inl rfl)
  rwa [hview, bytesOf_byteBits] at hdec

/-- ENC of the bytes that a command answered for whole bytes v answers v. -/
theorem encBytes_of_answered {t s' : State} {v : Bits} (hv : v.length % 8 = 0)
    (hval : .byt s'.req.val.byt = t.rsp.rval) (h : AnswersValue s (.next t) (.byt (bytesOf v))) :
    AnswersBits s' (exec (.encBytes none) s') v := by
  have hbyt : s'.req.val.byt = bytesOf v := Value.byt.inj (hval.trans h.rval_eq)
  have henc := encBytes_answers (s := s') (.inl rfl)
  rwa [hbyt, byteBits_bytesOf hv] at henc

/-- Two answers of one command carry the same value. -/
theorem AnswersValue.value_eq {o : StepOutcome} {v w : Value} (hv : AnswersValue s o v)
    (hw : AnswersValue s o w) : v = w := by
  obtain ⟨t, rfl, -, -, hrval, -⟩ := hv
  exact hrval.symm.trans hw.rval_eq

/-- Two commands that answer a value v both answer the same values. -/
theorem answersValue_congr {o o' : StepOutcome} {v : Value} (h : AnswersValue s o v)
    (h' : AnswersValue s o' v) (w : Value) : AnswersValue s o w ↔ AnswersValue s o' w :=
  ⟨fun hw => h.value_eq hw ▸ h', fun hw => h'.value_eq hw ▸ h⟩

end bytesCommands

end Sys2Proof.Machine

/-! ## The bytes statements -/

namespace Sys2Proof.Proofs

open Sys2Proof.Machine

/-- Settles O47: whole bytes are read group by group, and each failing length stops at its own check. -/
theorem decBytesExtractsWholeBytes : Obligations.DecBytesExtractsWholeBytes := by
  refine ⟨hasWords_of_instrFields (fun _ => rfl) rfl,
    fun s len => ⟨fun hview hlen => ⟨_, decBytes_answers hview hlen, ?_,
      fun j x hx => toNat_of_bytesOf_getElem? hview hx⟩, ?_, ?_, ?_⟩⟩
  · rw [bytesOf_length, Nat.mul_div_cancel' (Nat.dvd_of_mod_eq_zero hview)]
  · rintro n rfl hn
    exact decBytes_invalidLength hn s
  · rintro n rfl hn hne
    refine decBytes_disagrees (fun m hm => Option.some.inj hm ▸ hn) ?_
    simpa [LenFor] using hne
  · rintro rfl hview
    exact decBytes_partialByte hview

/-- Settles O48: the bits of a byte sequence have its bytes as groups, and each failing length stops at its
own check. -/
theorem encBytesWritesEightBitsAByte : Obligations.EncBytesWritesEightBitsAByte := by
  refine ⟨hasWords_of_instrFields (fun _ => rfl) rfl,
    fun s len => ⟨fun hlen => ⟨_, encBytes_answers hlen, byteBits_length _,
      fun j x hx => bigValue_groupAt_byteBits hx⟩, ?_, ?_⟩⟩
  · rintro n rfl hn
    exact encBytes_invalidLength hn s
  · rintro n rfl hn hne
    refine encBytes_disagrees (fun m hm => Option.some.inj hm ▸ hn) ?_
    simpa [LenFor] using hne

/-- Settles O49: the padded view is whole bytes, and they are what PAD answers. -/
theorem padBytesPadsAtTheEnd : Obligations.PadBytesPadsAtTheEnd := by
  refine ⟨hasWords_of_instrFields (fun _ => rfl) rfl,
    fun s => ⟨⟨_, padCount s.req.view.length, padBytes_answers s, (padCount_spec _).1, ?_,
      fun j x hx => toNat_of_bytesOf_getElem? (padded_length_mod _) hx⟩,
      fun n => padBytes_invalidLength n s⟩⟩
  rw [bytesOf_length, Nat.mul_div_cancel' (Nat.dvd_of_mod_eq_zero (padded_length_mod _)), padded_length]

/-- Settles O50: a byte sequence and its bits determine each other, PAD answers the bytes of the padded
view, and a byte is two hex digits and one digit to base 256. -/
theorem bytesCodecLaws : Obligations.BytesCodecLaws := by
  intro s t s' hok
  refine ⟨fun henc hview => ?_, fun hdec hval => ?_, fun hwhole => ?_, fun hpad hval => ?_,
    fun B hdec hrval => ?_⟩
  · exact decBytes_answers_of_byteBits (hview.trans (henc ▸ encBytes_answers (.inl rfl)).res_eq)
  · have hwhole := whole_of_decBytes_ok hdec hok
    exact encBytes_of_answered hwhole hval (hdec ▸ decBytes_answers hwhole (.inl rfl))
  · have hpad := padBytes_answers s
    rw [padded_of_whole hwhole] at hpad
    exact answersValue_congr hpad (decBytes_answers hwhole (.inl rfl))
  · exact encBytes_of_answered (padded_length_mod _) hval (hpad ▸ padBytes_answers s)
  · have hwhole := whole_of_decBytes_ok hdec hok
    have hbytes : B = bytesOf s.req.view :=
      Value.byt.inj (hrval.symm.trans (hdec ▸ decBytes_answers hwhole (.inl rfl)).rval_eq)
    subst hbytes
    refine ⟨⟨_, stringFamily_hex.dec_answers (by omega) (.inl rfl),
      fun j x hx => digitString_four_of_byte hwhole hx⟩, fun hne => ?_⟩
    have hview : s.req.view ≠ [] := fun h => hne (by rw [h]; rfl)
    have hdecUint := integerFamily_uint.dec_answers (e := .be) hview (fun _ => hwhole) (.inl rfl)
    have hvalue : fieldValue .be s.cfg.hostEndian s.req.view = bigValue s.req.view := rfl
    rwa [hvalue, bigValue_eq_ofDigits_bytesOf hwhole, Nat.coe_ofDigits, Nat.cast_ofNat] at hdecUint

end Sys2Proof.Proofs

/-! ## Lemmas of the truncated float statements: magnitude codes, rounding to the upper half and the commands
(R96, R152, R190 to R194) -/

namespace Sys2Proof.Machine

/-! ### Magnitude codes: the words of a sign in the order of their values (R152, R207) -/

/-- The significand of the magnitude code g of a format with M mantissa bits. -/
def codeSig (M g : Nat) : Nat := if g / 2 ^ M = 0 then g % 2 ^ M else 2 ^ M + g % 2 ^ M

/-- The exponent of the magnitude code g: a subnormal code has that of the least normal one. -/
def codeExp (M : Nat) (bias : ℤ) (g : Nat) : ℤ := max ((g / 2 ^ M : ℕ) : ℤ) 1 - bias

/-- The value of the magnitude code g; no code is special here, so the codes have no end. -/
def codeAbs (M : Nat) (bias : ℤ) (g : Nat) : ℚ := codeSig M g * (2 : ℚ) ^ (codeExp M bias g - M)

section codes
variable {M g : Nat} {bias : ℤ}

theorem codeSig_lt (M g : Nat) : codeSig M g < 2 ^ (M + 1) := by
  have hm := Nat.mod_lt g (Nat.two_pow_pos M)
  rw [codeSig, pow_succ]
  split <;> omega

theorem one_sub_bias_le_codeExp (M g : Nat) (bias : ℤ) : 1 - bias ≤ codeExp M bias g := by
  rw [codeExp]
  omega

theorem codeExp_le {n : Nat} (hg : g / 2 ^ M ≤ n) (hn : 1 ≤ n) : codeExp M bias g ≤ n - bias := by
  rw [codeExp]
  omega

/-- A code has the parity of its significand. -/
theorem codeSig_mod_two (hM : 1 ≤ M) (g : Nat) : codeSig M g % 2 = g % 2 := by
  have hdvd : 2 ∣ 2 ^ M := dvd_pow_self 2 (Nat.one_le_iff_ne_zero.1 hM)
  have hmod : g % 2 ^ M % 2 = g % 2 := Nat.mod_mod_of_dvd g hdvd
  rw [codeSig]
  split
  · exact hmod
  · rw [Nat.add_mod, Nat.mod_eq_zero_of_dvd hdvd, hmod, Nat.zero_add, Nat.mod_mod]

/-- The next code is worth one unit more, also across the end of a binade. -/
theorem codeAbs_succ (M : Nat) (bias : ℤ) (g : Nat) :
    codeAbs M bias (g + 1) = (codeSig M g + 1) * (2 : ℚ) ^ (codeExp M bias g - M) := by
  have hsplit := Nat.div_add_mod g (2 ^ M)
  have hsplit' := Nat.div_add_mod (g + 1) (2 ^ M)
  by_cases hend : 2 ^ M ∣ g + 1
  · have hmod : (g + 1) % 2 ^ M = 0 := Nat.mod_eq_zero_of_dvd hend
    rw [hmod, Nat.succ_div_of_dvd hend, Nat.mul_succ] at hsplit'
    have hlast : ((g % 2 ^ M : ℕ) : ℚ) + 1 = 2 ^ M := by
      have : g % 2 ^ M + 1 = 2 ^ M := by omega
      exact_mod_cast this
    rw [codeAbs, codeSig, codeSig, codeExp, codeExp, hmod, Nat.succ_div_of_dvd hend,
      if_neg (Nat.succ_ne_zero _)]
    generalize g / 2 ^ M = e
    split
    next hzero => simp [hzero, hlast]
    next hpos =>
      have hexp : max ((e + 1 : ℕ) : ℤ) 1 - bias - M = max (e : ℤ) 1 - bias - M + 1 := by omega
      rw [hexp, zpow_add_one₀ two_ne_zero]
      push_cast
      rw [add_assoc, hlast]
      ring
  · rw [Nat.succ_div_of_not_dvd hend] at hsplit'
    have hmod : (g + 1) % 2 ^ M = g % 2 ^ M + 1 := by omega
    rw [codeAbs, codeSig, codeSig, codeExp, codeExp, Nat.succ_div_of_not_dvd hend, hmod]
    split <;> push_cast <;> ring

/-- A greater code has a greater value. -/
theorem codeAbs_strictMono (M : Nat) (bias : ℤ) : StrictMono (codeAbs M bias) :=
  strictMono_nat_of_lt_succ fun g => by
    rw [codeAbs_succ, codeAbs]
    gcongr
    exact lt_add_one _

/-- Above the least exponent a significand has its leading 1. -/
theorem two_zpow_codeExp_le (hx : codeExp M bias g ≠ 1 - bias) :
    (2 : ℚ) ^ codeExp M bias g ≤ codeAbs M bias g := by
  have hpos : g / 2 ^ M ≠ 0 := by
    intro h0
    exact hx (by simp [codeExp, h0])
  rw [codeAbs, codeSig, if_neg hpos, ← two_pow_mul_unit M (codeExp M bias g)]
  gcongr
  push_cast
  exact le_add_of_nonneg_right (Nat.cast_nonneg _)

/-- Cutting k low bits off a code leaves the code of the shorter format, and the bits cut off are a part of
its unit (R190, R193). -/
theorem codeAbs_add (M k : Nat) (bias : ℤ) (g : Nat) :
    codeAbs (M + k) bias g =
      (codeSig M (g / 2 ^ k) + ((g % 2 ^ k : ℕ) : ℚ) / 2 ^ k) *
        (2 : ℚ) ^ (codeExp M bias (g / 2 ^ k) - M) := by
  have hdiv : g / 2 ^ (M + k) = g / 2 ^ k / 2 ^ M := by
    rw [Nat.div_div_eq_div_mul, ← pow_add, Nat.add_comm]
  have hmod : g % 2 ^ (M + k) = g % 2 ^ k + 2 ^ k * (g / 2 ^ k % 2 ^ M) := by
    rw [Nat.add_comm M k, pow_add, Nat.mod_mul]
  have hunit : (2 : ℚ) ^ (codeExp M bias (g / 2 ^ k) - M)
      = 2 ^ k * (2 : ℚ) ^ (codeExp M bias (g / 2 ^ k) - (M + k : ℕ)) := by
    rw [← zpow_natCast, ← zpow_add₀ two_ne_zero]
    congr 1
    push_cast
    ring
  have hsig : codeSig (M + k) g = g % 2 ^ k + 2 ^ k * codeSig M (g / 2 ^ k) := by
    rw [codeSig, codeSig, hdiv, hmod, pow_add]
    split <;> ring
  rw [codeAbs, hsig, codeExp, hdiv, ← codeExp, hunit]
  push_cast
  field_simp
  ring

/-- The value of a code with k zero bits more is the same in the longer format (R192). -/
theorem codeAbs_mul_two_pow (M k : Nat) (bias : ℤ) (g : Nat) :
    codeAbs (M + k) bias (g * 2 ^ k) = codeAbs M bias g := by
  rw [codeAbs_add, Nat.mul_div_cancel _ (Nat.two_pow_pos k), Nat.mul_mod_left, codeAbs]
  simp

/-- The value of a word is that of its magnitude code. -/
theorem floatAbs_eq_codeAbs (E M p : Nat) :
    floatAbs E M p = codeAbs M (ieeeBias E) (p % 2 ^ (E + M)) := by
  have hexp : p % 2 ^ (E + M) / 2 ^ M = wordExp E M p := by
    rw [wordExp, Nat.add_comm, pow_add, Nat.mod_mul_right_div_self]
  have hman : p % 2 ^ (E + M) % 2 ^ M = wordMan M p :=
    Nat.mod_mod_of_dvd p (pow_dvd_pow 2 (Nat.le_add_left M E))
  rw [floatAbs_eq, codeAbs, codeSig, codeExp, hexp, hman, wordSig, wordScale]

end codes

/-! ### The 16-bit layout inside binary32 (R190, R191) -/

theorem ieeeFormat_bfloat : IeeeFormat 8 7 := {}

section bfloatWords
variable {h p : Nat}

/-- The finite words of the two layouts by their magnitude: those below the infinity. -/
theorem finiteWord_bfloat_iff : FiniteWord 8 7 h ↔ h < 2 ^ 16 ∧ h % 2 ^ 15 < 0x7F80 := by
  unfold FiniteWord wordExp
  omega

theorem finiteWord_binary32_iff : FiniteWord 8 23 p ↔ p < 2 ^ 32 ∧ p % 2 ^ 31 < 0x7F800000 := by
  unfold FiniteWord wordExp
  omega

theorem wordSign_bfloat (h : Nat) : wordSign 8 7 h = h / 2 ^ 15 % 2 := rfl

theorem wordSign_upperHalf (p : Nat) : wordSign 8 7 (p / 2 ^ 16) = wordSign 8 23 p := by
  unfold wordSign
  omega

/-! A 16-bit word as the upper half of a binary32 word with a zero lower half (R192). -/

theorem wordSign_mul_half (h : Nat) : wordSign 8 23 (h * 2 ^ 16) = wordSign 8 7 h := by
  unfold wordSign
  omega

theorem nanWord_mul_half_iff : NanWord 8 23 (h * 2 ^ 16) ↔ NanWord 8 7 h := by
  unfold NanWord wordExp wordMan
  omega

theorem infiniteWord_mul_half_iff : InfiniteWord 8 23 (h * 2 ^ 16) ↔ InfiniteWord 8 7 h := by
  unfold InfiniteWord wordExp wordMan
  omega

theorem finiteWord_mul_half_iff : FiniteWord 8 23 (h * 2 ^ 16) ↔ FiniteWord 8 7 h := by
  rw [finiteWord_bfloat_iff, finiteWord_binary32_iff]
  omega

theorem floatAbs_mul_half (h : Nat) : floatAbs 8 23 (h * 2 ^ 16) = floatAbs 8 7 h := by
  have hmag : h * 2 ^ 16 % 2 ^ (8 + 23) = h % 2 ^ (8 + 7) * 2 ^ 16 := by omega
  rw [floatAbs_eq_codeAbs, floatAbs_eq_codeAbs, hmag]
  exact codeAbs_mul_two_pow 7 16 _ _

/-- Widening the 16-bit word and widening the binary32 word are one and the same (R192). -/
theorem widensTo_mul_half_iff {d : Nat} : WidensTo 8 23 (h * 2 ^ 16) d ↔ WidensTo 8 7 h d := by
  simp only [WidensTo, nanWord_mul_half_iff, infiniteWord_mul_half_iff, finiteWord_mul_half_iff,
    wordSign_mul_half, floatAbs_mul_half]

theorem bfloatValue_widensTo (h : Nat) : WidensTo 8 7 h (bfloatValue h) :=
  widensTo_mul_half_iff.1 (widen_widensTo ieeeFormat_binary32 _)

theorem bfloatValue_lt (hh : h < 2 ^ 16) : bfloatValue h < 2 ^ 64 :=
  widen_lt ieeeFormat_binary32 (by omega)

end bfloatWords

/-! ### Rounding a binary32 word to its upper half (R193) -/

/-- The upper half of p, or the word after it, whichever is nearer (R193, before it saturates). -/
def nearestHalf (p : Nat) : Nat :=
  if 0x8000 < p % 2 ^ 16 ∨ (p % 2 ^ 16 = 0x8000 ∧ p / 2 ^ 16 % 2 = 1) then p / 2 ^ 16 + 1
  else p / 2 ^ 16

theorem bfloatRne_eq (s p : Nat) :
    bfloatRne s p =
      if 0x7F80 ≤ nearestHalf p % 2 ^ 15 then s * 2 ^ 15 + bfloatMax else nearestHalf p := rfl

section nearestHalf
variable {p : Nat}

/-- The words within half a unit of p, the even one where p lies half way. -/
theorem nearestHalf_cases (p : Nat) :
    (nearestHalf p = p / 2 ^ 16 ∧ p % 2 ^ 16 ≤ 2 ^ 15 ∧ (p % 2 ^ 16 = 2 ^ 15 → nearestHalf p % 2 = 0)) ∨
    (nearestHalf p = p / 2 ^ 16 + 1 ∧ 2 ^ 15 ≤ p % 2 ^ 16 ∧
      (p % 2 ^ 16 = 2 ^ 15 → nearestHalf p % 2 = 0)) := by
  unfold nearestHalf
  split <;> omega

/-- The magnitude code of the upper half. -/
def halfCode (p : Nat) : Nat := p / 2 ^ 16 % 2 ^ 15

/-- The value of a binary32 word in units of its upper half. -/
theorem floatAbs_binary32_eq (p : Nat) :
    floatAbs 8 23 p = (codeSig 7 (halfCode p) + ((p % 2 ^ 16 : ℕ) : ℚ) / 2 ^ 16) *
      (2 : ℚ) ^ (codeExp 7 (ieeeBias 8) (halfCode p) - (7 : ℕ)) := by
  have hcode : p % 2 ^ (8 + 23) / 2 ^ 16 = halfCode p := by unfold halfCode; omega
  have hlow : p % 2 ^ (8 + 23) % 2 ^ 16 = p % 2 ^ 16 := by omega
  rw [floatAbs_eq_codeAbs, ← hcode, ← hlow]
  exact codeAbs_add 7 16 _ _

/-- The upper half, and the word after it, are units of the upper half. -/
theorem wordOfUnits_upperHalf (h : FiniteWord 8 7 (p / 2 ^ 16)) :
    WordOfUnits 8 7 (wordSign 8 23 p) (codeSig 7 (halfCode p))
      (codeExp 7 (ieeeBias 8) (halfCode p)) (p / 2 ^ 16) where
  finite := h
  sign := wordSign_upperHalf p
  value := floatAbs_eq_codeAbs 8 7 _
  parity := by
    rw [codeSig_mod_two (by decide), halfCode]
    omega

theorem wordOfUnits_upperHalf_succ (h : FiniteWord 8 7 (p / 2 ^ 16 + 1)) (hp : FiniteWord 8 23 p) :
    WordOfUnits 8 7 (wordSign 8 23 p) (codeSig 7 (halfCode p) + 1)
      (codeExp 7 (ieeeBias 8) (halfCode p)) (p / 2 ^ 16 + 1) := by
  rw [finiteWord_binary32_iff] at hp
  have hcode : (p / 2 ^ 16 + 1) % 2 ^ (8 + 7) = halfCode p + 1 := by unfold halfCode; omega
  refine ⟨h, ?_, ?_, ?_⟩
  · rw [← wordSign_upperHalf, wordSign_bfloat, wordSign_bfloat]
    omega
  · rw [floatAbs_eq_codeAbs, hcode, codeAbs_succ]
    push_cast
    rfl
  · rw [Nat.add_mod, Nat.add_mod (codeSig _ _), codeSig_mod_two (by decide), halfCode]
    omega

/-- The distance, in units of the upper half, from a value to the chosen neighbour: at most one half, and
one half only where the lower half stands half way. -/
theorem abs_sub_half_le {k sig low : ℕ}
    (hk : (k = sig ∧ low ≤ 2 ^ 15) ∨ (k = sig + 1 ∧ 2 ^ 15 ≤ low ∧ low < 2 ^ 16)) :
    |(k : ℚ) - (sig + (low : ℚ) / 2 ^ 16)| ≤ 1 / 2 ∧
      (|(k : ℚ) - (sig + (low : ℚ) / 2 ^ 16)| = 1 / 2 → low = 2 ^ 15) := by
  obtain ⟨rfl, hlow⟩ | ⟨rfl, hlow, hlt⟩ := hk
  · have hq : (low : ℚ) ≤ 2 ^ 15 := by exact_mod_cast hlow
    rw [sub_add_cancel_left, abs_neg, abs_of_nonneg (by positivity)]
    refine ⟨by linarith, fun h => ?_⟩
    have : (low : ℚ) = 2 ^ 15 := by linarith
    exact_mod_cast this
  · have hq : (2 : ℚ) ^ 15 ≤ low := by exact_mod_cast hlow
    have hq' : (low : ℚ) < 2 ^ 16 := by exact_mod_cast hlt
    rw [Nat.cast_succ, add_sub_add_left_eq_sub, abs_of_nonneg (by linarith)]
    refine ⟨by linarith, fun h => ?_⟩
    have : (low : ℚ) = 2 ^ 15 := by linarith
    exact_mod_cast this

/-- A word of units of the upper half is the nearest one to p when it is the chosen neighbour, and even on a
tie. -/
theorem WordOfUnits.nearest_binary32 {s k w : Nat}
    (hw : WordOfUnits 8 7 s k (codeExp 7 (ieeeBias 8) (halfCode p)) w)
    (hk : (k = codeSig 7 (halfCode p) ∧ p % 2 ^ 16 ≤ 2 ^ 15) ∨
      (k = codeSig 7 (halfCode p) + 1 ∧ 2 ^ 15 ≤ p % 2 ^ 16 ∧ p % 2 ^ 16 < 2 ^ 16))
    (htie : p % 2 ^ 16 = 2 ^ 15 → w % 2 = 0) : NearestWord 8 7 (floatAbs 8 23 p) w := by
  have hunits : floatAbs 8 23 p / (2 : ℚ) ^ (codeExp 7 (ieeeBias 8) (halfCode p) - (7 : ℕ)) =
      codeSig 7 (halfCode p) + ((p % 2 ^ 16 : ℕ) : ℚ) / 2 ^ 16 := by
    rw [floatAbs_binary32_eq, mul_div_cancel_right₀ _ (by positivity)]
  obtain ⟨hclose, hhalf⟩ := abs_sub_half_le hk
  rw [← hunits] at hclose hhalf
  refine hw.nearestWord hclose (fun h => hw.parity ▸ htie (hhalf h)) fun hx => ?_
  refine (two_zpow_codeExp_le hx).trans ?_
  rw [floatAbs_binary32_eq, codeAbs]
  gcongr
  exact le_add_of_nonneg_right (by positivity)

/-- Where the rounded half is finite it is the nearest word of the sign, even on a tie (R193). -/
theorem nearestHalf_nearest (h : FiniteWord 8 7 (nearestHalf p)) (hp : FiniteWord 8 23 p) :
    NearestWord 8 7 (floatAbs 8 23 p) (nearestHalf p) ∧
      wordSign 8 7 (nearestHalf p) = wordSign 8 23 p := by
  obtain ⟨heq, hlow, htie⟩ | ⟨heq, hlow, htie⟩ := nearestHalf_cases p <;> rw [heq] at h htie ⊢
  · have hw := wordOfUnits_upperHalf h
    exact ⟨hw.nearest_binary32 (.inl ⟨rfl, hlow⟩) htie, hw.sign⟩
  · have hw := wordOfUnits_upperHalf_succ h hp
    exact ⟨hw.nearest_binary32 (.inr ⟨rfl, hlow, Nat.mod_lt p (Nat.two_pow_pos 16)⟩) htie, hw.sign⟩

/-- Above the greatest word of the 16-bit layout its threshold (R158) stands half a unit away. -/
theorem floatAbs_lt_overflowBound_iff (hmax : halfCode p = bfloatMax) :
    floatAbs 8 23 p < overflowBound 8 7 ↔ p % 2 ^ 16 < 2 ^ 15 := by
  have hexp : codeExp 7 (ieeeBias 8) bfloatMax = ieeeBias 8 := by decide
  have hsig : codeSig 7 bfloatMax = 255 := by decide
  rw [floatAbs_binary32_eq, ieeeFormat_bfloat.overflowBound_eq, hmax, hexp, hsig,
    mul_lt_mul_iff_of_pos_right (by positivity)]
  generalize p % 2 ^ 16 = low
  have hcast : low < 2 ^ 15 ↔ (low : ℚ) < 2 ^ 15 := by exact_mod_cast Iff.rfl
  rw [hcast, ← lt_sub_iff_add_lt', div_lt_iff₀ (by positivity)]
  norm_num

/-- The rounded half leaves the finite words exactly where p reaches the threshold of the 16-bit layout
(R158, R193): the greatest word is odd, so a tie above it is rounded up. -/
theorem finiteWord_nearestHalf_iff (hp : FiniteWord 8 23 p) :
    FiniteWord 8 7 (nearestHalf p) ↔ floatAbs 8 23 p < overflowBound 8 7 := by
  have hp' := finiteWord_binary32_iff.1 hp
  by_cases hnext : FiniteWord 8 7 (p / 2 ^ 16 + 1)
  · have hbound : floatAbs 8 23 p < overflowBound 8 7 := by
      refine lt_trans ?_ (hnext.floatAbs_lt_overflowBound ieeeFormat_bfloat)
      have hlow : ((p % 2 ^ 16 : ℕ) : ℚ) / 2 ^ 16 < 1 := by
        rw [div_lt_one (by positivity)]
        exact_mod_cast Nat.mod_lt p (Nat.two_pow_pos 16)
      rw [(wordOfUnits_upperHalf_succ hnext hp).value, floatAbs_binary32_eq,
        Nat.cast_succ (codeSig 7 (halfCode p))]
      exact mul_lt_mul_of_pos_right (by linarith) (by positivity)
    refine iff_of_true ?_ hbound
    rw [finiteWord_bfloat_iff] at hnext ⊢
    obtain ⟨heq, -⟩ | ⟨heq, -⟩ := nearestHalf_cases p <;> omega
  · rw [finiteWord_bfloat_iff] at hnext
    have hmax : halfCode p = bfloatMax := by unfold halfCode bfloatMax; omega
    have hodd : p / 2 ^ 16 % 2 ^ 15 = 0x7F7F := hmax
    rw [floatAbs_lt_overflowBound_iff hmax, finiteWord_bfloat_iff]
    obtain ⟨heq, hlow, htie⟩ | ⟨heq, hlow, htie⟩ := nearestHalf_cases p <;> omega

end nearestHalf

/-! ### The 16-bit word of a binary64 word (R193) -/

/-- The greatest finite word of a sign. -/
theorem bfloatMax_word {s : Nat} (hs : s < 2) :
    FiniteWord 8 7 (s * 2 ^ 15 + bfloatMax) ∧ wordSign 8 7 (s * 2 ^ 15 + bfloatMax) = s ∧
      (s * 2 ^ 15 + bfloatMax) % 2 ^ 15 = 0x7F7F := by
  rw [finiteWord_bfloat_iff, wordSign_bfloat, bfloatMax]
  omega

/-- A finite binary32 word rounds to the nearest word of its sign below the threshold of the 16-bit layout,
and saturates from there on (R193). -/
theorem bfloatRne_spec {p s : Nat} (hp : FiniteWord 8 23 p) (hs : wordSign 8 23 p = s) :
    FiniteWord 8 7 (bfloatRne s p) ∧ wordSign 8 7 (bfloatRne s p) = s ∧
      (overflowBound 8 7 ≤ floatAbs 8 23 p → bfloatRne s p % 2 ^ 15 = 0x7F7F) ∧
      (floatAbs 8 23 p < overflowBound 8 7 → NearestWord 8 7 (floatAbs 8 23 p) (bfloatRne s p)) := by
  have hfin := finiteWord_nearestHalf_iff hp
  have hlt : nearestHalf p < 2 ^ 16 := by
    rw [finiteWord_binary32_iff] at hp
    obtain ⟨heq, -⟩ | ⟨heq, -⟩ := nearestHalf_cases p <;> omega
  rw [bfloatRne_eq]
  split
  next hover =>
    obtain ⟨hmax, hsign, hmag⟩ := bfloatMax_word (hs ▸ wordSign_lt 8 23 p)
    refine ⟨hmax, hsign, fun _ => hmag, fun hbound => ?_⟩
    exact absurd (finiteWord_bfloat_iff.1 (hfin.2 hbound)).2 (not_lt.2 hover)
  next hunder =>
    have hword := finiteWord_bfloat_iff.2 ⟨hlt, not_le.1 hunder⟩
    obtain ⟨hnear, hsign⟩ := nearestHalf_nearest hword hp
    exact ⟨hword, hsign.trans hs, fun hbound => absurd (hfin.1 hword) (not_lt.2 hbound), fun _ => hnear⟩

section bfloatWord
variable {r : BfRound} {d p : Nat}

theorem bfloatWord_of_nan (hd : NanWord 11 52 d) : bfloatWord r d = nanNarrow 8 23 d / 2 ^ 16 := by
  rw [bfloatWord, narrow_of_nan hd]
  exact if_pos (.inl ((classOf_eq_nan_iff (by decide) hd.1).2 hd))

theorem bfloatWord_of_infinite (hd : InfiniteWord 11 52 d) :
    bfloatWord r d = infinityWord 8 7 (wordSign 11 52 d) := by
  rw [bfloatWord, narrow_of_infinite hd]
  refine (if_pos (.inr ((classOf_eq_infinite_iff (by decide) hd.1).2 hd))).trans ?_
  exact wordOf_div_two_pow 8 7 16 _ _ _

/-- A finite word that overflows binary32 saturates. -/
theorem bfloatWord_of_overflow (hd : narrow 8 23 d = none) :
    bfloatWord r d = wordSign 11 52 d * 2 ^ 15 + bfloatMax := by
  rw [bfloatWord, hd]

/-! Any other finite word goes through binary32, and there the policy decides. -/

theorem not_nan_or_infinite (hd : FiniteWord 11 52 d) :
    ¬ (classOf 11 52 d = .nan ∨ classOf 11 52 d = .infinite) := by
  rw [classOf_eq_nan_iff (by decide) hd.1, classOf_eq_infinite_iff (by decide) hd.1]
  rintro (h | h) <;> exact h.not_finite hd

theorem bfloatWord_truncate (hd : FiniteWord 11 52 d) (hp : narrow 8 23 d = some p) :
    bfloatWord .truncate d = p / 2 ^ 16 := by
  rw [bfloatWord, hp]
  exact if_neg (not_nan_or_infinite hd)

theorem bfloatWord_rne (hd : FiniteWord 11 52 d) (hp : narrow 8 23 d = some p) :
    bfloatWord .rne d = bfloatRne (wordSign 11 52 d) p := by
  rw [bfloatWord, hp]
  exact if_neg (not_nan_or_infinite hd)

/-- The word of a finite operand at the threshold of binary32 or beyond it (R193). -/
theorem bfloatWord_saturates (hd : FiniteWord 11 52 d)
    (hge : overflowBound 8 23 ≤ floatAbs 11 52 d) :
    FiniteWord 8 7 (bfloatWord r d) ∧ wordSign 8 7 (bfloatWord r d) = wordSign 11 52 d ∧
      bfloatWord r d % 2 ^ 15 = 0x7F7F := by
  rw [bfloatWord_of_overflow (narrow_overflow ieeeFormat_binary32 hd hge)]
  exact bfloatMax_word (wordSign_lt 11 52 d)

/-- The word of a finite operand below the threshold of binary32: its nearest binary32 word is finite, and
either policy makes of it a finite word of the sign (R193). -/
theorem bfloatWord_rounds (hd : FiniteWord 11 52 d)
    (hlt : floatAbs 11 52 d < overflowBound 8 23) :
    FiniteWord 8 7 (bfloatWord r d) ∧ wordSign 8 7 (bfloatWord r d) = wordSign 11 52 d ∧
      ∃ p, NarrowsTo 8 23 d p ∧
        (r = .truncate → bfloatWord r d = p / 2 ^ 16) ∧
        (r = .rne → overflowBound 8 7 ≤ floatAbs 8 23 p → bfloatWord r d % 2 ^ 15 = 0x7F7F) ∧
        (r = .rne → floatAbs 8 23 p < overflowBound 8 7 →
          NearestWord 8 7 (floatAbs 8 23 p) (bfloatWord r d)) := by
  obtain ⟨p, hp, -, hnarrow⟩ := exists_narrow ieeeFormat_binary32 hd.1 fun h => not_lt.2 h.2 hlt
  obtain ⟨hnear, hsign⟩ := hnarrow.2.2 hd
  cases r with
  | truncate =>
    have hhalf : FiniteWord 8 7 (p / 2 ^ 16) := by
      have hfin := finiteWord_binary32_iff.1 hnear.1
      rw [finiteWord_bfloat_iff]
      omega
    rw [bfloatWord_truncate hd hp]
    exact ⟨hhalf, (wordSign_upperHalf p).trans hsign, p, hnarrow, fun _ => rfl, nofun, nofun⟩
  | rne =>
    obtain ⟨hfin, hsign', hsat, hround⟩ := bfloatRne_spec hnear.1 hsign
    rw [bfloatWord_rne hd hp]
    exact ⟨hfin, hsign', p, hnarrow, nofun, fun _ => hsat, fun _ => hround⟩

theorem bfloatWord_lt (hd : d < 2 ^ 64) : bfloatWord r d < 2 ^ 16 := by
  obtain h | h | h := word_cases (E := 11) (M := 52) hd
  · rw [bfloatWord_of_nan h]
    exact (nanNarrow_upperHalf_nan d).1
  · rw [bfloatWord_of_infinite h]
    exact (infinityWord_spec (wordSign_lt 11 52 d)).1.1
  · by_cases hlt : floatAbs 11 52 d < overflowBound 8 23
    · exact (bfloatWord_rounds h hlt).1.1
    · exact (bfloatWord_saturates h (not_lt.1 hlt)).1.1

/-- A finite 16-bit word stands, as a binary32 word, at the word itself: nothing is rounded away. -/
theorem bfloatRne_mul_half {h : Nat} (s : Nat) (hh : FiniteWord 8 7 h) : bfloatRne s (h * 2 ^ 16) = h := by
  rw [finiteWord_bfloat_iff] at hh
  have hround : nearestHalf (h * 2 ^ 16) = h := by unfold nearestHalf; split <;> omega
  rw [bfloatRne_eq, hround, if_neg (not_le.2 hh.2)]

/-- Encoding the value of a word that is no NaN gives the word, under either policy (R194). -/
theorem bfloatWord_bfloatValue {h : Nat} (hh : h < 2 ^ 16) (hnan : ¬ NanWord 8 7 h) :
    bfloatWord r (bfloatValue h) = h := by
  obtain ⟨-, hinf, hfin⟩ := bfloatValue_widensTo h
  obtain hword | hword | hword := word_cases (E := 8) (M := 7) hh
  · exact absurd hword hnan
  · obtain ⟨hd, hsign⟩ := hinf hword
    rw [bfloatWord_of_infinite hd, hsign, ← hword.eq_infinityWord]
  · have hnarrow : narrow 8 23 (bfloatValue h) = some (h * 2 ^ 16) :=
      narrow_widen ieeeFormat_binary32 (by omega) (mt nanWord_mul_half_iff.1 hnan)
    have hd := (hfin hword).1
    cases r with
    | truncate => rw [bfloatWord_truncate hd hnarrow, Nat.mul_div_cancel _ (Nat.two_pow_pos 16)]
    | rne => rw [bfloatWord_rne hd hnarrow, bfloatRne_mul_half _ hword]

end bfloatWord

/-! ### The commands of the families of one length (R92, R96, R190) -/

/-- A family whose views and codes have n bits; an explicit length may say so (R92, R96). -/
structure FixedLenFamily (fam : Family) (n : Nat) : Prop where
  fixedLen_eq : fixedLen fam = some n := by rfl
  lenConstraint_eq : ∀ m, lenConstraint fam m = (m == n) := by intro; rfl
  lenUse_dec : lenUse .dec fam = .opt := by rfl
  lenUse_enc : lenUse .enc fam = .opt := by rfl

theorem fixedLenFamily_bfloat : FixedLenFamily .bfloat 16 := {}

theorem fixedLenFamily_e4m3float : FixedLenFamily .e4m3float 8 := {}

theorem fixedLenFamily_e5m2float : FixedLenFamily .e5m2float 8 := {}

namespace FixedLenFamily

variable {fam : Family} {n : Nat} (F : FixedLenFamily fam n) {len : Option Nat} {s : State}
include F

theorem resolveLen_ok {op : Op} (hop : lenUse op fam = .opt) (hlen : LenFor len n) :
    resolveLen op fam len = .ok () := by
  obtain rfl | rfl := hlen
  · simp [resolveLen_none, hop]
  · simp [resolveLen_some, hop, F.lenConstraint_eq]

theorem resolveLen_error (op : Op) {m : Nat} (hm : m ≠ n) :
    resolveLen op fam (some m) = .error .invalidLength := by
  simp [resolveLen_some, F.lenConstraint_eq, hm]

theorem dec_invalidLength {m : Nat} (hm : m ≠ n) (codec : Bits → Except ErrorKind Value) :
    AnswersError s (runDec fam (some m) s codec) .invalidLength := by
  rw [runDec_invalid _ _ _ (F.resolveLen_error .dec hm)]
  exact answersError_raise s _

/-- DEC of a view of another length answers InterpretError (R96). -/
theorem dec_badView (hlen : LenFor len n) (hview : s.req.view.length ≠ n)
    (codec : Bits → Except ErrorKind Value) : AnswersError s (runDec fam len s codec) .interpret := by
  have hdisagrees : viewAgrees fam len s.req.view = .error .interpret := by
    rw [viewAgrees_eq, if_neg (by simp [F.fixedLen_eq, hview.symm])]
  rw [runDec_disagree _ _ _ (F.resolveLen_ok F.lenUse_dec hlen) hdisagrees]
  exact answersError_raise s _

/-- DEC of a view of n bits answers what the codec reads. -/
theorem dec_answers (hlen : LenFor len n) (hview : s.req.view.length = n)
    {codec : Bits → Except ErrorKind Value} {v : Value} (hcodec : codec s.req.view = .ok v) :
    AnswersValue s (runDec fam len s codec) v := by
  have hagrees : viewAgrees fam len s.req.view = .ok () := by
    rw [viewAgrees_eq, if_pos ⟨hview ▸ hlen, .inr (hview ▸ F.fixedLen_eq)⟩]
  rw [runDec_eq _ _ _ (F.resolveLen_ok F.lenUse_dec hlen) hagrees, hcodec]
  exact answersValue_answerValue s _

theorem enc_invalidLength {m : Nat} (hm : m ≠ n) (codec : Operand → Except ErrorKind Bits) :
    AnswersError s (runEnc fam (some m) s codec) .invalidLength := by
  rw [runEnc_invalid _ _ _ (F.resolveLen_error .enc hm)]
  exact answersError_raise s _

/-- ENC answers what the codec writes. -/
theorem enc_answers (hlen : LenFor len n) {codec : Operand → Except ErrorKind Bits} {b : Bits}
    (hcodec : codec s.req.val = .ok b) : AnswersBits s (runEnc fam len s codec) b := by
  rw [runEnc_eq _ _ _ (F.resolveLen_ok F.lenUse_enc hlen), hcodec]
  exact answersBits_answerBits s _

/-- A DEC without a length that succeeds had a view of n bits. -/
theorem view_length_of_dec_ok {codec : Bits → Except ErrorKind Value} {t : State}
    (hdec : runDec fam none s codec = .next t) (hok : t.rsp.status = 0) : s.req.view.length = n := by
  by_contra hview
  exact (hdec ▸ F.dec_badView (.inl rfl) hview codec).status_ne_zero hok

end FixedLenFamily

/-! ### The commands of the 16-bit truncated float (R192, R193) -/

theorem exec_decBfloatOf (e : Endian) (len : Option Nat) (s : State) :
    exec (decBfloatOf e len) s = runDec .bfloat len s (decodeBfloat e s.cfg.hostEndian) := by
  cases e <;> rfl

theorem exec_encBfloatOf (e : Endian) (len : Option Nat) (s : State) :
    exec (encBfloatOf e len) s =
      runEnc .bfloat len s fun val => encodeBfloat e s.cfg.hostEndian val.flt := by
  cases e <;> rfl

/-- Sixteen bits are whole bytes. -/
theorem wholeField_sixteen (e : Endian) : WholeField e 16 := fun _ => rfl

section bfloatCommands
variable {e : Endian} {len : Option Nat} {s : State}

/-- DEC of 16 bits answers the value of their field (R192). -/
theorem decBfloat_answers (hlen : LenFor len 16) (hview : s.req.view.length = 16) :
    AnswersValue s (exec (decBfloatOf e len) s)
      (fltOf (bfloatValue (fieldValue e s.cfg.hostEndian s.req.view))) := by
  rw [exec_decBfloatOf, ← mag_order]
  exact fixedLenFamily_bfloat.dec_answers hlen hview rfl

/-- ENC answers the ordered bits of the operand's word (R193). -/
theorem encBfloat_answers (hlen : LenFor len 16) :
    AnswersBits s (exec (encBfloatOf e len) s)
      (order e s.cfg.hostEndian (toBits 16 (bfloatWord Config.bfRound s.req.val.flt.toNat))) := by
  rw [exec_encBfloatOf]
  exact fixedLenFamily_bfloat.enc_answers hlen rfl

/-- ENC answers 16 bits whose field is the operand's word. -/
theorem exists_encBfloat_field (hlen : LenFor len 16) :
    ∃ b : Bits, AnswersBits s (exec (encBfloatOf e len) s) b ∧ b.length = 16 ∧
      fieldValue e s.cfg.hostEndian b = bfloatWord Config.bfRound s.req.val.flt.toNat := by
  have hwhole (x : Nat) : WholeField e (toBits 16 x).length :=
    (toBits_length 16 x).symm ▸ wholeField_sixteen e
  refine ⟨_, encBfloat_answers hlen, by rw [order_length (hwhole _), toBits_length], ?_⟩
  rw [← mag_order, order_order (hwhole _), mag_toBits (bfloatWord_lt s.req.val.flt.isLt)]

end bfloatCommands

end Sys2Proof.Machine

/-! ## The statements of the 16-bit truncated float -/

namespace Sys2Proof.Proofs

open Sys2Proof.Machine

/-- Settles O41: a 16-bit word is a binary32 word with a zero lower half, so neither the way through
binary64 nor the rounding of the lower half changes it. -/
theorem bfloatCodecRoundTrips : Obligations.BfloatCodecRoundTrips := by
  refine ⟨fun r h hh hnan => bfloatWord_bfloatValue hh hnan, ?_⟩
  intro e s t s' hdec hval hok hcfg hnan
  have hview : s.req.view.length = 16 :=
    fixedLenFamily_bfloat.view_length_of_dec_ok (exec_decBfloatOf e none s ▸ hdec) hok
  have hwhole : WholeField e s.req.view.length := hview ▸ wholeField_sixteen e
  have hfield : fieldValue e s.cfg.hostEndian s.req.view < 2 ^ 16 := hview ▸ fieldValue_lt hwhole
  have hrval := (hdec ▸ decBfloat_answers (.inl rfl) hview).rval_eq
  have hflt := Value.flt.inj (hval.symm.trans hrval)
  have henc := encBfloat_answers (e := e) (s := s') (.inl rfl)
  rwa [hflt, BitVec.toNat_ofNat, Nat.mod_eq_of_lt (bfloatValue_lt hfield),
    bfloatWord_bfloatValue hfield hnan, hcfg, ← hview, order_toBits_fieldValue hwhole] at henc

/-- Settles O39: the 16-bit word and the binary32 word with zeros below it have the same fields and the same
value, so widening one is widening the other. -/
theorem decBfloatIsTheUpperHalf : Obligations.DecBfloatIsTheUpperHalf := by
  refine fun e => ⟨hasWords_of_instrFields (fam := .bfloat) (e := e) (fun _ => by cases e <;> rfl)
    (by cases e <;> rfl), fun s len => ⟨fun hview hlen => ?_, ?_, fun hview hlen => ?_⟩⟩
  · have hwhole : WholeField e s.req.view.length := hview ▸ wholeField_sixteen e
    have hfield : fieldValue e s.cfg.hostEndian s.req.view < 2 ^ 16 := hview ▸ fieldValue_lt hwhole
    refine ⟨_, decBfloat_answers hlen hview, ?_⟩
    rw [BitVec.toNat_ofNat, Nat.mod_eq_of_lt (bfloatValue_lt hfield), widensTo_mul_half_iff]
    exact ⟨bfloatValue_widensTo _, bfloatValue_widensTo _⟩
  · rintro n rfl hn
    rw [exec_decBfloatOf]
    exact fixedLenFamily_bfloat.dec_invalidLength hn _
  · rw [exec_decBfloatOf]
    exact fixedLenFamily_bfloat.dec_badView hlen hview _

/-- Settles O40: the operand's word class by class, a finite one through its nearest binary32 word. -/
theorem encBfloatRoundsAndSaturates : Obligations.EncBfloatRoundsAndSaturates := by
  refine ⟨fun e => ⟨hasWords_of_instrFields (fam := .bfloat) (e := e) (fun _ => by cases e <;> rfl)
    (by cases e <;> rfl), fun s len => ⟨exists_encBfloat_field, ?_⟩⟩,
    fun r d _ => ⟨fun hnan => ?_, fun hinf => ?_, fun hfin => ?_⟩⟩
  · rintro n rfl hn
    rw [exec_encBfloatOf]
    exact fixedLenFamily_bfloat.enc_invalidLength hn _
  · rw [bfloatWord_of_nan hnan]
    exact nanNarrow_upperHalf_nan d
  · rw [bfloatWord_of_infinite hinf]
    exact infinityWord_spec (wordSign_lt 11 52 d)
  · by_cases hlt : floatAbs 11 52 d < overflowBound 8 23
    · obtain ⟨hword, hsign, hround⟩ := bfloatWord_rounds (r := r) hfin hlt
      exact ⟨hword, hsign, fun hge => absurd hlt (not_lt.2 hge), fun _ => hround⟩
    · obtain ⟨hword, hsign, hmag⟩ := bfloatWord_saturates (r := r) hfin (not_lt.1 hlt)
      exact ⟨hword, hsign, fun _ => hmag, fun h => absurd h hlt⟩

end Sys2Proof.Proofs

/-! ## Lemmas of the 8-bit float statements: formats, codes, decoding, encoding and the commands (R205 to
R214) -/

namespace Sys2Proof.Machine

/-! ### The lawful 8-bit formats (R205, R207) -/

/-- What the laws of R205 and of log entry 11 say of a format, code by code. -/
structure LawfulFormat (F : MiniFormat) : Prop where
  /-- a sign bit and seven bits of magnitude -/
  width : F.expBits + F.manBits = 7
  one_le_exp : 1 ≤ F.expBits
  ordinary_zero : specialOf F 0x00 = none
  nanEnc_nan : specialOf F F.nanEnc = some .nan
  ordinary_pos : ∀ g ≤ maxCode F, specialOf F (miniCode 0 g) = none
  ordinary_neg : ∀ g ≤ maxCode F, g ≠ 0 → specialOf F (miniCode 1 g) = none
  special_neg : ∀ g < 128, maxCode F < g → specialOf F (miniCode 1 g) ≠ none
  /-- every exponent of the lattice is one of binary64 -/
  emin_ge : -1074 ≤ 1 - F.bias - F.manBits
  emax_le : 2 ^ F.expBits - 1 - F.bias ≤ 1023

theorem LawfulFormat.of_miniLaw {E M : Nat} {F : MiniFormat} (hwidth : E + M = 7)
    (hexp : 1 ≤ E) (h : miniLaw E M F = true) : LawfulFormat F := by
  simp only [miniLaw, Bool.and_eq_true, Bool.or_eq_true, beq_iff_eq, bne_iff_ne, decide_eq_true_eq,
    List.all_eq_true, List.mem_range] at h
  obtain ⟨⟨⟨⟨⟨⟨⟨rfl, rfl⟩, hzero⟩, hnan⟩, hcodes⟩, habove⟩, hmin⟩, hmax⟩ := h
  exact {
    width := hwidth
    one_le_exp := hexp
    ordinary_zero := hzero
    nanEnc_nan := hnan
    ordinary_pos := fun g hg => (hcodes g (Nat.lt_succ_of_le hg)).1
    ordinary_neg := fun g hg h0 => (hcodes g (Nat.lt_succ_of_le hg)).2.resolve_left h0
    special_neg := fun g hg hlt => (habove g hg).resolve_left (not_le.2 hlt)
    emin_ge := hmin
    emax_le := hmax }

theorem lawfulFormat_of_miniLaw {F : MiniFormat} (h : miniLaw 4 3 F = true ∨ miniLaw 5 2 F = true) :
    LawfulFormat F :=
  h.elim (.of_miniLaw rfl (by decide)) (.of_miniLaw rfl (by decide))

/-! Codes and their two fields (R205). -/

theorem miniCode_toNat {s g : Nat} (hs : s < 2) (hg : g < 128) : (miniCode s g).toNat = s * 128 + g := by
  rw [miniCode, BitVec.toNat_ofNat]
  omega

theorem miniCode_fields (c : Byte) : miniCode (c.toNat / 128) (c.toNat % 128) = c := by
  rw [miniCode, show c.toNat / 128 * 2 ^ 7 + c.toNat % 128 = c.toNat by omega, BitVec.ofNat_toNat,
    BitVec.setWidth_eq]

theorem codeSign_lt (c : Byte) : c.toNat / 128 < 2 := by
  have := c.isLt
  omega

theorem maxCode_lt (F : MiniFormat) : maxCode F < 128 :=
  Nat.lt_succ_of_le (greatestOrdinary_spec F 127).1

/-- The value of a magnitude code is that of the lattice (R207). -/
theorem miniAbsQ_eq_codeAbs (F : MiniFormat) (g : Nat) : miniAbsQ F g = codeAbs F.manBits F.bias g := by
  unfold miniAbsQ codeAbs codeSig codeExp
  generalize g / 2 ^ F.manBits = e
  split
  next hzero => simp [hzero]
  next hpos =>
    have hmax : max (e : ℤ) 1 = e := max_eq_left (by omega)
    rw [hmax]
    push_cast
    rfl

theorem miniAbsQ_strictMono (F : MiniFormat) : StrictMono (miniAbsQ F) := by
  rw [funext (miniAbsQ_eq_codeAbs F)]
  exact codeAbs_strictMono _ _

theorem miniAbsQ_zero (F : MiniFormat) : miniAbsQ F 0 = 0 := by simp [miniAbsQ]

/-- The model's rational is the value the statements read (R207). -/
theorem miniAbs_toRat (F : MiniFormat) (g : Nat) : (miniAbs F g).toRat = miniAbsQ F g := by
  unfold miniAbs miniAbsQ
  split
  next => rw [scaled_toRat]
  next => rw [scaled_toRat]; push_cast; rfl

theorem ratioLe_miniAbs_iff (F : MiniFormat) (g d : Nat) :
    ratioLe (miniAbs F g) (absOf 11 52 d) = true ↔ miniAbsQ F g ≤ floatAbs 11 52 d := by
  rw [ratioLe_iff (miniAbs_den_pos F g) (absOf_den_pos 11 52 d), miniAbs_toRat, absOf_toRat]

/-! ### Decoding (R208) -/

/-- A value of binary64 is rounded to itself. -/
theorem exactDouble_of_finiteWord {a : Ratio} {d : Nat} (ha : 0 < a.den) (hd : FiniteWord 11 52 d)
    (hval : a.toRat = floatAbs 11 52 d) : exactDouble (wordSign 11 52 d) a = d := by
  rw [exactDouble, roundFin_of_finiteWord ieeeFormat_binary64 ha hd hval, Option.getD_some]

/-- Units of at most 53 bits at an exponent of binary64, subnormal ones too, are the value of a word. -/
theorem exists_binary64_of_units {s k m : Nat} {x : ℤ} (hs : s < 2) (hm : m ≤ 52) (hk : k < 2 ^ (m + 1))
    (hlo : -1074 ≤ x - m) (hhi : x ≤ 1023) :
    ∃ d, FiniteWord 11 52 d ∧ wordSign 11 52 d = s ∧ floatAbs 11 52 d = k * (2 : ℚ) ^ (x - m) := by
  have hemin : ieeeEmin 11 = -1022 := rfl
  have hbias : ieeeBias 11 = 1023 := rfl
  obtain ⟨n, hn⟩ := Int.le.dest (show max x (-1022) ≤ x - m + 52 by omega)
  have hwide : k * 2 ^ n < 2 ^ (52 + 1) := by
    calc k * 2 ^ n < 2 ^ (m + 1) * 2 ^ n := by gcongr
      _ = 2 ^ (m + 1 + n) := (pow_add 2 _ _).symm
      _ ≤ 2 ^ (52 + 1) := Nat.pow_le_pow_right two_pos (by omega)
  obtain ⟨d, hd, hsign, hval⟩ := exists_word_of_units ieeeFormat_binary64 hs hwide
    (x := max x (-1022)) (by omega) (by omega)
  refine ⟨d, hd, hsign, hval.trans ?_⟩
  have hexp : x - m = n + (max x (-1022) - (52 : ℕ)) := by omega
  rw [hexp, zpow_add₀ two_ne_zero, zpow_natCast]
  push_cast
  ring

section decode
variable {F : MiniFormat} {c : Byte}

/-- Every value of a lawful format is one of binary64 (R208). -/
theorem LawfulFormat.exists_binary64_word (hF : LawfulFormat F) {s g : Nat} (hs : s < 2) (hg : g < 128) :
    ∃ d, FiniteWord 11 52 d ∧ wordSign 11 52 d = s ∧ floatAbs 11 52 d = miniAbsQ F g := by
  have hmin := one_sub_bias_le_codeExp F.manBits g F.bias
  have hwidth := hF.width
  have hexp : g / 2 ^ F.manBits ≤ 2 ^ F.expBits - 1 := by
    refine Nat.le_sub_one_of_lt ((Nat.div_lt_iff_lt_mul (Nat.two_pow_pos _)).2 ?_)
    rwa [← pow_add, hwidth]
  have hone : 2 ^ 1 ≤ 2 ^ F.expBits := Nat.pow_le_pow_right two_pos hF.one_le_exp
  have hmax : codeExp F.manBits F.bias g ≤ 1023 := by
    refine (codeExp_le hexp (by omega)).trans ?_
    rw [Nat.cast_sub (by omega)]
    exact_mod_cast hF.emax_le
  have hemin := hF.emin_ge
  rw [miniAbsQ_eq_codeAbs]
  exact exists_binary64_of_units hs (by omega) (codeSig_lt _ _) (by omega) hmax

theorem miniDecode_of_ordinary (hc : specialOf F c = none) :
    miniDecode F c = exactDouble (c.toNat / 128) (miniAbs F (c.toNat % 128)) := by
  rw [miniDecode, hc]
  rfl

theorem miniDecode_of_nan (hc : specialOf F c = some .nan) : miniDecode F c = canonicalNan := by
  rw [miniDecode, hc]

theorem miniDecode_of_posInf (hc : specialOf F c = some .posInf) :
    miniDecode F c = infinityWord 11 52 0 := by
  rw [miniDecode, hc]

theorem miniDecode_of_negInf (hc : specialOf F c = some .negInf) :
    miniDecode F c = infinityWord 11 52 1 := by
  rw [miniDecode, hc]

/-- An ordinary code decodes to the word of its sign and its value (R208). -/
theorem LawfulFormat.miniDecode_spec (hF : LawfulFormat F) (hc : specialOf F c = none) :
    FiniteWord 11 52 (miniDecode F c) ∧ wordSign 11 52 (miniDecode F c) = c.toNat / 128 ∧
      floatAbs 11 52 (miniDecode F c) = miniAbsQ F (c.toNat % 128) := by
  obtain ⟨d, hd, hsign, hval⟩ :=
    hF.exists_binary64_word (codeSign_lt c) (Nat.mod_lt c.toNat (show 0 < 128 by decide))
  have hdec : miniDecode F c = d := by
    refine (miniDecode_of_ordinary hc).trans ?_
    rw [← exactDouble_of_finiteWord (miniAbs_den_pos F _) hd ((miniAbs_toRat F _).trans hval.symm), hsign]
  rw [hdec]
  exact ⟨hd, hsign, hval⟩

theorem LawfulFormat.miniDecodesTo (hF : LawfulFormat F) (c : Byte) :
    MiniDecodesTo F c (miniDecode F c) :=
  ⟨miniDecode_of_nan, miniDecode_of_posInf, miniDecode_of_negInf, hF.miniDecode_spec⟩

end decode

/-! ### Encoding (R209) -/

/-- Between two neighbours of a rising sequence the nearer one is nearest to a among all members, and another
member is equally near only where both neighbours are. -/
theorem nearest_of_neighbours {f : ℕ → ℚ} (hf : StrictMono f) {lo g : ℕ} {a : ℚ} (hlo : f lo ≤ a)
    (hhi : a < f (lo + 1))
    (hg : (g = lo ∧ a - f lo ≤ f (lo + 1) - a) ∨ (g = lo + 1 ∧ f (lo + 1) - a ≤ a - f lo))
    (htie : a - f lo = f (lo + 1) - a → g % 2 = 0) (j : ℕ) :
    |f g - a| ≤ |f j - a| ∧ (j ≠ g → |f g - a| = |f j - a| → g % 2 = 0) := by
  have hdist_lo : |f lo - a| = a - f lo := by rw [abs_of_nonpos (by linarith), neg_sub]
  have hdist_hi : |f (lo + 1) - a| = f (lo + 1) - a := abs_of_pos (by linarith)
  obtain hj | hj := Nat.lt_or_ge lo j
  · have hle : f (lo + 1) ≤ f j := hf.monotone hj
    rw [abs_of_pos (show 0 < f j - a by linarith)]
    obtain ⟨rfl, hnear⟩ | ⟨rfl, hnear⟩ := hg
    · rw [hdist_lo]
      exact ⟨by linarith, fun _ heq => htie (by linarith)⟩
    · rw [hdist_hi]
      exact ⟨by linarith, fun hne heq => absurd (hf.injective (by linarith)) hne⟩
  · have hle : f j ≤ f lo := hf.monotone hj
    rw [abs_of_nonpos (show f j - a ≤ 0 by linarith), neg_sub]
    obtain ⟨rfl, hnear⟩ | ⟨rfl, hnear⟩ := hg
    · rw [hdist_lo]
      exact ⟨by linarith, fun hne heq => absurd (hf.injective (by linarith)) hne⟩
    · rw [hdist_hi]
      exact ⟨by linarith, fun _ heq => htie (by linarith)⟩

section encode
variable {F : MiniFormat} {c : Byte} {d : Nat}

/-- Below `MAXV` the value stands between the code `lo` of R209 and its successor, both up to `MAXC`. -/
theorem codeBelow_neighbours {lo : Nat} (hdef : codeBelow F (absOf 11 52 d) (maxCode F) = lo)
    (hlt : floatAbs 11 52 d < miniAbsQ F (maxCode F)) :
    lo < maxCode F ∧ miniAbsQ F lo ≤ floatAbs 11 52 d ∧ floatAbs 11 52 d < miniAbsQ F (lo + 1) := by
  obtain ⟨hmax, hbelow, habove⟩ := codeBelow_spec F (absOf 11 52 d) (maxCode F)
  rw [hdef] at hmax hbelow habove
  have hlo : miniAbsQ F lo ≤ floatAbs 11 52 d := by
    by_cases h0 : lo = 0
    · rw [h0, miniAbsQ_zero, ← absOf_toRat]
      exact Ratio.toRat_nonneg _
    · exact (ratioLe_miniAbs_iff F lo d).1 (hbelow h0)
  have hltMax : lo < maxCode F :=
    lt_of_le_of_ne hmax fun heq => absurd hlt (not_lt.2 (heq ▸ hlo))
  refine ⟨hltMax, hlo, ?_⟩
  rw [← not_le, ← ratioLe_miniAbs_iff, habove (lo + 1) (Nat.lt_succ_self lo) hltMax]
  decide

/-- The code that R209 chooses between the two neighbours. -/
theorem nearestCode_cases {lo g : Nat} (hdef : codeBelow F (absOf 11 52 d) (maxCode F) = lo)
    (hg : nearestCode F (absOf 11 52 d) = g) (hlo : miniAbsQ F lo ≤ floatAbs 11 52 d)
    (hhi : floatAbs 11 52 d < miniAbsQ F (lo + 1)) :
    ((g = lo ∧ floatAbs 11 52 d - miniAbsQ F lo ≤ miniAbsQ F (lo + 1) - floatAbs 11 52 d) ∨
      (g = lo + 1 ∧ miniAbsQ F (lo + 1) - floatAbs 11 52 d ≤ floatAbs 11 52 d - miniAbsQ F lo)) ∧
    (floatAbs 11 52 d - miniAbsQ F lo = miniAbsQ F (lo + 1) - floatAbs 11 52 d → g % 2 = 0) := by
  subst hg
  have hd := absOf_den_pos 11 52 d
  have hbelow : (ratioSub (absOf 11 52 d) (miniAbs F lo)).toRat = floatAbs 11 52 d - miniAbsQ F lo := by
    rw [ratioSub_toRat hd (miniAbs_den_pos F lo) (by rwa [miniAbs_toRat, absOf_toRat]), miniAbs_toRat,
      absOf_toRat]
  have habove : (ratioSub (miniAbs F (lo + 1)) (absOf 11 52 d)).toRat =
      miniAbsQ F (lo + 1) - floatAbs 11 52 d := by
    rw [ratioSub_toRat (miniAbs_den_pos F _) hd (by rw [miniAbs_toRat, absOf_toRat]; exact hhi.le),
      miniAbs_toRat, absOf_toRat]
  have hbelow_pos := ratioSub_den_pos hd (miniAbs_den_pos F lo)
  have habove_pos := ratioSub_den_pos (miniAbs_den_pos F (lo + 1)) hd
  simp only [nearestCode, hdef, ratioLt_iff hbelow_pos habove_pos, ratioLt_iff habove_pos hbelow_pos,
    hbelow, habove]
  split
  next h => exact ⟨.inl ⟨rfl, h.le⟩, fun heq => absurd heq h.ne⟩
  next h =>
    split
    next h' => exact ⟨.inr ⟨rfl, h'.le⟩, fun heq => absurd heq h'.ne'⟩
    next h' =>
      split
      next heven => exact ⟨.inl ⟨rfl, not_lt.1 h'⟩, fun _ => heven⟩
      next hodd => exact ⟨.inr ⟨rfl, not_lt.1 h⟩, fun _ => by omega⟩

/-- Below `MAXV` the chosen code is the nearest one, the even one on a tie (R209). -/
theorem nearestCode_spec {g : Nat} (hg : nearestCode F (absOf 11 52 d) = g)
    (hlt : floatAbs 11 52 d < miniAbsQ F (maxCode F)) :
    g ≤ maxCode F ∧ ∀ g',
      |miniAbsQ F g - floatAbs 11 52 d| ≤ |miniAbsQ F g' - floatAbs 11 52 d| ∧
      (g' ≠ g → |miniAbsQ F g - floatAbs 11 52 d| = |miniAbsQ F g' - floatAbs 11 52 d| →
        g % 2 = 0) := by
  obtain ⟨hmax, hlo, hhi⟩ := codeBelow_neighbours rfl hlt
  obtain ⟨hchoice, htie⟩ := nearestCode_cases rfl hg hlo hhi
  refine ⟨?_, nearest_of_neighbours (miniAbsQ_strictMono F) hlo hhi hchoice htie⟩
  obtain ⟨heq, -⟩ | ⟨heq, -⟩ := hchoice <;> omega

/-- Where the magnitude saturates (R209). -/
theorem miniMagnitude_of_infinite (hd : InfiniteWord 11 52 d) : miniMagnitude F d = maxCode F :=
  if_pos (.inl ((classOf_eq_infinite_iff (by decide) hd.1).2 hd))

theorem miniMagnitude_of_maxValue_le (hge : miniAbsQ F (maxCode F) ≤ floatAbs 11 52 d) :
    miniMagnitude F d = maxCode F :=
  if_pos (.inr ((ratioLe_miniAbs_iff F (maxCode F) d).2 hge))

theorem miniMagnitude_of_lt (hd : FiniteWord 11 52 d)
    (hlt : floatAbs 11 52 d < miniAbsQ F (maxCode F)) :
    miniMagnitude F d = nearestCode F (absOf 11 52 d) := by
  refine if_neg (not_or.2 ⟨?_, ?_⟩)
  · rw [classOf_eq_infinite_iff (by decide) hd.1]
    exact fun h => h.not_finite hd
  · exact mt (ratioLe_miniAbs_iff F (maxCode F) d).1 (not_le.2 hlt)

theorem miniMagnitude_le (hd : d < 2 ^ 64) (hnan : ¬ NanWord 11 52 d) : miniMagnitude F d ≤ maxCode F := by
  obtain h | h | h := word_cases (E := 11) (M := 52) hd
  · exact absurd h hnan
  · exact (miniMagnitude_of_infinite h).le
  · by_cases hlt : floatAbs 11 52 d < miniAbsQ F (maxCode F)
    · exact (nearestCode_spec (miniMagnitude_of_lt h hlt).symm hlt).1
    · exact (miniMagnitude_of_maxValue_le (not_lt.1 hlt)).le

theorem miniEncode_of_nan (hd : NanWord 11 52 d) : miniEncode F d = F.nanEnc :=
  if_pos ((classOf_eq_nan_iff (by decide) hd.1).2 hd)

theorem miniEncode_of_not_nan (hd : d < 2 ^ 64) (hnan : ¬ NanWord 11 52 d) :
    miniEncode F d =
      if specialOf F (miniCode (wordSign 11 52 d) (miniMagnitude F d)) = none then
        miniCode (wordSign 11 52 d) (miniMagnitude F d)
      else miniCode 0 (miniMagnitude F d) :=
  if_neg (mt (classOf_eq_nan_iff (by decide) hd).1 hnan)

theorem miniEncode_encodesTo (hd : d < 2 ^ 64) : MiniEncodesTo F d (miniEncode F d) := by
  refine ⟨miniEncode_of_nan, fun hnan => ⟨miniMagnitude F d, miniMagnitude_le hd hnan,
    miniMagnitude_of_infinite, fun _ => miniMagnitude_of_maxValue_le, fun hfin hlt g _ => ?_,
    fun hord => ?_, fun hspecial => ?_⟩⟩
  · exact (nearestCode_spec (miniMagnitude_of_lt hfin hlt).symm hlt).2 g
  · rw [miniEncode_of_not_nan hd hnan, if_pos hord]
    exact miniCode_toNat (wordSign_lt 11 52 d) ((miniMagnitude_le hd hnan).trans_lt (maxCode_lt F))
  · rw [miniEncode_of_not_nan hd hnan, if_neg hspecial,
      miniCode_toNat two_pos ((miniMagnitude_le hd hnan).trans_lt (maxCode_lt F)), Nat.zero_mul,
      Nat.zero_add]

end encode

/-! ### Decoding and encoding an 8-bit code (R214) -/

namespace LawfulFormat

variable {F : MiniFormat} (hF : LawfulFormat F) {c : Byte} {d s g : Nat}
include hF

/-- An ordinary code of either sign has a magnitude up to `MAXC` (R207, log entry 11). -/
theorem code_le_maxCode (hc : specialOf F c = none) : c.toNat % 128 ≤ maxCode F := by
  by_contra! hlt
  have hg : c.toNat % 128 < 128 := Nat.mod_lt _ (by decide)
  rw [← miniCode_fields c] at hc
  obtain hs | hs : c.toNat / 128 = 0 ∨ c.toNat / 128 = 1 := by have := codeSign_lt c; omega
  · rw [hs] at hc
    exact (greatestOrdinary_spec F 127).2.2 _ hlt (Nat.le_of_lt_succ hg) hc
  · rw [hs] at hc
    exact hF.special_neg _ hg hlt hc

/-- Every code up to `MAXC` is ordinary but, in some formats, the negative zero (R205). -/
theorem ordinary_of_le (hs : s < 2) (hg : g ≤ maxCode F) (h0 : g ≠ 0) :
    specialOf F (miniCode s g) = none := by
  obtain rfl | rfl : s = 0 ∨ s = 1 := by omega
  · exact hF.ordinary_pos g hg
  · exact hF.ordinary_neg g hg h0

/-- What is no NaN encodes to an ordinary code, of its own sign unless the code is a zero (R209). -/
theorem miniEncode_spec (hd : d < 2 ^ 64) (hnan : ¬ NanWord 11 52 d) :
    specialOf F (miniEncode F d) = none ∧ (miniEncode F d).toNat % 128 = miniMagnitude F d ∧
      (miniMagnitude F d ≠ 0 → (miniEncode F d).toNat / 128 = wordSign 11 52 d) := by
  have hs := wordSign_lt 11 52 d
  have hle := miniMagnitude_le (F := F) hd hnan
  have hlt := hle.trans_lt (maxCode_lt F)
  rw [miniEncode_of_not_nan hd hnan]
  split
  next hord =>
    rw [miniCode_toNat hs hlt]
    exact ⟨hord, by omega, by omega⟩
  next hspecial =>
    rw [miniCode_toNat two_pos hlt]
    exact ⟨hF.ordinary_pos _ hle, by omega, fun h0 => absurd (hF.ordinary_of_le hs hle h0) hspecial⟩

/-- What is no NaN comes back from encode and decode as a finite word of its code's value. -/
theorem miniDecode_miniEncode (hd : d < 2 ^ 64) (hnan : ¬ NanWord 11 52 d) :
    FiniteWord 11 52 (miniDecode F (miniEncode F d)) ∧
      floatAbs 11 52 (miniDecode F (miniEncode F d)) = miniAbsQ F (miniMagnitude F d) ∧
      (miniMagnitude F d ≠ 0 →
        wordSign 11 52 (miniDecode F (miniEncode F d)) = wordSign 11 52 d) := by
  obtain ⟨hord, hmag, hsign⟩ := hF.miniEncode_spec hd hnan
  obtain ⟨hfin, hsign', hval⟩ := hF.miniDecode_spec hord
  exact ⟨hfin, hmag ▸ hval, fun h0 => hsign'.trans (hsign h0)⟩

end LawfulFormat

section roundTrip
variable {F : MiniFormat} {c : Byte} {d g : Nat}

/-- An operand of an ordinary value has the magnitude code of that value. -/
theorem miniMagnitude_of_value (hd : FiniteWord 11 52 d) (hg : g ≤ maxCode F)
    (hval : floatAbs 11 52 d = miniAbsQ F g) : miniMagnitude F d = g := by
  have hmono := miniAbsQ_strictMono F
  by_cases hlt : floatAbs 11 52 d < miniAbsQ F (maxCode F)
  · have hnear := ((nearestCode_spec (miniMagnitude_of_lt hd hlt).symm hlt).2 g).1
    rw [hval, sub_self, abs_zero, abs_nonpos_iff, sub_eq_zero] at hnear
    exact hmono.injective hnear
  · have hge := not_lt.1 hlt
    rw [miniMagnitude_of_maxValue_le hge]
    exact le_antisymm (hmono.le_iff_le.1 (hval ▸ hge)) hg

/-- Encoding the value of an ordinary code gives the code (R214). -/
theorem LawfulFormat.miniEncode_miniDecode (hF : LawfulFormat F) (hc : specialOf F c = none) :
    miniEncode F (miniDecode F c) = c := by
  obtain ⟨hfin, hsign, hval⟩ := hF.miniDecode_spec hc
  rw [miniEncode_of_not_nan hfin.1 fun h => h.not_finite hfin, hsign,
    miniMagnitude_of_value hfin (hF.code_le_maxCode hc) hval, miniCode_fields, if_pos hc]

theorem canonicalNan_nan : NanWord 11 52 canonicalNan := by unfold NanWord; decide

/-- The infinity of a sign saturates (R209). -/
theorem miniEncode_infinityWord {s : Nat} (hs : s < 2) :
    miniEncode F (infinityWord 11 52 s) =
      if specialOf F (miniCode s (maxCode F)) = none then miniCode s (maxCode F)
      else miniCode 0 (maxCode F) := by
  obtain ⟨hinf, hsign⟩ := infinityWord_spec (E := 11) (M := 52) hs
  rw [miniEncode_of_not_nan hinf.1 fun h => h.not_infinite hinf, hsign, miniMagnitude_of_infinite hinf]

theorem miniEncode_posInf_toNat : (miniEncode F (infinityWord 11 52 0)).toNat = maxCode F := by
  rw [miniEncode_infinityWord two_pos, ite_self, miniCode_toNat two_pos (maxCode_lt F), Nat.zero_mul,
    Nat.zero_add]

theorem LawfulFormat.miniEncode_negInf_toNat (hF : LawfulFormat F) (hpos : 0 < maxCode F) :
    (miniEncode F (infinityWord 11 52 1)).toNat = 128 + maxCode F := by
  rw [miniEncode_infinityWord one_lt_two, if_pos (hF.ordinary_neg _ le_rfl hpos.ne'),
    miniCode_toNat one_lt_two (maxCode_lt F), Nat.one_mul]

end roundTrip

/-! ### The commands of the two 8-bit families (R210 to R213) -/

section miniCommands
variable {fam : Family} (hfam : FixedLenFamily fam 8) (F : MiniFormat) {len : Option Nat} {s : State}
include hfam

/-- DEC of 8 bits answers the decoding of the code they spell (R210, R212). -/
theorem decMini_answers (hlen : LenFor len 8) (hview : s.req.view.length = 8) :
    AnswersValue s (runDec fam len s (decodeMini F))
      (.flt (BitVec.ofNat 64 (miniDecode F (BitVec.ofNat 8 (bigValue s.req.view))))) := by
  rw [← mag_eq_bigValue]
  exact hfam.dec_answers hlen hview rfl

/-- ENC answers eight bits that spell the operand's code (R211, R213). -/
theorem exists_encMini_bits (hlen : LenFor len 8) :
    ∃ b : Bits, AnswersBits s (runEnc fam len s fun val => encodeMini F val.flt) b ∧ b.length = 8 ∧
      bigValue b = (miniEncode F s.req.val.flt.toNat).toNat :=
  ⟨_, hfam.enc_answers hlen rfl, toBits_length 8 _, by
    rw [← mag_eq_bigValue, mag_toBits (miniEncode F _).isLt]⟩

end miniCommands

section execMini
variable (len : Option Nat) (s : State)

theorem exec_decE4m3float : exec (.decE4m3float len) s = runDec .e4m3float len s (decodeMini fmtA) := rfl

theorem exec_decE5m2float : exec (.decE5m2float len) s = runDec .e5m2float len s (decodeMini fmtB) := rfl

theorem exec_encE4m3float :
    exec (.encE4m3float len) s = runEnc .e4m3float len s fun val => encodeMini fmtA val.flt := rfl

theorem exec_encE5m2float :
    exec (.encE5m2float len) s = runEnc .e5m2float len s fun val => encodeMini fmtB val.flt := rfl

end execMini

end Sys2Proof.Machine

/-! ## The statements of the 8-bit formats -/

namespace Sys2Proof.Proofs

open Sys2Proof.Machine

/-- Settles O46: values rise with their codes, so an ordinary value has one magnitude code, and what is no
NaN encodes to an ordinary code. -/
theorem minifloatCodecRoundTrips : Obligations.MinifloatCodecRoundTrips := by
  intro F hlaw
  have hF := lawfulFormat_of_miniLaw hlaw
  refine ⟨fun c hc => ⟨hF.code_le_maxCode hc, hF.miniEncode_miniDecode hc⟩, fun c hc => ?_,
    fun c hc => ?_, fun c hc hpos => ?_, fun d g hd hfin hg hval => ?_, fun d hd hnan => ?_⟩
  · rw [miniDecode_of_nan hc, miniEncode_of_nan canonicalNan_nan]
  · rw [miniDecode_of_posInf hc, miniEncode_posInf_toNat]
  · rw [miniDecode_of_negInf hc, hF.miniEncode_negInf_toNat hpos]
  · obtain ⟨-, hback, hsign⟩ := hF.miniDecode_miniEncode hd fun h => h.not_finite hfin
    rw [miniMagnitude_of_value hfin hg hval] at hback hsign
    exact ⟨hback.trans hval.symm, fun hpos => hsign hpos.ne'⟩
  · obtain ⟨hback, hval, -⟩ := hF.miniDecode_miniEncode hd hnan
    exact ⟨hback, hval ▸ (miniAbsQ_strictMono F).monotone (miniMagnitude_le hd hnan)⟩

/-- Settles O42: both families have views of 8 bits, and the codec reads the code they spell. -/
theorem decMinifloatsAnswerTheDecodedCode : Obligations.DecMinifloatsAnswerTheDecodedCode := by
  refine ⟨hasWords_of_instrFields (fun _ => rfl) rfl, hasWords_of_instrFields (fun _ => rfl) rfl,
    fun s len => ?_⟩
  simp only [exec_decE4m3float, exec_decE5m2float]
  refine ⟨fun hview hlen => ⟨decMini_answers fixedLenFamily_e4m3float fmtA hlen hview,
      decMini_answers fixedLenFamily_e5m2float fmtB hlen hview⟩, ?_,
    fun hview hlen => ⟨fixedLenFamily_e4m3float.dec_badView hlen hview _,
      fixedLenFamily_e5m2float.dec_badView hlen hview _⟩⟩
  rintro n rfl hn
  exact ⟨fixedLenFamily_e4m3float.dec_invalidLength hn _, fixedLenFamily_e5m2float.dec_invalidLength hn _⟩

/-- Settles O43: the codec writes the eight bits of the operand's code, whatever the operand. -/
theorem encMinifloatsAnswerTheEncodedCode : Obligations.EncMinifloatsAnswerTheEncodedCode := by
  refine ⟨hasWords_of_instrFields (fun _ => rfl) rfl, hasWords_of_instrFields (fun _ => rfl) rfl,
    fun s len => ?_⟩
  simp only [exec_encE4m3float, exec_encE5m2float]
  refine ⟨fun hlen => ⟨exists_encMini_bits fixedLenFamily_e4m3float fmtA hlen,
    exists_encMini_bits fixedLenFamily_e5m2float fmtB hlen⟩, ?_⟩
  rintro n rfl hn
  exact ⟨fixedLenFamily_e4m3float.enc_invalidLength hn _, fixedLenFamily_e5m2float.enc_invalidLength hn _⟩

/-- Settles O44: every exponent of a lawful format is one of binary64, so no value is rounded. -/
theorem minifloatDecodeIsExact : Obligations.MinifloatDecodeIsExact :=
  fun _ hlaw => (lawfulFormat_of_miniLaw hlaw).miniDecodesTo

/-- Settles O45: the value stands between two neighbouring codes, and the encoder takes the nearer one. The
laws of the format are not needed for it. -/
theorem minifloatEncodeIsNearest : Obligations.MinifloatEncodeIsNearest :=
  fun _ _ _ hd => miniEncode_encodesTo hd

end Sys2Proof.Proofs

/-! ## Lemmas of the exp-Golomb statements: the two layouts, sign folding and the commands of the four
families (R230 to R249) -/

namespace Sys2Proof.Machine

/-! ### The number of a payload (R231, R232) -/

theorem codeNumber_succ (p : Bits) : codeNumber p + 1 = 2 ^ p.length + mag p := by
  have := Nat.two_pow_pos p.length
  rw [codeNumber, ← mag_eq_bigValue]
  omega

/-- The number determines the length of the payload: `|P| = floor(log2(u + 1))`. -/
theorem floorLog2Nat_codeNumber_succ (p : Bits) : floorLog2Nat (codeNumber p + 1) = p.length := by
  have hlt := mag_lt p
  rw [floorLog2Nat, codeNumber_succ, Nat.log2_eq_iff (by positivity), pow_succ]
  omega

theorem codeNumber_injective {p q : Bits} (h : codeNumber p = codeNumber q) : p = q := by
  have hlen : p.length = q.length := by
    rw [← floorLog2Nat_codeNumber_succ, h, floorLog2Nat_codeNumber_succ]
  have hp := codeNumber_succ p
  rw [h, codeNumber_succ, hlen] at hp
  exact mag_injective hlen (Nat.add_left_cancel hp).symm

/-- The low bits of `u + 1`, below its leading 1, are the payload of the number u. -/
theorem codeNumber_toBits (u : Nat) : codeNumber (toBits (floorLog2Nat (u + 1)) (u + 1)) = u := by
  have hle : 2 ^ floorLog2Nat (u + 1) ≤ u + 1 := Nat.log2_self_le (Nat.succ_ne_zero u)
  have hlt : u + 1 < 2 ^ (floorLog2Nat (u + 1) + 1) := Nat.lt_log2_self
  have hmod : (u + 1) % 2 ^ floorLog2Nat (u + 1) = u + 1 - 2 ^ floorLog2Nat (u + 1) := by
    rw [Nat.mod_eq_sub_mod hle, Nat.mod_eq_of_lt (by rw [pow_succ] at hlt; omega)]
  have hnumber := codeNumber_succ (toBits (floorLog2Nat (u + 1)) (u + 1))
  rw [toBits_length, mag_toBits_mod, hmod] at hnumber
  omega

/-! ### A layout: a code for each payload, with its writer and its parser -/

/-- What the plain and the interleaved codes share: the writer writes the code of a number, and the parser
reads the number and the length of the code at the front of a sequence, and nothing else. -/
structure CodeLayout where
  code : Bits → Bits
  write : Nat → Bits
  parse : Bits → Option (Nat × Nat)
  length_code : ∀ p, (code p).length = 2 * p.length + 1
  write_codeNumber : ∀ p, write (codeNumber p) = code p
  parse_code : ∀ p rest, parse (code p ++ rest) = some (codeNumber p, 2 * p.length + 1)
  code_of_parse : ∀ v r, parse v = some r → ∃ p rest, v = code p ++ rest

namespace CodeLayout

variable (L : CodeLayout)

theorem exists_write_eq_code (u : Nat) : ∃ p, L.write u = L.code p ∧ codeNumber p = u :=
  ⟨_, by rw [← L.write_codeNumber, codeNumber_toBits], codeNumber_toBits u⟩

/-- The parser reads the shorter code and then the longer one from the same bits, so they are one code. -/
theorem eq_of_code_isPrefix {p q : Bits} (h : L.code p <+: L.code q) : p = q := by
  obtain ⟨rest, hrest⟩ := h
  have hp := L.parse_code p rest
  have hq := L.parse_code q []
  rw [List.append_nil, ← hrest, hp] at hq
  exact codeNumber_injective (congrArg Prod.fst (Option.some.inj hq))

theorem parse_eq_none {v : Bits} (h : ∀ p rest, v ≠ L.code p ++ rest) : L.parse v = none := by
  rw [Option.eq_none_iff_forall_ne_some]
  intro r hr
  obtain ⟨p, rest, hv⟩ := L.code_of_parse v r hr
  exact h p rest hv

/-! The two accessors of a layout (R236). -/

section access
variable (g : Nat → Int) {v : Bits}

theorem exactAccess_code (p : Bits) :
    exactAccess L.parse g (L.code p) = .ok (.int (g (codeNumber p))) := by
  have hparse := L.parse_code p []
  rw [List.append_nil] at hparse
  simp [exactAccess, hparse, L.length_code]

/-- A view is no code when no code is at its front, or when bits are left over behind one. -/
theorem exactAccess_not_code (h : ∀ p, v ≠ L.code p) : exactAccess L.parse g v = .error .interpret := by
  by_cases hfront : ∃ p rest, v = L.code p ++ rest
  · obtain ⟨p, rest, rfl⟩ := hfront
    have hrest : rest ≠ [] := by rintro rfl; exact h p (List.append_nil _)
    simp [exactAccess, L.parse_code, L.length_code, hrest]
  · push Not at hfront
    simp [exactAccess, L.parse_eq_none hfront]

theorem streamAccess_code (p rest : Bits) :
    streamAccess L.parse g (L.code p ++ rest) = .ok (.int (g (codeNumber p)), 2 * p.length + 1) := by
  simp [streamAccess, L.parse_code]

theorem streamAccess_no_code (h : ∀ p rest, v ≠ L.code p ++ rest) :
    streamAccess L.parse g v = .error .interpret := by
  simp [streamAccess, L.parse_eq_none h]

end access

end CodeLayout

/-! ### The plain layout (R231, R232) -/

theorem plainCode_length (p : Bits) : (plainCode p).length = 2 * p.length + 1 := by
  simp [plainCode]; omega

/-- `u + 1` in binary is the 1 and the payload. -/
theorem ueEncode_codeNumber (p : Bits) : ueEncode (codeNumber p) = plainCode p := by
  have hmag : codeNumber p + 1 = mag (true :: p) := by simp [codeNumber_succ, mag_cons]
  rw [ueEncode, floorLog2Nat_codeNumber_succ, hmag]
  exact congrArg (zeros p.length ++ ·) (toBits_mag (true :: p))

theorem ueParse_plainCode (p rest : Bits) :
    ueParse (plainCode p ++ rest) = some (codeNumber p, 2 * p.length + 1) := by
  have hzeros : leadingZeros (plainCode p ++ rest) = some p.length :=
    leadingZeros_eq_some.2 ⟨p ++ rest, by simp [plainCode, zeros]⟩
  have hpayload : slice (plainCode p ++ rest) (p.length + 1) (2 * p.length + 1) = p := by
    have hskip : p.length + 1 = (zeros p.length ++ [true]).length := by simp
    have hsplit : plainCode p ++ rest = (zeros p.length ++ [true]) ++ (p ++ rest) := by
      simp [plainCode, zeros]
    have hcount : 2 * p.length + 1 - (p.length + 1) = p.length := by omega
    rw [slice, hcount, hsplit, hskip, List.drop_left, List.take_left]
  have hlong : ¬ (plainCode p ++ rest).length < 2 * p.length + 1 := by
    rw [List.length_append, plainCode_length]; omega
  simp only [ueParse, hzeros, if_neg hlong, hpayload]
  rw [← codeNumber_succ, Nat.add_sub_cancel]

/-- Behind k zeros and a 1 the parser needs k more bits, which are the payload. -/
theorem plainCode_of_ueParse (v : Bits) (r : Nat × Nat) (h : ueParse v = some r) :
    ∃ p rest, v = plainCode p ++ rest := by
  cases hzeros : leadingZeros v with
  | none => simp [ueParse, hzeros] at h
  | some k =>
    obtain ⟨tail, rfl⟩ := leadingZeros_eq_some.1 hzeros
    simp only [ueParse, hzeros] at h
    split at h
    · cases h
    next hlong =>
      have hlen : (tail.take k).length = k := by
        simp at hlong ⊢; omega
      exact ⟨tail.take k, tail.drop k, by simp [plainCode, hlen, zeros]⟩

/-- Zeros, a 1, the payload: the layout of `ue` and `se`. -/
def plainLayout : CodeLayout where
  code := plainCode
  write := ueEncode
  parse := ueParse
  length_code := plainCode_length
  write_codeNumber := ueEncode_codeNumber
  parse_code := ueParse_plainCode
  code_of_parse := plainCode_of_ueParse

/-! ### The interleaved layout (R234, R235) -/

theorem interleavedCode_cons (b : Bool) (p : Bits) :
    interleavedCode (b :: p) = false :: b :: interleavedCode p := rfl

theorem interleavedCode_length (p : Bits) : (interleavedCode p).length = 2 * p.length + 1 := by
  induction p with
  | nil => rfl
  | cons b p ih => rw [interleavedCode_cons]; simp [ih]; omega

/-- The pairs of the k low bits of x are the interleaved code of those bits, up to the stop bit. -/
theorem uiePairs_append_stop (k x : Nat) : uiePairs k x ++ [true] = interleavedCode (toBits k x) := by
  induction k with
  | zero => rfl
  | succ k ih => rw [uiePairs, toBits, interleavedCode_cons, ← ih]; rfl

theorem toBits_codeNumber_succ (p : Bits) : toBits p.length (codeNumber p + 1) = p :=
  mag_injective (toBits_length _ _) (by
    rw [mag_toBits_mod, codeNumber_succ, Nat.add_mod_left, Nat.mod_eq_of_lt (mag_lt p)])

theorem uieEncode_codeNumber (p : Bits) : uieEncode (codeNumber p) = interleavedCode p := by
  rw [uieEncode, floorLog2Nat_codeNumber_succ, uiePairs_append_stop, toBits_codeNumber_succ]

theorem uieParse_interleavedCode (p rest : Bits) :
    uieParse (interleavedCode p ++ rest) = some (codeNumber p, 2 * p.length + 1) := by
  have hpairs : interleavedCode p ++ rest = uiePairs p.length (mag p) ++ true :: rest := by
    rw [List.append_cons, uiePairs_append_stop, toBits_mag]
  rw [uieParse, hpairs, uieLoop_pairs, uieLoop, Nat.mod_eq_of_lt (mag_lt p), Nat.one_mul, Nat.zero_add,
    ← codeNumber_succ, Nat.add_sub_cancel]

theorem interleavedCode_of_uieLoop {x pos : Nat} {v : Bits} {r : Nat × Nat}
    (h : uieLoop x pos v = some r) : ∃ p rest, v = interleavedCode p ++ rest := by
  induction x, pos, v using uieLoop.induct with
  | case1 | case3 => cases h
  | case2 x pos rest => exact ⟨[], rest, rfl⟩
  | case4 x pos b v ih =>
    obtain ⟨p, rest, rfl⟩ := ih h
    exact ⟨b :: p, rest, rfl⟩

/-- Pairs and a stop bit: the layout of `uie` and `sie`. -/
def interleavedLayout : CodeLayout where
  code := interleavedCode
  write := uieEncode
  parse := uieParse
  length_code := interleavedCode_length
  write_codeNumber := uieEncode_codeNumber
  parse_code := uieParse_interleavedCode
  code_of_parse _ _ := interleavedCode_of_uieLoop

/-! ### Sign folding (R233) -/

theorem foldsTo_foldSign (n : Int) : FoldsTo n (foldSign n) := by
  by_cases h : n ≤ 0
  · rw [foldSign_nonpos h]
    exact .inl ⟨h, by push_cast; rfl⟩
  · rw [not_le] at h
    rw [foldSign_pos h]
    exact .inr ⟨h, by omega⟩

/-- Twice a magnitude is even and stands for a number that is not positive. -/
theorem unfoldSign_two_mul (k : Nat) : unfoldSign (2 * k) = -(k : Int) := by
  rw [unfoldSign, if_pos (by omega), Nat.mul_div_cancel_left _ two_pos]

theorem unfoldSign_two_mul_add_one (k : Nat) : unfoldSign (2 * k + 1) = (k : Int) + 1 := by
  rw [unfoldSign, if_neg (by omega)]; omega

theorem unfoldSign_foldSign (n : Int) : unfoldSign (foldSign n) = n := by
  by_cases h : n ≤ 0
  · rw [foldSign_nonpos h, unfoldSign_two_mul]; omega
  · rw [not_le] at h
    have hodd : foldSign n = 2 * (n - 1).toNat + 1 := by rw [foldSign_pos h]; omega
    rw [hodd, unfoldSign_two_mul_add_one]; omega

theorem foldSign_unfoldSign (u : Nat) : foldSign (unfoldSign u) = u := by
  obtain ⟨k, rfl | rfl⟩ := Nat.even_or_odd' u
  · rw [unfoldSign_two_mul, foldSign_nonpos (by omega)]; omega
  · rw [unfoldSign_two_mul_add_one, foldSign_pos (by omega)]; omega

theorem foldsTo_unfoldSign (u : Nat) : FoldsTo (unfoldSign u) u := by
  simpa [foldSign_unfoldSign] using foldsTo_foldSign (unfoldSign u)

/-! ### The numbers of a family: the operands ENC takes, and their way to the number of a code -/

/-- How the operands of a family are numbered: `toCode` refuses an operand or gives the number of its code,
and `ofCode` is what the decoders read the number as. -/
structure Numbering where
  toCode : Int → Except ErrorKind Nat
  ofCode : Nat → Int
  ofCode_toCode : ∀ n u, toCode n = .ok u → ofCode u = n

/-- The unsigned families take the natural numbers as they are (R237, R243). -/
def unsignedNumbering : Numbering where
  toCode n := if n < 0 then .error .value else .ok n.toNat
  ofCode u := u
  ofCode_toCode n u h := by
    split at h
    · cases h
    · cases h; omega

/-- The signed families take every integer, folded (R240, R246). -/
def signedNumbering : Numbering where
  toCode n := .ok (foldSign n)
  ofCode := unfoldSign
  ofCode_toCode n _ h := by cases h; exact unfoldSign_foldSign n

theorem unsignedNumbering_toCode_neg {n : Int} (h : n < 0) :
    unsignedNumbering.toCode n = .error .value := if_pos h

theorem unsignedNumbering_toCode_nonneg {n : Int} (h : 0 ≤ n) :
    unsignedNumbering.toCode n = .ok n.toNat := if_neg (not_lt.2 h)

theorem encodeUnsignedCode_eq_map (write : Nat → Bits) (n : Int) :
    encodeUnsignedCode write n = (unsignedNumbering.toCode n).map write := by
  by_cases h : n < 0
  · rw [unsignedNumbering_toCode_neg h]; exact if_pos h
  · rw [unsignedNumbering_toCode_nonneg (not_lt.1 h)]; exact if_neg h

/-! ### The commands of an exp-Golomb family (R236 to R248) -/

theorem answersStream_answerStream (s : State) (v : Value) (n : Nat) :
    AnswersStream s (.next (s.answerStream v n)) v n :=
  ⟨_, rfl, rfl, rfl, rfl, rfl, rfl, rfl, rfl⟩

/-- What the four families share: no command takes a length, DEC and DECS are the two accessors of a layout
and ENC is its writer. -/
structure ExpGolombFamily (L : CodeLayout) (N : Numbering) (fam : Family)
    (dec enc decs : Option Nat → Instr) : Prop where
  isExpGolomb : isExpGolomb fam = true := by rfl
  exec_dec : ∀ len s, exec (dec len) s = runDec fam len s (exactAccess L.parse N.ofCode)
  exec_enc : ∀ len s, exec (enc len) s = runEnc fam len s fun x => (N.toCode x.int).map L.write
  exec_decs : ∀ len s, exec (decs len) s = runDecs fam len s (streamAccess L.parse N.ofCode)

theorem expGolombFamily_ue : ExpGolombFamily plainLayout unsignedNumbering .ue .decUe .encUe .decsUe where
  exec_dec _ _ := rfl
  exec_enc len s := congrArg (runEnc .ue len s) (funext fun x => encodeUnsignedCode_eq_map _ x.int)
  exec_decs _ _ := rfl

theorem expGolombFamily_se : ExpGolombFamily plainLayout signedNumbering .se .decSe .encSe .decsSe where
  exec_dec _ _ := rfl
  exec_enc _ _ := rfl
  exec_decs _ _ := rfl

theorem expGolombFamily_uie :
    ExpGolombFamily interleavedLayout unsignedNumbering .uie .decUie .encUie .decsUie where
  exec_dec _ _ := rfl
  exec_enc len s := congrArg (runEnc .uie len s) (funext fun x => encodeUnsignedCode_eq_map _ x.int)
  exec_decs _ _ := rfl

theorem expGolombFamily_sie :
    ExpGolombFamily interleavedLayout signedNumbering .sie .decSie .encSie .decsSie where
  exec_dec _ _ := rfl
  exec_enc _ _ := rfl
  exec_decs _ _ := rfl

/-- Stage 1 of an exp-Golomb family (R92, R93): an explicit length is refused, no length is accepted. -/
theorem resolveLen_expGolomb {fam : Family} (h : isExpGolomb fam = true) (op : Op) :
    resolveLen op fam none = .ok () ∧
      ∀ n, resolveLen op fam (some n) = .error .invalidLength := by
  cases fam <;> cases h <;> cases op <;> exact ⟨rfl, fun _ => rfl⟩

/-- No fixed length either: without an explicit one every view agrees (R96). -/
theorem viewAgrees_expGolomb {fam : Family} (h : isExpGolomb fam = true) (v : Bits) :
    viewAgrees fam none v = .ok () := by
  cases fam <;> cases h <;> rfl

namespace ExpGolombFamily

variable {L : CodeLayout} {N : Numbering} {fam : Family} {dec enc decs : Option Nat → Instr} {s : State}
  (F : ExpGolombFamily L N fam dec enc decs)
include F

theorem resolveLen_none (op : Op) : resolveLen op fam none = .ok () :=
  (resolveLen_expGolomb F.isExpGolomb op).1

theorem resolveLen_some (op : Op) (n : Nat) : resolveLen op fam (some n) = .error .invalidLength :=
  (resolveLen_expGolomb F.isExpGolomb op).2 n

theorem dec_invalidLength (s : State) (n : Nat) : AnswersError s (exec (dec (some n)) s) .invalidLength := by
  rw [F.exec_dec, runDec_invalid _ _ _ (F.resolveLen_some .dec n)]
  exact answersError_raise s _

theorem enc_invalidLength (s : State) (n : Nat) : AnswersError s (exec (enc (some n)) s) .invalidLength := by
  rw [F.exec_enc, runEnc_invalid _ _ _ (F.resolveLen_some .enc n)]
  exact answersError_raise s _

theorem decs_invalidLength (s : State) (n : Nat) :
    AnswersError s (exec (decs (some n)) s) .invalidLength := by
  rw [F.exec_decs, runDecs_invalid _ _ _ (F.resolveLen_some .decs n)]
  exact answersError_raise s _

theorem dec_answers {p : Bits} (hview : s.req.view = L.code p) :
    AnswersValue s (exec (dec none) s) (.int (N.ofCode (codeNumber p))) := by
  rw [F.exec_dec, runDec_eq _ _ _ (F.resolveLen_none .dec) (viewAgrees_expGolomb F.isExpGolomb _), hview,
    L.exactAccess_code]
  exact answersValue_answerValue s _

theorem dec_interpret (hview : ∀ p, s.req.view ≠ L.code p) :
    AnswersError s (exec (dec none) s) .interpret := by
  rw [F.exec_dec, runDec_eq _ _ _ (F.resolveLen_none .dec) (viewAgrees_expGolomb F.isExpGolomb _),
    L.exactAccess_not_code _ hview]
  exact answersError_raise s _

theorem decs_answers {p rest : Bits} (hview : s.req.view = L.code p ++ rest) :
    AnswersStream s (exec (decs none) s) (.int (N.ofCode (codeNumber p))) (2 * p.length + 1) := by
  rw [F.exec_decs, runDecs_eq _ _ _ (F.resolveLen_none .decs), hview, L.streamAccess_code]
  exact answersStream_answerStream s _ _

theorem decs_interpret (hview : ∀ p rest, s.req.view ≠ L.code p ++ rest) :
    AnswersError s (exec (decs none) s) .interpret := by
  rw [F.exec_decs, runDecs_eq _ _ _ (F.resolveLen_none .decs), L.streamAccess_no_code _ hview]
  exact answersError_raise s _

theorem enc_error {k : ErrorKind} (hnum : N.toCode s.req.val.int = .error k) :
    AnswersError s (exec (enc none) s) k := by
  rw [F.exec_enc, runEnc_eq _ _ _ (F.resolveLen_none .enc), hnum]
  exact answersError_raise s _

theorem enc_answers {u : Nat} (hnum : N.toCode s.req.val.int = .ok u) :
    ∃ p, AnswersBits s (exec (enc none) s) (L.code p) ∧ codeNumber p = u := by
  obtain ⟨p, hcode, hp⟩ := L.exists_write_eq_code u
  refine ⟨p, ?_, hp⟩
  rw [F.exec_enc, runEnc_eq _ _ _ (F.resolveLen_none .enc), hnum, ← hcode]
  exact answersBits_answerBits s _

/-- An ENC that succeeds has written the code of its operand. -/
theorem of_enc_ok {t : State} (henc : exec (enc none) s = .next t) (hok : t.rsp.status = 0) :
    ∃ p, t.rsp.res = L.code p ∧ N.ofCode (codeNumber p) = s.req.val.int := by
  cases hnum : N.toCode s.req.val.int with
  | error k => exact absurd hok (henc ▸ F.enc_error hnum).status_ne_zero
  | ok u =>
    obtain ⟨p, hp, rfl⟩ := F.enc_answers hnum
    exact ⟨p, (henc ▸ hp).res_eq, N.ofCode_toCode _ _ hnum⟩

/-- DEC and DECS of what ENC wrote (R249). -/
theorem decodes_of_enc {t : State} (s' : State) (hok : t.rsp.status = 0)
    (henc : exec (enc none) s = .next t) :
    (s'.req.view = t.rsp.res → AnswersValue s' (exec (dec none) s') (.int s.req.val.int)) ∧
      ∀ rest, s'.req.view = t.rsp.res ++ rest →
        AnswersStream s' (exec (decs none) s') (.int s.req.val.int) t.rsp.res.length := by
  obtain ⟨p, hres, hp⟩ := F.of_enc_ok henc hok
  rw [hres, L.length_code, ← hp]
  exact ⟨F.dec_answers, fun _ => F.decs_answers⟩

end ExpGolombFamily

/-! ### The unsigned and the signed family of one layout -/

section pair
variable (L : CodeLayout) {ufam sfam : Family} {udec uenc udecs sdec senc sdecs : Option Nat → Instr}

/-- Every clause of the two writers of a layout (R237, R240, R243, R246). -/
theorem CodeLayout.enc_writes (U : ExpGolombFamily L unsignedNumbering ufam udec uenc udecs)
    (S : ExpGolombFamily L signedNumbering sfam sdec senc sdecs) (s : State) :
    (0 ≤ s.req.val.int → ∃ p : Bits, AnswersBits s (exec (uenc none) s) (L.code p) ∧
      (codeNumber p : Int) = s.req.val.int) ∧
    (s.req.val.int < 0 → AnswersError s (exec (uenc none) s) .value) ∧
    (∃ p : Bits, AnswersBits s (exec (senc none) s) (L.code p) ∧
      FoldsTo s.req.val.int (codeNumber p)) ∧
    (∀ n, AnswersError s (exec (uenc (some n)) s) .invalidLength ∧
      AnswersError s (exec (senc (some n)) s) .invalidLength) := by
  refine ⟨fun hn => ?_, fun hn => U.enc_error (unsignedNumbering_toCode_neg hn), ?_,
    fun n => ⟨U.enc_invalidLength s n, S.enc_invalidLength s n⟩⟩
  · obtain ⟨p, hp, hnumber⟩ := U.enc_answers (unsignedNumbering_toCode_nonneg hn)
    exact ⟨p, hp, by rw [hnumber, Int.toNat_of_nonneg hn]⟩
  · obtain ⟨p, hp, hnumber⟩ := S.enc_answers rfl
    exact ⟨p, hp, hnumber ▸ foldsTo_foldSign _⟩

/-- Every clause of the two exact decoders of a layout (R238, R241, R244, R247). -/
theorem CodeLayout.dec_exact (U : ExpGolombFamily L unsignedNumbering ufam udec uenc udecs)
    (S : ExpGolombFamily L signedNumbering sfam sdec senc sdecs) (s : State) :
    (∀ p : Bits, s.req.view = L.code p →
      AnswersValue s (exec (udec none) s) (.int (codeNumber p)) ∧
      ∃ n : Int, FoldsTo n (codeNumber p) ∧ AnswersValue s (exec (sdec none) s) (.int n)) ∧
    ((∀ p : Bits, s.req.view ≠ L.code p) →
      AnswersError s (exec (udec none) s) .interpret ∧
      AnswersError s (exec (sdec none) s) .interpret) ∧
    (∀ n, AnswersError s (exec (udec (some n)) s) .invalidLength ∧
      AnswersError s (exec (sdec (some n)) s) .invalidLength) :=
  ⟨fun _ hview => ⟨U.dec_answers hview, _, foldsTo_unfoldSign _, S.dec_answers hview⟩,
    fun hview => ⟨U.dec_interpret hview, S.dec_interpret hview⟩,
    fun n => ⟨U.dec_invalidLength s n, S.dec_invalidLength s n⟩⟩

/-- Every clause of the two stream decoders of a layout (R239, R242, R245, R248). -/
theorem CodeLayout.decs_reads (U : ExpGolombFamily L unsignedNumbering ufam udec uenc udecs)
    (S : ExpGolombFamily L signedNumbering sfam sdec senc sdecs) (s : State) :
    (∀ p rest : Bits, s.req.view = L.code p ++ rest →
      AnswersStream s (exec (udecs none) s) (.int (codeNumber p)) (2 * p.length + 1) ∧
      ∃ n : Int, FoldsTo n (codeNumber p) ∧
        AnswersStream s (exec (sdecs none) s) (.int n) (2 * p.length + 1)) ∧
    ((∀ p rest : Bits, s.req.view ≠ L.code p ++ rest) →
      AnswersError s (exec (udecs none) s) .interpret ∧
      AnswersError s (exec (sdecs none) s) .interpret) ∧
    (∀ n, AnswersError s (exec (udecs (some n)) s) .invalidLength ∧
      AnswersError s (exec (sdecs (some n)) s) .invalidLength) :=
  ⟨fun _ _ hview => ⟨U.decs_answers hview, _, foldsTo_unfoldSign _, S.decs_answers hview⟩,
    fun hview => ⟨U.decs_interpret hview, S.decs_interpret hview⟩,
    fun n => ⟨U.decs_invalidLength s n, S.decs_invalidLength s n⟩⟩

end pair

end Sys2Proof.Machine

/-! ## The exp-Golomb statements -/

namespace Sys2Proof.Proofs

open Sys2Proof.Machine

/-- Settles O57: ENC writes the code of its operand's number, and the parser reads from any sequence the one
code at its front. -/
theorem expGolombCodesAreABijection : Obligations.ExpGolombCodesAreABijection :=
  ⟨fun _ _ s' hok => ⟨expGolombFamily_ue.decodes_of_enc s' hok, expGolombFamily_se.decodes_of_enc s' hok,
      expGolombFamily_uie.decodes_of_enc s' hok, expGolombFamily_sie.decodes_of_enc s' hok⟩,
    fun _ _ => plainLayout.eq_of_code_isPrefix, fun _ _ => interleavedLayout.eq_of_code_isPrefix⟩

/-- Settles O51: the clauses of the writers at the plain layout. -/
theorem encPlainCodesWriteZerosThenNumber : Obligations.EncPlainCodesWriteZerosThenNumber :=
  ⟨hasWords_of_instrFields (fun _ => rfl) rfl, hasWords_of_instrFields (fun _ => rfl) rfl,
    plainLayout.enc_writes expGolombFamily_ue expGolombFamily_se⟩

/-- Settles O52: the clauses of the writers at the interleaved layout. -/
theorem encInterleavedCodesWritePairs : Obligations.EncInterleavedCodesWritePairs :=
  ⟨hasWords_of_instrFields (fun _ => rfl) rfl, hasWords_of_instrFields (fun _ => rfl) rfl,
    interleavedLayout.enc_writes expGolombFamily_uie expGolombFamily_sie⟩

/-- Settles O53: the clauses of the exact decoders at the plain layout. -/
theorem decPlainCodesAreExact : Obligations.DecPlainCodesAreExact :=
  ⟨hasWords_of_instrFields (fun _ => rfl) rfl, hasWords_of_instrFields (fun _ => rfl) rfl,
    plainLayout.dec_exact expGolombFamily_ue expGolombFamily_se⟩

/-- Settles O54: the clauses of the exact decoders at the interleaved layout. -/
theorem decInterleavedCodesAreExact : Obligations.DecInterleavedCodesAreExact :=
  ⟨hasWords_of_instrFields (fun _ => rfl) rfl, hasWords_of_instrFields (fun _ => rfl) rfl,
    interleavedLayout.dec_exact expGolombFamily_uie expGolombFamily_sie⟩

/-- Settles O55: the clauses of the stream decoders at the plain layout. -/
theorem decsPlainCodesLeaveTheRest : Obligations.DecsPlainCodesLeaveTheRest :=
  ⟨hasWords_of_instrFields (fun _ => rfl) rfl, hasWords_of_instrFields (fun _ => rfl) rfl,
    plainLayout.decs_reads expGolombFamily_ue expGolombFamily_se⟩

/-- Settles O56: the clauses of the stream decoders at the interleaved layout. -/
theorem decsInterleavedCodesLeaveTheRest : Obligations.DecsInterleavedCodesLeaveTheRest :=
  ⟨hasWords_of_instrFields (fun _ => rfl) rfl, hasWords_of_instrFields (fun _ => rfl) rfl,
    interleavedLayout.decs_reads expGolombFamily_uie expGolombFamily_sie⟩

/-- Settles O58: by the sign of the integer in one direction, by the parity of the number in the other. -/
theorem signFoldingIsABijection : Obligations.SignFoldingIsABijection :=
  ⟨fun n => ⟨foldsTo_foldSign n, unfoldSign_foldSign n⟩, foldSign_unfoldSign, rfl⟩

end Sys2Proof.Proofs

/-! ## Lemmas of the exception and reset statements: the kinds of a row, completion, the host port
(R277, R300 to R308, R313) -/

namespace Sys2Proof.Machine

/-! ### The kinds of a row of R277 -/

/-- `bin` takes every explicit length and none (R92). -/
theorem not_lengthRefused_bin (op : Op) (len : Option Nat) : ¬ LengthRefused op .bin len := by
  cases op <;> exact id

/-- Every row but the two of `bin` lists InvalidLength (R277 column IL). -/
theorem invalidLength_mem_mayAnswer {op : Op} {fam : Family} (e : Endian) (hop : hasOp op fam = true)
    (hfam : fam ≠ .bin) : .invalidLength ∈ mayAnswer op fam e := by
  revert hop hfam; cases op <;> cases fam <;> cases e <;> decide

/-- A row that can refuse a length lists the kind it refuses it with. -/
theorem LengthRefused.mem_mayAnswer {op : Op} {fam : Family} {len : Option Nat}
    (hlen : LengthRefused op fam len) (e : Endian) (hop : hasOp op fam = true) :
    .invalidLength ∈ mayAnswer op fam e := by
  refine invalidLength_mem_mayAnswer e hop ?_
  rintro rfl
  exact not_lengthRefused_bin op len hlen

/-- STATUS tells how the command ended: 0, or the code of a kind the outcome fails with (R270). -/
theorem FailsOnlyWith.status_respond {ks : List ErrorKind} {r : Except ErrorKind Answer}
    (hr : FailsOnlyWith ks r) (s : State) :
    (s.respond r).rsp.status = 0 ∨ ∃ k ∈ ks, (s.respond r).rsp.status = errorCode k := by
  rcases r with k | (v | b | ⟨v, n⟩)
  · exact .inr ⟨k, hr k rfl, rfl⟩
  all_goals exact .inl rfl

/-! ### Completion (R37, R305, R313) -/

/-- A presented command is answered, whether its word is legal or not. -/
theorem step_respond {s : State} (hb : s.busy = true) : ∃ r, step s = .next (s.respond r) := by
  cases hd : decode s.req.cmd with
  | error e => exact ⟨.error (rejectKind e), step_reject hb hd⟩
  | ok i =>
    obtain ⟨r, -, hrun⟩ := exec_respond i s
    exact ⟨r, (step_exec hb hd).trans hrun⟩

/-! ### The host port (R305 to R308) -/

section port
variable {s : State} (r : Request)

theorem present_idle (hb : s.busy = false) : present r s = .ok { s with req := r, busy := true } :=
  present_eq_ok_iff.2 ⟨hb, rfl⟩

theorem present_busy (hb : s.busy = true) : present r s = .error .startWhileBusy := if_pos hb

theorem changeRequest_idle (hb : s.busy = false) : changeRequest r s = .ok { s with req := r } := by
  simp [changeRequest, hb]

theorem changeRequest_busy (hb : s.busy = true) :
    changeRequest r s = .error .requestChangedWhileBusy := if_pos hb

theorem readTimely_busy (hb : s.busy = true) : readTimely s = .error .readBeforeDone := if_pos hb

theorem readTimely_before_first (hb : s.busy = false) (hkind : s.rspKind = .none) :
    readTimely s = .error .readBeforeFirst := by
  simp [readTimely, hb, hkind]

/-- An untimely read is the same fault whatever the field (R308). -/
theorem reads_untimely {f : Fault} (h : readTimely s = .error f) :
    readStatus s = .error f ∧ readRes s = .error f ∧ readRval s = .error f ∧
      readConsumed s = .error f := by
  simp [readStatus, readRes, readRval, readConsumed, h, Bind.bind, Except.bind]

end port

/-- After any response the host reads the STATUS that was written (R28, R308). -/
theorem readStatus_respond (s : State) (a : Except ErrorKind Answer) :
    readStatus (s.respond a) = .ok (s.respond a).rsp.status := by
  rcases a with k | (v | b | ⟨v, n⟩) <;> rfl

end Sys2Proof.Machine

/-! ## The exception and reset statements -/

namespace Sys2Proof.Proofs

open Sys2Proof.Machine

/-- Settles O16: a length is refused only in a row that lists InvalidLength, and stage 2 fails with the
other kinds of the row only. -/
theorem instructionsAnswerOnlyTheirErrorKinds : Obligations.InstructionsAnswerOnlyTheirErrorKinds := by
  intro i s t hexec
  obtain ⟨hlen, hrun⟩ | ⟨-, r, hr, hrun⟩ := exec_answersInStages i s <;> cases hrun.symm.trans hexec
  · exact .inr ⟨_, hlen.mem_mayAnswer _ (legal_of_instrFields rfl).2, rfl⟩
  · obtain hok | ⟨k, hk, hstatus⟩ := hr.status_respond s
    · exact .inl hok
    · exact .inr ⟨k, List.mem_of_mem_filter hk, hstatus⟩

/-- Settles O11: every command ends in a response, which is done; an idle step stays idle. -/
theorem everyCommandCompletes : Obligations.EveryCommandCompletes := by
  refine ⟨fun i s => ?_, fun s => ?_⟩
  · obtain ⟨r, -, hrun⟩ := exec_respond i s
    exact ⟨_, hrun, s.respond_busy r⟩
  · cases hb : s.busy with
    | false => exact ⟨s, step_idle hb, hb⟩
    | true =>
      obtain ⟨r, hrun⟩ := step_respond hb
      exact ⟨_, hrun, s.respond_busy r⟩

/-- Settles O4: the branch of a step whose word passes the checks of R70. -/
theorem stepRunsTheDecodedInstruction : Obligations.StepRunsTheDecodedInstruction :=
  fun _ _ => step_exec

/-- Settles O18: by the busy bit, and for the reads by the one check of timeliness they share. -/
theorem hostObligationsAreEnforced : Obligations.HostObligationsAreEnforced :=
  ⟨fun _ r hb => ⟨present_busy r hb, changeRequest_busy r hb, reads_untimely (readTimely_busy hb)⟩,
    fun _ r hb => ⟨present_idle r hb, changeRequest_idle r hb⟩,
    fun _ hb hkind => reads_untimely (readTimely_before_first hb hkind)⟩

/-- Settles O19: the reset state is idle, so it takes any first request (R301), and the response to it leaves
CFG alone. -/
theorem resetLatchesTheHostOrder : Obligations.ResetLatchesTheHostOrder := by
  refine ⟨fun _ => rfl, rfl, rfl, (reads_untimely (readTimely_before_first rfl rfl)).1, fun r => ?_⟩
  obtain ⟨a, hrun⟩ := step_respond (s := { State.reset with req := r, busy := true }) rfl
  exact ⟨_, _, present_idle r rfl, hrun, rfl, congrArg Cfg.hostEndian (State.respond_cfg _ a),
    State.respond_busy _ a, readStatus_respond _ a⟩

end Sys2Proof.Proofs
